-- ==== Sys2Proof/Word.lean ====
section
/-! DEFINITION. The byte, the one word the block knows (`00_scope.md` R12), and byte sequences (R13). -/

namespace Sys2Proof

/-- A byte: an unsigned number in 0..255 (R12). -/
abbrev Byte := BitVec 8

/-- A byte sequence; byte 0 is the first on the wire and has the lowest index (R13, R42). -/
abbrev Bytes := List Byte

end Sys2Proof
end

