-- ==== Sys2Proof/Config.lean ====
section
/-! DEFINITION. What an implementation fixes: the parameters of `00_scope.md` R10 and R11, and the one free function the
source leaves open. -/

namespace Sys2Proof

/-- Which function `CK8` is (R11 item 2): the spec's default, or another one the spec does not know. -/
inductive Ck8Choice where
  | sum                -- `CK8_SUM` (R123)
  | other (n : Nat)    -- any other total function of the bytes and their order (R124 item 1)
  deriving DecidableEq, Repr

/-- FREE VALUE (log entry 4): the checksum functions the source could have meant; nothing constrains them. -/
opaque Config.freeCk8 : Nat → Bytes → Byte

/-- The configuration of one engine. DESIGN CHOICE (log entry 4): it stands in State, where no step changes it, so that a
statement over every state is a statement over every configuration (R10, R11, `93_implementation_defined.md` U14, U15, U19).
R10's nine parameters, each with its value as the default, and the two open ones of R11. -/
structure Config where
  endByte      : Byte := 0xC0#8   -- `END`, the frame delimiter
  escByte      : Byte := 0xDB#8   -- `ESC`, first byte of an escape pair
  escEndByte   : Byte := 0xDC#8   -- `ESC_END`, second byte of the pair that stands for a data byte END
  escEscByte   : Byte := 0xDD#8   -- `ESC_ESC`, second byte of the pair that stands for a data byte ESC
  rxChunkMax   : Nat := 64        -- `RX_CHUNK_MAX`
  rxFrameCap   : Nat := 128       -- `RX_FRAME_CAP`
  txPayloadMax : Nat := 128       -- `TX_PAYLOAD_MAX`
  txBufCap     : Nat := 260       -- `TX_BUF_CAP`
  txChunkMax   : Nat := 64        -- `TX_CHUNK_MAX`
  protoMax     : Byte := 0xFF#8   -- `PROTO_MAX`, open (D2); DESIGN CHOICE 0xFF, the value of the spec's vectors
  ck8          : Ck8Choice := .sum
  deriving DecidableEq, Repr

/-- The four marker values are four values, as R10's are (log entry 5): under other values a wire byte would have two classes. -/
abbrev Config.MarkersDistinct (c : Config) : Prop :=
  c.endByte ≠ c.escByte ∧ c.endByte ≠ c.escEndByte ∧ c.endByte ≠ c.escEscByte ∧
  c.escByte ≠ c.escEndByte ∧ c.escByte ≠ c.escEscByte ∧ c.escEndByte ≠ c.escEscByte

/-- The largest decoded frame a configuration allows in either direction (`30_encoding.md` R65: 130). -/
def Config.frameMax (c : Config) : Nat := max c.rxFrameCap (c.txPayloadMax + 2)

end Sys2Proof
end

