-- ==== Sys2Proof/Syntax.lean ====
section
/-! DEFINITION. The syntax: the six formats of `30_encoding.md`, one constructor of `Instr` for each row of
`opcode_table.json`, and the result types of `00_scope.md` R15. -/

namespace Sys2Proof

/-- A handler reference, opaque to the engine (R11 item 3, D27). DESIGN CHOICE (log entry 7): any byte string is one, so that
no width is assumed (`91_not_in_source.md` N4); the engine stores it and passes it on, and compares nothing. -/
structure Handler where
  token : Bytes
  deriving DecidableEq, Repr

/-- The formats of the opcode table (R61 to R65, R71). -/
inductive Format where
  | wireNormal | wireEscaped | stuff | decodedFrame | encodedFrame | op
  deriving DecidableEq, Repr

/-- The instructions: one constructor for each row of `opcode_table.json`, in the table's order. -/
inductive Instr where
  -- WIRE_NORMAL (R61)
  | wireEnd
  | wireEsc
  | wireLiteral (b : Byte)
  -- WIRE_ESCAPED (R62)
  | wireEscEnd
  | wireEscEsc
  | wireMalformed (b : Byte)
  -- STUFF (R63)
  | stuffEnd
  | stuffEsc
  | stuffOther (d : Byte)
  -- frame formats (R65, R64)
  | decodedFrame (id : Byte) (payload : Bytes) (checksum : Byte)
  | encodedFrame (f : Bytes)
  -- operations (R71)
  | engineInit
  | engineShutdown
  | muxRegister (id : Byte) (handler : Handler)
  | muxUnregister (id : Byte)
  | txSend (id : Byte) (payload : Bytes)
  | taskCycle
  | reserved6
  | reserved7
  | slipEnc (src : Bytes) (prependStart appendEnd : Bool)
  | slipSfe (buf : Bytes)
  | slipDec (escIn : Bool) (src : Bytes)
  | ck8Compute (data : Bytes)
  | ck8Verify (f : Bytes)
  | rxStep
  | muxDispatch
  | txDrain
  deriving DecidableEq, Repr

/-- The format a row of the table belongs to. -/
def Instr.format : Instr → Format
  | .wireEnd | .wireEsc | .wireLiteral _ => .wireNormal
  | .wireEscEnd | .wireEscEsc | .wireMalformed _ => .wireEscaped
  | .stuffEnd | .stuffEsc | .stuffOther _ => .stuff
  | .decodedFrame _ _ _ => .decodedFrame
  | .encodedFrame _ => .encodedFrame
  | .engineInit | .engineShutdown | .muxRegister _ _ | .muxUnregister _ | .txSend _ _ | .taskCycle => .op
  | .reserved6 | .reserved7 => .op
  | .slipEnc _ _ _ | .slipSfe _ | .slipDec _ _ | .ck8Compute _ | .ck8Verify _ => .op
  | .rxStep | .muxDispatch | .txDrain => .op

/-- `SfeResult` (R15). -/
inductive SfeResult where
  | found (offset : Nat)
  | notFound
  deriving DecidableEq, Repr

/-- `DecResult` (R15). -/
inductive DecResult where
  | ok (out : Bytes) (escOut : Bool)
  | malformed
  deriving DecidableEq, Repr

/-- `RxResult` (R15). -/
inductive RxResult where
  | frameComplete
  | noFrame
  deriving DecidableEq, Repr

/-- `RegResult` (R15). -/
inductive RegResult where
  | success
  | alreadyRegistered
  | invalidId
  deriving DecidableEq, Repr

/-- `SendResult` (R15). -/
inductive SendResult where
  | accepted
  | rejected
  deriving DecidableEq, Repr

/-- What the decoder does on one wire byte (the last column of the tables of R61 and R62). -/
inductive WireAction where
  | boundary                -- no output byte; the boundary scanner sees a frame end
  | enterEscape             -- no output byte; enter the escape state
  | output (b : Byte)       -- output b
  | unescape (b : Byte)     -- output b; leave the escape state
  | malformed               -- the decode fails
  deriving DecidableEq, Repr

end Sys2Proof
end

