-- ==== Sys2Proof/WellFormed.lean ====
section
/-! DEFINITION. Which instructions the tables allow: a catch-all class does not hold the exact-match values of its format
(`30_encoding.md` R61, R62, R63, R75), and a frame has the lengths of R65. -/

namespace Sys2Proof

/-- The check, under a configuration: its marker values and its largest frame. -/
def Instr.wf (c : Config) : Instr → Bool
  | .wireLiteral b => b != c.endByte && b != c.escByte
  | .wireMalformed b => b != c.escEndByte && b != c.escEscByte
  | .stuffOther d => d != c.endByte && d != c.escByte
  | .decodedFrame _ payload _ => decide (payload.length + 2 ≤ c.frameMax)
  | .encodedFrame f => decide (2 ≤ f.length) && decide (f.length ≤ c.frameMax)
  | .wireEnd | .wireEsc | .wireEscEnd | .wireEscEsc | .stuffEnd | .stuffEsc => true
  | .engineInit | .engineShutdown | .muxRegister _ _ | .muxUnregister _ | .txSend _ _ | .taskCycle => true
  | .reserved6 | .reserved7 => true
  | .slipEnc _ _ _ | .slipSfe _ | .slipDec _ _ | .ck8Compute _ | .ck8Verify _ => true
  | .rxStep | .muxDispatch | .txDrain => true

end Sys2Proof
end

