-- ==== Sys2Proof/Machine/Slip.lean ====
section
/-! DEFINITION. The SLIP codec as pure functions (`40_slip_codec.md`): byte classes (`30_encoding.md` R61, R62, R63), the encoder
(R82), the boundary search (R84) and the decoder (R86), each under the marker values of a configuration (`00_scope.md` R10). -/

namespace Sys2Proof.Machine

/-- The class of a wire byte outside the escape state and what the decoder does on it (R61, tested in the table's order). -/
def normalAction (c : Config) (b : Byte) : WireAction :=
  if b = c.endByte then .boundary
  else if b = c.escByte then .enterEscape
  else .output b

/-- The class of a wire byte in the escape state and what the decoder does on it (R62). -/
def escapedAction (c : Config) (b : Byte) : WireAction :=
  if b = c.escEndByte then .unescape c.endByte
  else if b = c.escEscByte then .unescape c.escByte
  else .malformed

/-- The only state that changes how a wire byte is read is the escape state (R68). -/
def wireAction (c : Config) (esc : Bool) (b : Byte) : WireAction :=
  if esc then escapedAction c b else normalAction c b

/-- `STUFF(d)` (R63, R80). -/
def stuff (c : Config) (d : Byte) : Bytes :=
  if d = c.endByte then [c.escByte, c.escEndByte]
  else if d = c.escByte then [c.escByte, c.escEscByte]
  else [d]

/-- One END byte or nothing: the two optional markers of R82. -/
def marker (c : Config) (present : Bool) : Bytes := if present then [c.endByte] else []

/-- SLIP.ENC (R82). -/
def slipEnc (c : Config) (src : Bytes) (prependStart appendEnd : Bool) : Bytes :=
  marker c prependStart ++ src.flatMap (stuff c) ++ marker c appendEnd

/-- SLIP.SFE (R84): the least index that holds END; the scan keeps no escape state (D6). -/
def slipSfe (c : Config) : Bytes → SfeResult
  | [] => .notFound
  | b :: rest =>
    if b = c.endByte then .found 0
    else match slipSfe c rest with
      | .found i => .found (i + 1)
      | .notFound => .notFound

/-- One iteration of the loop of SLIP.DEC (R86) on its two variables; a decode that has failed stays failed. -/
def decStep (c : Config) (r : DecResult) (b : Byte) : DecResult :=
  match r with
  | .malformed => .malformed
  | .ok out esc =>
    match wireAction c esc b with
    | .boundary => .ok out esc
    | .enterEscape => .ok out true
    | .output d => .ok (out ++ [d]) esc
    | .unescape d => .ok (out ++ [d]) false
    | .malformed => .malformed

/-- SLIP.DEC (R86). -/
def slipDec (c : Config) (escIn : Bool) (src : Bytes) : DecResult := src.foldl (decStep c) (.ok [] escIn)

end Sys2Proof.Machine
end

