-- ==== Sys2Proof/Decode.lean ====
section
/-! DEFINITION. The decoder, from the packet of bytes of one request in one of the six formats to an instruction or a
refusal by name, and after it the encoder. The byte classes and frame formats are those of `30_encoding.md` R61 to R65 and the
select codes those of R71; how a request carries its operands is the model's own (log entry 11). -/

namespace Sys2Proof

open Sys2Proof.Machine (slipEnc slipDec slipSfe)

/-- Why a packet is no instruction of its format. -/
inductive DecodeError where
  | empty                    -- no byte at all
  | notOneByte               -- a wire byte or data byte is one byte
  | badSelect (c : Byte)     -- a select code is a 4-bit number (R71)
  | truncated                -- an operand is missing
  | trailing                 -- bytes after the last operand
  | badFlag (b : Byte)       -- a flag byte with a bit the operand does not have
  | frameTooShort            -- fewer than 2 decoded bytes (R65, R66)
  | frameTooLong             -- more decoded bytes than either direction allows (R65: 130)
  | noStartMarker            -- R64
  | noEndMarker              -- R64
  | innerMarker              -- an END inside the body (R63: the stuffed form never holds one)
  | malformedPair            -- R62
  | openEscape               -- the body ends inside an escape pair (R63)
  deriving DecidableEq, Repr

/-- WIRE_NORMAL (R61). -/
def decodeWireNormal (c : Config) (b : Byte) : Instr :=
  if b = c.endByte then .wireEnd else if b = c.escByte then .wireEsc else .wireLiteral b

/-- WIRE_ESCAPED (R62). -/
def decodeWireEscaped (c : Config) (b : Byte) : Instr :=
  if b = c.escEndByte then .wireEscEnd else if b = c.escEscByte then .wireEscEsc else .wireMalformed b

/-- STUFF (R63). -/
def decodeStuff (c : Config) (d : Byte) : Instr :=
  if d = c.endByte then .stuffEnd else if d = c.escByte then .stuffEsc else .stuffOther d

/-- A format of single bytes. -/
def decodeOneByte (row : Byte → Instr) : Bytes → Except DecodeError Instr
  | [] => .error .empty
  | [b] => .ok (row b)
  | _ :: _ :: _ => .error .notOneByte

/-- DECODED_FRAME (R65): identifier, payload, checksum, taken by index (R66). -/
def decodeDecodedFrame (c : Config) : Bytes → Except DecodeError Instr
  | [] => .error .empty
  | id :: rest =>
    match rest.getLast? with
    | none => .error .frameTooShort
    | some checksum =>
      if rest.length + 1 ≤ c.frameMax then .ok (.decodedFrame id rest.dropLast checksum) else .error .frameTooLong

/-- ENCODED_FRAME (R64): start marker, stuffed body, end marker. -/
def decodeEncodedFrame (c : Config) : Bytes → Except DecodeError Instr
  | [] => .error .empty
  | b :: rest =>
    if b = c.endByte then
      match slipSfe c rest with
      | .notFound => .error .noEndMarker
      | .found e =>
        if e + 1 = rest.length then
          match slipDec c false (rest.take e) with
          | .malformed => .error .malformedPair
          | .ok _ true => .error .openEscape
          | .ok f false =>
            if f.length < 2 then .error .frameTooShort
            else if c.frameMax < f.length then .error .frameTooLong
            else .ok (.encodedFrame f)
        else .error .innerMarker
    else .error .noStartMarker

/-- A request with no operands. -/
def noOperands (i : Instr) : Bytes → Except DecodeError Instr
  | [] => .ok i
  | _ :: _ => .error .trailing

/-- A request whose first operand is one byte and which gives a meaning to what follows it. -/
def byteOperand (k : Byte → Bytes → Except DecodeError Instr) : Bytes → Except DecodeError Instr
  | [] => .error .truncated
  | b :: rest => k b rest

/-- The two marker bits of SLIP.ENC (R82): bit 0 is prependStart, bit 1 appendEnd. -/
def encFlags (k : Bool → Bool → Instr) (b : Byte) : Except DecodeError Instr :=
  if b = 0#8 then .ok (k false false)
  else if b = 1#8 then .ok (k true false)
  else if b = 2#8 then .ok (k false true)
  else if b = 3#8 then .ok (k true true)
  else .error (.badFlag b)

/-- The bit esc_in of SLIP.DEC (R86). -/
def escFlag (k : Bool → Instr) (b : Byte) : Except DecodeError Instr :=
  if b = 0#8 then .ok (k false) else if b = 1#8 then .ok (k true) else .error (.badFlag b)

/-- The operands that follow select code `c` (R71). -/
def decodeOperands (c : Byte) (rest : Bytes) : Except DecodeError Instr :=
  match c.toNat with
  | 0x0 => noOperands .engineInit rest
  | 0x1 => noOperands .engineShutdown rest
  | 0x2 => byteOperand (fun id r => .ok (.muxRegister id ⟨r⟩)) rest
  | 0x3 => byteOperand (fun id r => noOperands (.muxUnregister id) r) rest
  | 0x4 => byteOperand (fun id r => .ok (.txSend id r)) rest
  | 0x5 => noOperands .taskCycle rest
  | 0x6 => noOperands .reserved6 rest
  | 0x7 => noOperands .reserved7 rest
  | 0x8 => byteOperand (fun b r => encFlags (.slipEnc r) b) rest
  | 0x9 => .ok (.slipSfe rest)
  | 0xA => byteOperand (fun b r => escFlag (fun e => .slipDec e r) b) rest
  | 0xB => .ok (.ck8Compute rest)
  | 0xC => .ok (.ck8Verify rest)
  | 0xD => noOperands .rxStep rest
  | 0xE => noOperands .muxDispatch rest
  | 0xF => noOperands .txDrain rest
  | _ => .error (.badSelect c)

/-- OP (R71): the select code, then the operands. -/
def decodeOp : Bytes → Except DecodeError Instr
  | [] => .error .empty
  | c :: rest => decodeOperands c rest

/-- The decoder: total on every byte string of every format, under the marker values and sizes of a configuration. -/
def decode (c : Config) : Format → Bytes → Except DecodeError Instr
  | .wireNormal => decodeOneByte (decodeWireNormal c)
  | .wireEscaped => decodeOneByte (decodeWireEscaped c)
  | .stuff => decodeOneByte (decodeStuff c)
  | .decodedFrame => decodeDecodedFrame c
  | .encodedFrame => decodeEncodedFrame c
  | .op => decodeOp

/-- The flag byte of SLIP.ENC. -/
def encFlagByte (prependStart appendEnd : Bool) : Byte :=
  (if prependStart then 1#8 else 0#8) + (if appendEnd then 2#8 else 0#8)

/-- The encoder: the bytes of an instruction in its own format. -/
def encode (c : Config) : Instr → Bytes
  | .wireEnd => [c.endByte]
  | .wireEsc => [c.escByte]
  | .wireLiteral b => [b]
  | .wireEscEnd => [c.escEndByte]
  | .wireEscEsc => [c.escEscByte]
  | .wireMalformed b => [b]
  | .stuffEnd => [c.endByte]
  | .stuffEsc => [c.escByte]
  | .stuffOther d => [d]
  | .decodedFrame id payload checksum => id :: (payload ++ [checksum])
  | .encodedFrame f => slipEnc c f true true
  | .engineInit => [0x00#8]
  | .engineShutdown => [0x01#8]
  | .muxRegister id h => 0x02#8 :: id :: h.token
  | .muxUnregister id => [0x03#8, id]
  | .txSend id payload => 0x04#8 :: id :: payload
  | .taskCycle => [0x05#8]
  | .reserved6 => [0x06#8]
  | .reserved7 => [0x07#8]
  | .slipEnc src p a => 0x08#8 :: encFlagByte p a :: src
  | .slipSfe buf => 0x09#8 :: buf
  | .slipDec e src => 0x0A#8 :: (if e then 1#8 else 0#8) :: src
  | .ck8Compute data => 0x0B#8 :: data
  | .ck8Verify f => 0x0C#8 :: f
  | .rxStep => [0x0D#8]
  | .muxDispatch => [0x0E#8]
  | .txDrain => [0x0F#8]

/-- The bytes of a table word, bit 0 the least significant bit of the first byte. -/
def tableBytes (nbits w : Nat) : Bytes :=
  (List.range ((nbits + 7) / 8)).map fun k => BitVec.ofNat 8 (w / 2 ^ (8 * k))

/-- The format in which a bare table word is read: the exact-match rows before the catch-all rows (R75, field `priority`), in
the table's order; a word that two formats have as an exact row is read in the first. DESIGN CHOICE (log entry 12). -/
def tableFormat : Bytes → Format
  | [] => .op
  | b :: _ =>
    if b = 0xC0#8 then .wireNormal
    else if b = 0xDB#8 then .wireNormal
    else if b = 0xDC#8 then .wireEscaped
    else if b = 0xDD#8 then .wireEscaped
    else if b.toNat < 16 then .op
    else .wireNormal

/-- How many operand bytes the shortest request of a select code has. -/
def operandBytes (c : Byte) : Nat :=
  match c.toNat with
  | 0x2 | 0x3 | 0x4 | 0x8 | 0xA => 1
  | _ => 0

/-- A table word as a packet: its bytes, and operand bytes of zeros up to the shortest request. -/
def tablePacket (nbits w : Nat) : Bytes :=
  match tableBytes nbits w with
  | [] => []
  | c :: rest =>
    match tableFormat [c] with
    | .op => c :: (rest ++ List.replicate (operandBytes c - rest.length) 0)
    | _ => c :: rest

/-- The instruction the decoder reads from a table word; the table is written for the marker values of R10. -/
def decodeTableWord (nbits w : Nat) : Option Instr :=
  (decode {} (tableFormat (tablePacket nbits w)) (tablePacket nbits w)).toOption

end Sys2Proof
end

