-- ==== Sys2Proof/Machine/State.lean ====
section
/-! DEFINITION. The state: the configuration, the engine state E of `10_state.md` R20, what the surroundings will do (the
free inputs of `10_state.md` R32, held as lists), and the model's own observation fields. Plain data throughout. -/

namespace Sys2Proof.Machine

/-- One byte space of the block: (index, byte) pairs, indices strictly rising, no byte equal to what an unlisted index
reads as (`20_memory.md` R40; log entry 2). -/
abbrev Memory := List Host.Cell

/-- The sequencer phases (`10_state.md` R27). -/
inductive Phase where
  | idle | rx | verify | dispatch | handler | drain | clean
  deriving DecidableEq, Repr

/-- The engine state E (`10_state.md` R20 to R27). Positions, lengths and cursors are natural numbers (`00_scope.md` R12). -/
@[ext]
structure Engine where
  rxChunk    : Memory                 -- E.rx_chunk, space RXCHUNK (R22)
  rxChunkLen : Nat                    -- E.rx_chunk_len
  rxChunkPos : Nat                    -- E.rx_chunk_pos
  rxBuf      : Memory                 -- E.rx_buf, space RXFRAME (R23)
  rxLen      : Nat                    -- E.rx_len
  rxEsc      : Bool                   -- E.rx_esc (R24)
  reg        : List (Nat × Handler)   -- E.reg: the occupied slots, identifiers strictly rising (R25; log entry 3)
  txBuf      : Memory                 -- E.tx_buf, space TXFRAME (R26)
  txLen      : Nat                    -- E.tx_len
  txCur      : Nat                    -- E.tx_cur
  phase      : Phase                  -- E.phase (R27)
  deriving DecidableEq, Repr

/-- How a request packet reaches the block, which with the escape state fixes the format it is read in (R68). -/
inductive Port where
  | op | wire | stuff | decodedFrame | encodedFrame
  deriving DecidableEq, Repr

/-- A request yet to be taken (R6; log entry 11). -/
structure Request where
  port  : Port
  bytes : Bytes
  deriving DecidableEq, Repr

/-- An answer of `TransportWrite` (R47). -/
inductive WriteAnswer where
  | accepted (w : Nat)
  | error
  deriving DecidableEq, Repr

/-- The command-interface requests a handler must not make during its invocation (R135, `93_implementation_defined.md` U8). -/
inductive BarredRequest where
  | engineInit | engineShutdown | muxRegister | muxUnregister | taskCycle
  deriving DecidableEq, Repr

/-- What one handler invocation does (R134, R135): a finite tree of moves, each TX.SEND followed by what the handler does on
either answer. -/
inductive Behaviour where
  | done                                                                       -- returns
  | send (id : Byte) (payload : Bytes) (onAccepted onRejected : Behaviour)     -- TX.SEND
  | barred (r : BarredRequest)                                                 -- makes a request it must not make (U8)
  | hang                                                                       -- never returns (R227, U9)
  deriving DecidableEq, Repr

/-- The surroundings: the free inputs yet to come, and OUTBOUND (R32; log entries 6, 8, 14). -/
@[ext]
structure World where
  requests   : List Request       -- the owner's requests, first one first
  reads      : List Bytes         -- the answers of `TransportRead`, that is INBOUND as the transport will cut it
  writes     : List WriteAnswer   -- the answers of `TransportWrite`
  behaviours : List Behaviour     -- what each handler invocation will do
  outbound   : Bytes              -- OUTBOUND: every byte the transport took (R49)
  deriving DecidableEq, Repr

/-- The loop variables of SLIP.DEC and SLIP.ENC, run one table row at a time (log entry 9). -/
@[ext]
structure Codec where
  esc     : Bool    -- `esc` of R86
  out     : Bytes   -- `out` of R86
  stuffed : Bytes   -- `out` of R82
  deriving DecidableEq, Repr

/-- The response of an operation (R15; `10_state.md` R28: returned, not stored by the block; log entry 10). -/
inductive Response where
  | none
  | bytes (b : Bytes)
  | sfe (r : SfeResult)
  | dec (r : DecResult)
  | byte (b : Byte)
  | bit (b : Bool)
  | reg (r : RegResult)
  | send (r : SendResult)
  | rx (r : RxResult)
  | wire (a : WireAction)
  | frame (id : Byte) (payload : Bytes) (checksum : Byte) (pass : Bool)
  deriving DecidableEq, Repr

/-- The outcome events of `60_exceptions.md` R191, labels only, and the trace's CALL (`30_encoding.md` R73). -/
inductive Event where
  | noData | incomplete | txPartial | txStall | malformed | oversize | badSum | noRoute | txBusy | txLen | txCap
  | call (h : Handler) (payload : Bytes)
  deriving DecidableEq, Repr

/-- The machine's state. -/
@[ext]
structure State where
  cfg      : Config
  e        : Engine
  world    : World
  codec    : Codec
  response : Response
  events   : List Event
  deriving DecidableEq, Repr

/-- Why the machine stops. The block itself has no faulted state (R193); both are safe. -/
inductive Fault where
  /-- RX.STEP, MUX.DISPATCH, TX.DRAIN, TASK.CYCLE: a read beyond a buffer's capacity, which the spec says does not happen
  (`20_memory.md` R41). Safe; no state that meets the invariant of Safety.lean reaches it. -/
  | outOfBounds
  /-- MUX.DISPATCH, TASK.CYCLE: the handler never returns, the cycle never completes (R227, U9: stuck). Safe. -/
  | handlerNeverReturns
  deriving DecidableEq, Repr

/-- Why the model gives a step no meaning. All are safe: a claim about a run that needs one says nothing. -/
inductive Refusal where
  /-- exec: the instruction has no meaning yet. Safe. -/
  | notModelled (mnemonic : String)
  /-- step: the request is no instruction of its format. Safe. -/
  | undecodable (e : DecodeError)
  /-- RESERVED_6, RESERVED_7: "a model refuses" (R71, U11). Safe. -/
  | reservedCode
  /-- A handler's request other than TX.SEND, and a command other than TX.SEND in phase HANDLER (R9, R135, U8). Safe. -/
  | requestInHandler
  /-- A command-interface request in a phase that gives it no meaning (R8, R27, U7). Safe. -/
  | requestInsideOperation
  /-- RX.STEP, MUX.DISPATCH, TX.DRAIN outside their place in TASK.CYCLE (R5, R71). Safe. -/
  | onlyInsideTaskCycle
  /-- MUX.DISPATCH with fewer than 2 bytes in RXFRAME, which is no verified frame (R133). Safe. -/
  | noVerifiedFrame
  /-- RX.STEP, TASK.CYCLE: `TransportRead` answered more bytes than asked for (R46, U4). Safe. -/
  | readTooLong
  /-- TX.DRAIN, TASK.CYCLE: `TransportWrite` answered a count above what was offered (R47, U5). Safe. -/
  | writeTooLong
  deriving DecidableEq, Repr

/-- What an operation answers. -/
abbrev Result := Host.Outcome State Fault Refusal

/-- The engine state after ENGINE.INIT (`10_state.md` R30), the buffers with nothing listed. -/
def Engine.initial : Engine :=
  { rxChunk := [], rxChunkLen := 0, rxChunkPos := 0, rxBuf := [], rxLen := 0, rxEsc := false, reg := [],
    txBuf := [], txLen := 0, txCur := 0, phase := .idle }

/-- Surroundings that do nothing. -/
def World.quiet : World := { requests := [], reads := [], writes := [], behaviours := [], outbound := [] }

/-- The state right after reset of an engine with configuration `c`. -/
def State.initial (c : Config) : State :=
  { cfg := c, e := .initial, world := .quiet, codec := { esc := false, out := [], stuffed := [] }, response := .none,
    events := [] }

/-- The state right after reset, which for this block is the state after ENGINE.INIT (R220, U10; log entry 1). -/
def State.reset : State := State.initial {}

end Sys2Proof.Machine
end

