-- ==== Sys2Proof/Machine/Ops.lean ====
section
/-! DEFINITION. The named operations over the byte spaces, the registry, the two transport primitives and the phase, and
the entry to and return from a handler, the block's counterpart of taking an exception (`60_exceptions.md` R202, R204). -/

namespace Sys2Proof.Machine

/-! ## The byte spaces -/

/-- What an index that is not listed reads as. DESIGN CHOICE (log entry 2): the spec leaves it unspecified and unobservable. -/
def Memory.unlisted : Byte := 0

/-- One byte of a space. -/
def Memory.read : Memory → Nat → Byte
  | [], _ => Memory.unlisted
  | c :: rest, a => if c.1 = a then c.2 else Memory.read rest a

/-- Insert or replace one entry of a list kept by rising index. -/
def insertAt {α : Type} (a : Nat) (v : α) : List (Nat × α) → List (Nat × α)
  | [] => [(a, v)]
  | c :: rest =>
    if a < c.1 then (a, v) :: c :: rest
    else if a = c.1 then (a, v) :: rest
    else c :: insertAt a v rest

/-- Remove the entry of an index. -/
def removeAt {α : Type} (a : Nat) (m : List (Nat × α)) : List (Nat × α) := m.filter fun c => c.1 != a

/-- Store one byte; a byte equal to what an unlisted index reads as is not listed. -/
def Memory.write (m : Memory) (a : Nat) (b : Byte) : Memory :=
  if b = Memory.unlisted then removeAt a m else insertAt a b m

/-- `MemWrite(S, a, n, v)` (`00_scope.md` R14). Every use stays inside the capacity by the rule's own check (R41). -/
def memWrite (m : Memory) (a : Nat) : Bytes → Memory
  | [] => m
  | b :: rest => memWrite (m.write a b) (a + 1) rest

/-- The `n` bytes of a space from index `a`. -/
def bytesAt (m : Memory) (a : Nat) : Nat → Bytes
  | 0 => []
  | n + 1 => m.read a :: bytesAt m (a + 1) n

/-- `MemRead(S, a, n)` (R14), of a space of capacity `cap`; an index beyond the capacity does not exist (R40). -/
def memRead (m : Memory) (cap a n : Nat) : Option Bytes :=
  if a + n ≤ cap then some (bytesAt m a n) else none

/-- The canonical form of a space. -/
abbrev Memory.wf (m : Memory) : Prop :=
  m.Pairwise (fun c d => c.1 < d.1) ∧ ∀ c ∈ m, c.2 ≠ Memory.unlisted

/-- Nothing is listed at or beyond the capacity. -/
abbrev Memory.within (m : Memory) (cap : Nat) : Prop := ∀ c ∈ m, c.1 < cap

/-! ## The registry (`10_state.md` R25) -/

/-- Slot `id`: the handler it holds, or empty. -/
def slot (reg : List (Nat × Handler)) (id : Nat) : Option Handler :=
  match reg with
  | [] => none
  | c :: rest => if c.1 = id then some c.2 else slot rest id

/-- The canonical form of the registry. -/
abbrev regWf (reg : List (Nat × Handler)) : Prop := reg.Pairwise fun c d => c.1 < d.1

/-! ## Updates of the state -/

/-- `phase <- p`. -/
def State.withPhase (s : State) (p : Phase) : State := { s with e := { s.e with phase := p } }

/-- `raise ev`: a label, which changes nothing of the engine (R191). -/
def State.raise (s : State) (ev : Event) : State := { s with events := s.events ++ [ev] }

/-- `return r`: the response the caller sees. -/
def State.respond (s : State) (r : Response) : State := { s with response := r }

/-- Store a chunk in RXCHUNK (R101 step 1). -/
def State.storeChunk (s : State) (c : Bytes) : State :=
  { s with e := { s.e with rxChunk := memWrite s.e.rxChunk 0 c, rxChunkLen := c.length, rxChunkPos := 0 } }

/-- `E.rx_chunk_pos <- p`. -/
def State.withPos (s : State) (p : Nat) : State := { s with e := { s.e with rxChunkPos := p } }

/-- Append decoded bytes to RXFRAME and store the escape state (R101 step 4). -/
def State.appendFrame (s : State) (out : Bytes) (esc : Bool) : State :=
  { s with e := { s.e with rxBuf := memWrite s.e.rxBuf s.e.rxLen out, rxLen := s.e.rxLen + out.length, rxEsc := esc } }

/-- Discard the frame being assembled (R107, R108). -/
def State.discardFrame (s : State) : State := { s with e := { s.e with rxLen := 0, rxEsc := false } }

/-- The end-of-cycle reset of the receive frame buffer (R172): its length alone. -/
def State.clearFrame (s : State) : State := { s with e := { s.e with rxLen := 0 } }

/-- Store an encoded frame in TXFRAME (R151). -/
def State.storeFrame (s : State) (enc : Bytes) : State :=
  { s with e := { s.e with txBuf := memWrite s.e.txBuf 0 enc, txLen := enc.length, txCur := 0 } }

/-- Advance the drain cursor by `w` and, when it reaches the length, zero both (R152, D26). -/
def State.advanceCursor (s : State) (w : Nat) : State :=
  { s with
    e := if s.e.txCur + w = s.e.txLen then { s.e with txLen := 0, txCur := 0 } else { s.e with txCur := s.e.txCur + w } }

/-- The effect of ENGINE.INIT and ENGINE.SHUTDOWN on E (R173, R174). Buffer contents stay as they are (R30: unspecified). -/
def State.restart (s : State) : State :=
  { s with e := { s.e with rxChunkLen := 0, rxChunkPos := 0, rxLen := 0, rxEsc := false, reg := [], txLen := 0, txCur := 0,
                           phase := .idle } }

/-! ## The transport primitives -/

/-- The answer the next `TransportRead` gets (R46). DESIGN CHOICE (log entry 6): with no answer listed, no data. -/
def State.nextRead (s : State) : Bytes := s.world.reads.headD []

/-- The answer is used up: its bytes are removed from INBOUND for good (R44). -/
def State.dropRead (s : State) : State := { s with world := { s.world with reads := s.world.reads.tail } }

/-- The answer the next `TransportWrite` gets (R47). DESIGN CHOICE (log entry 6): with no answer listed, no byte is taken. -/
def State.nextWrite (s : State) : WriteAnswer := s.world.writes.headD (.accepted 0)

/-- The answer is used up. -/
def State.dropWrite (s : State) : State := { s with world := { s.world with writes := s.world.writes.tail } }

/-- The transport took bytes: they are appended to OUTBOUND (R47, R49). -/
def State.emit (s : State) (taken : Bytes) : State :=
  { s with world := { s.world with outbound := s.world.outbound ++ taken } }

/-! ## Handler entry and return -/

/-- What the next handler invocation does. DESIGN CHOICE (log entry 8): with no behaviour listed, it returns at once. -/
def State.nextBehaviour (s : State) : Behaviour := s.world.behaviours.headD .done

/-- Entry (R202): phase HANDLER, the handler gets the payload; nothing else of E changes. -/
def State.enterHandler (s : State) (h : Handler) (payload : Bytes) : State :=
  { s with
    e := { s.e with phase := .handler }
    world := { s.world with behaviours := s.world.behaviours.tail }
    events := s.events ++ [.call h payload] }

/-- Return (R204): nothing to restore but the phase. -/
def State.returnFromHandler (s : State) : State := s.withPhase .dispatch

/-! ## Where a request has a meaning -/

/-- A command-interface request other than TX.SEND: in phase IDLE only (`10_state.md` R27). -/
def whenIdle (s : State) (k : Result) : Result :=
  match s.e.phase with
  | .idle => k
  | .handler => .refused .requestInHandler
  | .rx | .verify | .dispatch | .drain | .clean => .refused .requestInsideOperation

/-- TX.SEND: in phase IDLE by the owner, in phase HANDLER by the handler (R9, R151). -/
def whenIdleOrHandler (s : State) (k : Result) : Result :=
  match s.e.phase with
  | .idle | .handler => k
  | .rx | .verify | .dispatch | .drain | .clean => .refused .requestInsideOperation

/-- RX.STEP, MUX.DISPATCH, TX.DRAIN: only in their own phase of TASK.CYCLE (R5). -/
def whenPhase (p : Phase) (s : State) (k : Result) : Result :=
  if s.e.phase = p then k else .refused .onlyInsideTaskCycle

/-- Go on from a next state; a fault or a refusal ends the operation. -/
def andThen (r : Result) (k : State → Result) : Result :=
  match r with
  | .next s => k s
  | .fault f => .fault f
  | .refused e => .refused e

end Sys2Proof.Machine
end

