-- ==== Sys2Proof/Machine/Operands.lean ====
section
/-! DEFINITION. Operand forms: the fields of a decoded frame (`30_encoding.md` R65, R66), and the numeric forms of results and
events (R72, `60_exceptions.md` R191). -/

namespace Sys2Proof.Machine

/-- The three fields of a decoded frame of length L ≥ 2, taken by index: `f[0]`, `f[1 .. L-1)`, `f[L-1]` (R66). -/
def frameFields : Bytes → Option (Byte × Bytes × Byte)
  | [] => none
  | id :: rest =>
    match rest.getLast? with
    | none => none
    | some checksum => some (id, rest.dropLast, checksum)

/-- Numeric forms of `RxResult`, `RegResult`, `SendResult` (R72). -/
def rxCode : RxResult → Nat
  | .noFrame => 0
  | .frameComplete => 1

/-- See `rxCode`. -/
def regCode : RegResult → Nat
  | .success => 0
  | .alreadyRegistered => 1
  | .invalidId => 2

/-- See `rxCode`. -/
def sendCode : SendResult → Nat
  | .rejected => 0
  | .accepted => 1

/-- `SfeResult` as a bit and an offset that means something only when the bit is 1 (R72). -/
def sfeCode : SfeResult → Bool × Option Nat
  | .found i => (true, some i)
  | .notFound => (false, none)

/-- `DecResult` as a bit and, when it is 1, output, `decodedLen` and `esc_out` (R72). -/
def decCode : DecResult → Bool × Option (Bytes × Nat × Bool)
  | .ok out esc => (true, some (out, out.length, esc))
  | .malformed => (false, none)

/-- Codes of the outcome events (R191); CALL is no outcome event and has none. -/
def eventCode : Event → Option Nat
  | .noData => some 1
  | .incomplete => some 2
  | .txPartial => some 3
  | .txStall => some 4
  | .malformed => some 5
  | .oversize => some 6
  | .badSum => some 7
  | .noRoute => some 8
  | .txBusy => some 9
  | .txLen => some 10
  | .txCap => some 11
  | .call _ _ => none

end Sys2Proof.Machine
end

