-- ==== Sys2Proof/Machine/Flags.lean ====
section
/-! DEFINITION. The conditions the rules test, each a Bool: the checksum and its verification (`42_integrity.md`), the
transmit path in flight (`10_state.md` R26), a chunk remainder (R22), the start of a frame (`41_rx_reassembler.md` R103). -/

namespace Sys2Proof.Machine

/-- `CK8_SUM` (R123): the sum of the bytes modulo 256. -/
def ck8Sum : Bytes → Byte
  | [] => 0
  | b :: rest => b + ck8Sum rest

/-- `CK8` (R11 item 2, R121): the function the configuration names. -/
def ck8 (c : Config) (data : Bytes) : Byte :=
  match c.ck8 with
  | .sum => ck8Sum data
  | .other n => Config.freeCk8 n data

/-- CK8.VERIFY (R122): fewer than 2 bytes fail; otherwise the last byte is CK8 of the rest. -/
def ck8Verify (c : Config) (f : Bytes) : Bool :=
  match f.getLast? with
  | none => false
  | some checksum => decide (2 ≤ f.length) && ck8 c f.dropLast == checksum

/-- A frame is in flight: `E.tx_cur < E.tx_len` (R26). -/
def inFlight (e : Engine) : Bool := decide (e.txCur < e.txLen)

/-- No unconsumed chunk remains (R22). -/
def chunkConsumed (e : Engine) : Bool := decide (e.rxChunkPos = e.rxChunkLen)

/-- The frame has not started: nothing accumulated and no escape pending (R103). -/
def atFrameStart (e : Engine) : Bool := decide (e.rxLen = 0) && !e.rxEsc

/-- The decoded frame of an identifier and a payload (R65). -/
def decodedFrameOf (c : Config) (id : Byte) (payload : Bytes) : Bytes :=
  id :: payload ++ [ck8 c (id :: payload)]

/-- The encoded frame of an identifier and a payload (R64); the shorthand `FRAME(id, [payload])` of R74. -/
def encodedFrameOf (c : Config) (id : Byte) (payload : Bytes) : Bytes :=
  slipEnc c (decodedFrameOf c id payload) true true

end Sys2Proof.Machine
end

