-- ==== Sys2Proof/Machine/Wire.lean ====
section
/-! DEFINITION. The rows of the wire byte tables and of the two frame formats (`30_encoding.md` R61 to R65), run on the loop
variables of the decoder and of the encoder (log entry 9). -/

namespace Sys2Proof.Machine

/-- What the decoder does on one wire byte: its loop variables, and the action as the response. On a malformed pair the decode
fails and the decoder stands as at the start of a frame (R62, R69, R115). -/
def wireApply (s : State) (a : WireAction) : State :=
  match a with
  | .boundary => s.respond (.wire .boundary)
  | .enterEscape => { s with codec := { s.codec with esc := true }, response := .wire .enterEscape }
  | .output b => { s with codec := { s.codec with out := s.codec.out ++ [b] }, response := .wire (.output b) }
  | .unescape b =>
    { s with codec := { s.codec with out := s.codec.out ++ [b], esc := false }, response := .wire (.unescape b) }
  | .malformed => { s with codec := { s.codec with out := [], esc := false }, response := .wire .malformed }

/-- A row of WIRE_NORMAL has its action outside the escape state; in it the byte is of a class of WIRE_ESCAPED. -/
def normalRow (s : State) (b : Byte) (a : WireAction) : Result :=
  .next (wireApply s (if s.codec.esc then escapedAction s.cfg b else a))

/-- A row of WIRE_ESCAPED has its action in the escape state; outside it the byte is of a class of WIRE_NORMAL. -/
def escapedRow (s : State) (b : Byte) (a : WireAction) : Result :=
  .next (wireApply s (if s.codec.esc then a else normalAction s.cfg b))

/-- END (R61). -/
def execWireEnd (s : State) : Result := normalRow s s.cfg.endByte .boundary

/-- ESC (R61). -/
def execWireEsc (s : State) : Result := normalRow s s.cfg.escByte .enterEscape

/-- LITERAL (R61). -/
def execWireLiteral (b : Byte) (s : State) : Result := normalRow s b (.output b)

/-- ESC_END (R62). -/
def execWireEscEnd (s : State) : Result := escapedRow s s.cfg.escEndByte (.unescape s.cfg.endByte)

/-- ESC_ESC (R62). -/
def execWireEscEsc (s : State) : Result := escapedRow s s.cfg.escEscByte (.unescape s.cfg.escByte)

/-- MALFORMED (R62). -/
def execWireMalformed (b : Byte) (s : State) : Result := escapedRow s b .malformed

/-- The encoder emits the wire bytes of one data byte (R63). -/
def emitStuffed (s : State) (wire : Bytes) : Result :=
  .next { s with codec := { s.codec with stuffed := s.codec.stuffed ++ wire }, response := .bytes wire }

/-- STUFF_END (R63). -/
def execStuffEnd (s : State) : Result := emitStuffed s [s.cfg.escByte, s.cfg.escEndByte]

/-- STUFF_ESC (R63). -/
def execStuffEsc (s : State) : Result := emitStuffed s [s.cfg.escByte, s.cfg.escEscByte]

/-- STUFF_OTHER (R63). -/
def execStuffOther (d : Byte) (s : State) : Result := emitStuffed s [d]

/-- DECODED_FRAME (R65, R66): its fields, and whether the checksum byte is CK8 of the rest. -/
def execDecodedFrame (id : Byte) (payload : Bytes) (checksum : Byte) (s : State) : Result :=
  .next (s.respond (.frame id payload checksum (ck8Verify s.cfg (id :: payload ++ [checksum]))))

/-- ENCODED_FRAME (R64): the wire bytes of the decoded frame `f`. -/
def execEncodedFrame (f : Bytes) (s : State) : Result :=
  .next (s.respond (.bytes (marker s.cfg true ++ f.flatMap (stuff s.cfg) ++ marker s.cfg true)))

end Sys2Proof.Machine
end

