-- ==== Sys2Proof/Machine/Codec.lean ====
section
/-! DEFINITION. The five pure operations of the codec interface: they read their operands, answer, and touch no engine
state (`00_scope.md` R5; `40_slip_codec.md`, `42_integrity.md`). Any agent may evaluate them in any phase (log entry 13). -/

namespace Sys2Proof.Machine

/-- SLIP.ENC (R82). -/
def execSlipEnc (src : Bytes) (prependStart appendEnd : Bool) (s : State) : Result :=
  .next (s.respond (.bytes (slipEnc s.cfg src prependStart appendEnd)))

/-- SLIP.SFE (R84). -/
def execSlipSfe (buf : Bytes) (s : State) : Result := .next (s.respond (.sfe (slipSfe s.cfg buf)))

/-- SLIP.DEC (R86). -/
def execSlipDec (escIn : Bool) (src : Bytes) (s : State) : Result := .next (s.respond (.dec (slipDec s.cfg escIn src)))

/-- CK8.COMPUTE (R121). -/
def execCk8Compute (data : Bytes) (s : State) : Result := .next (s.respond (.byte (ck8 s.cfg data)))

/-- CK8.VERIFY (R122). -/
def execCk8Verify (f : Bytes) (s : State) : Result := .next (s.respond (.bit (ck8Verify s.cfg f)))

end Sys2Proof.Machine
end

