-- ==== Sys2Proof/Machine/Transmit.lean ====
section
/-! DEFINITION. The transmit path: TX.SEND (`44_transmit.md` R151) and TX.DRAIN (R152). -/

namespace Sys2Proof.Machine

/-- A rejected send changes nothing of E (R151); the event is a label. -/
def rejectSend (s : State) (ev : Event) : State := (s.raise ev).respond (.send .rejected)

/-- TX.SEND against the current state: busy, then length, then capacity, else store (R151, R201). -/
def txSend (id : Byte) (payload : Bytes) (s : State) : State :=
  if inFlight s.e then rejectSend s .txBusy
  else if s.cfg.txPayloadMax < payload.length then rejectSend s .txLen
  else if s.cfg.txBufCap < (encodedFrameOf s.cfg id payload).length then rejectSend s .txCap
  else (s.storeFrame (encodedFrameOf s.cfg id payload)).respond (.send .accepted)

/-- TX.SEND (R151), by the owner in phase IDLE or by the invoked handler in phase HANDLER. -/
def execTxSend (id : Byte) (payload : Bytes) (s : State) : Result := whenIdleOrHandler s (.next (txSend id payload s))

/-- How many bytes TX.DRAIN offers to the transport (R152). -/
def offerSize (s : State) : Nat := min s.cfg.txChunkMax (s.e.txLen - s.e.txCur)

/-- The transport's answer to `offered` bytes takes effect. -/
def txAnswer (s : State) (offered : Bytes) (a : WriteAnswer) : Result :=
  match a with
  | .error => .next (s.raise .txStall)
  | .accepted w =>
    if offered.length < w then .refused .writeTooLong
    else
      let s := (s.emit (offered.take w)).advanceCursor w
      .next (if w < offered.length then s.raise .txPartial else s)

/-- TX.DRAIN (R152): one bounded write from the cursor forward (R155), if a frame is in flight. -/
def txDrain (s : State) : Result :=
  if inFlight s.e then
    match memRead s.e.txBuf s.cfg.txBufCap s.e.txCur (offerSize s) with
    | none => .fault .outOfBounds
    | some offered => txAnswer s.dropWrite offered s.nextWrite
  else .next s

/-- TX.DRAIN (R152), invoked only by TASK.CYCLE. -/
def execTxDrain (s : State) : Result := whenPhase .drain s (txDrain (s.respond .none))

end Sys2Proof.Machine
end

