-- ==== Sys2Proof/Machine/Mux.lean ====
section
/-! DEFINITION. The protocol multiplexer: MUX.REGISTER (`43_multiplexer.md` R131), MUX.UNREGISTER (R132), MUX.DISPATCH (R133)
and the handler primitive (R134, R135). -/

namespace Sys2Proof.Machine

/-- MUX.REGISTER (R131). -/
def muxRegister (id : Byte) (h : Handler) (s : State) : State :=
  if s.cfg.protoMax < id then s.respond (.reg .invalidId)
  else match slot s.e.reg id.toNat with
    | some _ => s.respond (.reg .alreadyRegistered)
    | none => { s with e := { s.e with reg := insertAt id.toNat h s.e.reg }, response := .reg .success }

/-- MUX.UNREGISTER (R132): clears the slot unconditionally. -/
def muxUnregister (id : Byte) (s : State) : State :=
  if s.cfg.protoMax < id then s.respond .none
  else { s with e := { s.e with reg := removeAt id.toNat s.e.reg }, response := .none }

/-- MUX.REGISTER (R131), in phase IDLE. -/
def execMuxRegister (id : Byte) (h : Handler) (s : State) : Result := whenIdle s (.next (muxRegister id h s))

/-- MUX.UNREGISTER (R132), in phase IDLE. -/
def execMuxUnregister (id : Byte) (s : State) : Result := whenIdle s (.next (muxUnregister id s))

/-- The handler runs (R135): each TX.SEND is executed at once against the state as it stands and answered. -/
def runBehaviour : Behaviour → State → Result
  | .done, s => .next s
  | .send id payload onAccepted onRejected, s =>
    let s := txSend id payload s
    if s.response = .send .accepted then runBehaviour onAccepted s else runBehaviour onRejected s
  | .barred _, _ => .refused .requestInHandler
  | .hang, _ => .fault .handlerNeverReturns

/-- `HandlerInvoke(h, payload, len(payload))` (R134): entry, the handler's run to completion, return. -/
def handlerInvoke (h : Handler) (payload : Bytes) (s : State) : Result :=
  andThen (runBehaviour s.nextBehaviour (s.enterHandler h payload)) fun t => .next t.returnFromHandler

/-- The lookup of MUX.DISPATCH (R133): the range test before the slot test. -/
def route (s : State) (id : Byte) : Option Handler :=
  if s.cfg.protoMax < id then none else slot s.e.reg id.toNat

/-- MUX.DISPATCH (R133) on the accumulated frame. -/
def muxDispatch (s : State) : Result :=
  match memRead s.e.rxBuf s.cfg.rxFrameCap 0 s.e.rxLen with
  | none => .fault .outOfBounds
  | some f =>
    match frameFields f with
    | none => .refused .noVerifiedFrame
    | some (id, payload, _) =>
      match route s id with
      | none => .next (s.raise .noRoute)
      | some h => handlerInvoke h payload s

/-- MUX.DISPATCH (R133), invoked only by TASK.CYCLE; it has no response. -/
def execMuxDispatch (s : State) : Result :=
  whenPhase .dispatch s (andThen (muxDispatch s) fun t => .next (t.respond .none))

end Sys2Proof.Machine
end

