-- ==== Sys2Proof/Machine/Receive.lean ====
section
/-! DEFINITION. The receive reassembler, RX.STEP (`41_rx_reassembler.md` R101). -/

namespace Sys2Proof.Machine

/-- End RX.STEP with NO_FRAME, naming why. -/
def noFrame (s : State) (ev : Event) : State := (s.raise ev).respond (.rx .noFrame)

/-- Step 2 (R103): how many leading END bytes of the remainder are skipped. -/
def skipCount (c : Config) (e : Engine) (remainder : Bytes) : Nat :=
  if atFrameStart e then (remainder.takeWhile (· == c.endByte)).length else 0

/-- Step 3 (R104): the span, up to and including the first END, or all there is. -/
def spanOf (c : Config) (rem : Bytes) : Bytes :=
  match slipSfe c rem with
  | .found i => rem.take (i + 1)
  | .notFound => rem

/-- Steps 5 and 6 (R109, R110): no END in the span, or a frame complete. -/
def rxReport (s : State) (found : SfeResult) : State :=
  match found with
  | .notFound => noFrame s .incomplete
  | .found _ => s.respond (.rx .frameComplete)

/-- Step 4 (R105 to R108) on a span already consumed, then steps 5 and 6. Malformed is tested before oversize (R201). -/
def rxDecode (s : State) (found : SfeResult) (span : Bytes) : State :=
  match slipDec s.cfg s.e.rxEsc span with
  | .malformed => noFrame s.discardFrame .malformed
  | .ok out esc =>
    if s.cfg.rxFrameCap < s.e.rxLen + out.length then noFrame s.discardFrame .oversize
    else rxReport (s.appendFrame out esc) found

/-- Steps 2 to 6, with a chunk in RXCHUNK. -/
def rxWork (s : State) : Result :=
  match memRead s.e.rxChunk s.cfg.rxChunkMax s.e.rxChunkPos (s.e.rxChunkLen - s.e.rxChunkPos) with
  | none => .fault .outOfBounds
  | some remainder =>
    let skip := skipCount s.cfg s.e remainder
    let rem := remainder.drop skip
    let span := spanOf s.cfg rem
    .next (rxDecode (s.withPos (s.e.rxChunkPos + skip + span.length)) (slipSfe s.cfg rem) span)

/-- Step 1 (R102): a chunk if none is pending, then the rest. -/
def rxStep (s : State) : Result :=
  if chunkConsumed s.e then
    let c := s.nextRead
    let s := s.dropRead
    if c = [] then .next (noFrame s .noData)
    else if s.cfg.rxChunkMax < c.length then .refused .readTooLong
    else rxWork (s.storeChunk c)
  else rxWork s

/-- RX.STEP (R101), invoked only by TASK.CYCLE. -/
def execRxStep (s : State) : Result := whenPhase .rx s (rxStep s)

end Sys2Proof.Machine
end

