-- ==== Sys2Proof/Machine/Task.lean ====
section
/-! DEFINITION. The task loop and the system operations: TASK.CYCLE (`45_task_loop.md` R171), ENGINE.INIT (R173),
ENGINE.SHUTDOWN (R174), and the two reserved codes (`30_encoding.md` R71). -/

namespace Sys2Proof.Machine

/-- VERIFY and, on a pass, DISPATCH: the part of TASK.CYCLE after FRAME_COMPLETE (R171). -/
def verifyAndDispatch (s : State) : Result :=
  match memRead s.e.rxBuf s.cfg.rxFrameCap 0 s.e.rxLen with
  | none => .fault .outOfBounds
  | some f =>
    let s := s.withPhase .verify
    if ck8Verify s.cfg f then muxDispatch (s.withPhase .dispatch) else .next (s.raise .badSum)

/-- RX, VERIFY, DISPATCH: everything before the drain. The response tells whether a frame completed. -/
def receiveHalf (s : State) : Result :=
  andThen (rxStep (s.withPhase .rx)) fun t =>
    if t.response = .rx .frameComplete then
      andThen (verifyAndDispatch t) fun u => .next (u.respond (.rx .frameComplete))
    else .next t

/-- DRAIN, CLEAN, IDLE. The frame buffer is cleared exactly when RX.STEP reported FRAME_COMPLETE in this cycle (R172). -/
def transmitHalf (s : State) : Result :=
  andThen (txDrain (s.withPhase .drain)) fun t =>
    let t := if t.response = .rx .frameComplete then t.clearFrame else t
    .next ((t.withPhase .idle).respond .none)

/-- TASK.CYCLE (R171), in phase IDLE; no response. -/
def execTaskCycle (s : State) : Result := whenIdle s (andThen (receiveHalf s) transmitHalf)

/-- ENGINE.INIT (R173), in phase IDLE; no response. -/
def execEngineInit (s : State) : Result := whenIdle s (.next (s.restart.respond .none))

/-- ENGINE.SHUTDOWN (R174): the same effect on E as ENGINE.INIT. -/
def execEngineShutdown (s : State) : Result := whenIdle s (.next (s.restart.respond .none))

/-- Select code 0x6: "reserved", "a model refuses" (R71, U11). -/
def execReserved6 (_ : State) : Result := .refused .reservedCode

/-- Select code 0x7: "reserved", "a model refuses" (R71, U11). -/
def execReserved7 (_ : State) : Result := .refused .reservedCode

end Sys2Proof.Machine
end

