-- ==== Sys2Proof/Machine/Dispatch.lean ====
section
/-! DEFINITION. One arm per instruction. -/

namespace Sys2Proof.Machine

def exec (i : Instr) (s : State) : Host.Outcome State Fault Refusal :=
  match i with
  | .wireEnd => Sys2Proof.Machine.execWireEnd s
  | .wireEsc => Sys2Proof.Machine.execWireEsc s
  | .wireLiteral b => Sys2Proof.Machine.execWireLiteral b s
  | .wireEscEnd => Sys2Proof.Machine.execWireEscEnd s
  | .wireEscEsc => Sys2Proof.Machine.execWireEscEsc s
  | .wireMalformed b => Sys2Proof.Machine.execWireMalformed b s
  | .stuffEnd => Sys2Proof.Machine.execStuffEnd s
  | .stuffEsc => Sys2Proof.Machine.execStuffEsc s
  | .stuffOther d => Sys2Proof.Machine.execStuffOther d s
  | .decodedFrame id payload checksum => Sys2Proof.Machine.execDecodedFrame id payload checksum s
  | .encodedFrame f => Sys2Proof.Machine.execEncodedFrame f s
  | .engineInit => Sys2Proof.Machine.execEngineInit s
  | .engineShutdown => Sys2Proof.Machine.execEngineShutdown s
  | .muxRegister id handler => Sys2Proof.Machine.execMuxRegister id handler s
  | .muxUnregister id => Sys2Proof.Machine.execMuxUnregister id s
  | .txSend id payload => Sys2Proof.Machine.execTxSend id payload s
  | .taskCycle => Sys2Proof.Machine.execTaskCycle s
  | .reserved6 => Sys2Proof.Machine.execReserved6 s
  | .reserved7 => Sys2Proof.Machine.execReserved7 s
  | .slipEnc src prependStart appendEnd => Sys2Proof.Machine.execSlipEnc src prependStart appendEnd s
  | .slipSfe buf => Sys2Proof.Machine.execSlipSfe buf s
  | .slipDec escIn src => Sys2Proof.Machine.execSlipDec escIn src s
  | .ck8Compute data => Sys2Proof.Machine.execCk8Compute data s
  | .ck8Verify f => Sys2Proof.Machine.execCk8Verify f s
  | .rxStep => Sys2Proof.Machine.execRxStep s
  | .muxDispatch => Sys2Proof.Machine.execMuxDispatch s
  | .txDrain => Sys2Proof.Machine.execTxDrain s

end Sys2Proof.Machine
end

