-- ==== Sys2Proof/Machine/Fetch.lean ====
section
/-! DEFINITION. Taking the next request. The block fetches no instructions (`10_state.md` R27): the owner's requests stand in
`world.requests`, and a request's bytes are decoded in the format its port and the escape state fix (`30_encoding.md` R68). -/

namespace Sys2Proof.Machine

/-- The format of a packet: a wire byte is of WIRE_ESCAPED in the escape state, else of WIRE_NORMAL (R61, R62, R68). -/
def Port.format (p : Port) (esc : Bool) : Format :=
  match p with
  | .op => .op
  | .wire => if esc then .wireEscaped else .wireNormal
  | .stuff => .stuff
  | .decodedFrame => .decodedFrame
  | .encodedFrame => .encodedFrame

/-- The request `r` decoded in state `s`. -/
def decodeRequest (s : State) (r : Request) : Except DecodeError Instr := decode s.cfg (r.port.format s.codec.esc) r.bytes

/-- The state in which a taken request runs: the request is used up, and response and events are those of this operation. -/
def State.beginOperation (s : State) (rest : List Request) : State :=
  { s with world := { s.world with requests := rest }, response := .none, events := [] }

/-- The port of a table word, by the format it is read in. -/
def tablePort : Format → Port
  | .wireNormal | .wireEscaped => .wire
  | .stuff => .stuff
  | .decodedFrame => .decodedFrame
  | .encodedFrame => .encodedFrame
  | .op => .op

/-- The escape state a format needs. -/
def escapeFor (f : Format) (esc : Bool) : Bool :=
  match f with
  | .wireNormal => false
  | .wireEscaped => true
  | .stuff | .decodedFrame | .encodedFrame | .op => esc

/-- Where in a cycle a select code runs: the three operations that only TASK.CYCLE invokes have a phase of their own, and
MUX.DISPATCH works on a frame of at least 2 bytes (R133). DESIGN CHOICE (log entry 15). -/
def placeFor (c : Byte) (e : Engine) : Engine :=
  match c.toNat with
  | 0xD => { e with phase := .rx }
  | 0xE => { e with phase := .dispatch, rxLen := max e.rxLen 2 }
  | 0xF => { e with phase := .drain }
  | _ => e

/-- The state whose next step runs the packet `bytes` in format `f`. -/
def placePacket (s : State) (f : Format) (bytes : Bytes) : State :=
  { s with
    world := { s.world with requests := ⟨tablePort f, bytes⟩ :: s.world.requests }
    codec := { s.codec with esc := escapeFor f s.codec.esc }
    e := match f, bytes with
      | .op, c :: _ => placeFor c s.e
      | _, _ => s.e }

/-- The shorthand `CYCLES n rd=[] wr=-` (R74): n requests of TASK.CYCLE. -/
def cycles (n : Nat) : List Request := List.replicate n ⟨.op, encode {} .taskCycle⟩

end Sys2Proof.Machine
end

