-- ==== Sys2Proof/Machine/Step.lean ====
section
/-! DEFINITION. One step: the next request of the owner is taken, decoded and executed; with none pending the engine does
nothing (`60_exceptions.md` R215; log entry 14). -/

namespace Sys2Proof.Machine

/-- One step. -/
def step (s : State) : Host.Outcome State Fault Refusal :=
  match s.world.requests with
  | [] => .next s
  | r :: rest =>
    match decodeRequest s r with
    | .error e => .refused (.undecodable e)
    | .ok i => exec i (s.beginOperation rest)

/-- `s` with a table word placed so that the next step runs it (log entry 15). -/
def State.withFetchWord (s : State) (nbits w : Nat) : State :=
  placePacket s (tableFormat (tablePacket nbits w)) (tablePacket nbits w)

end Sys2Proof.Machine
end

