-- ==== Sys2Proof/Safety.lean ====
section
/-! DEFINITION. What a safe state is (`10_state.md` R31), the contracts of the surroundings (`20_memory.md` R46, R47,
`43_multiplexer.md` R135), and the words in which the statements speak of the buffers and the streams. -/

namespace Sys2Proof.Machine

/-! ## The invariant -/

/-- Four marker values (`00_scope.md` R10), the ranges of `10_state.md` R31, the canonical forms of the three spaces and of the
registry, and R41's bound on what the spaces list. -/
structure Engine.Inv (c : Config) (e : Engine) : Prop where
  markers       : c.MarkersDistinct
  pos_le_len    : e.rxChunkPos ≤ e.rxChunkLen
  chunk_le_max  : e.rxChunkLen ≤ c.rxChunkMax
  frame_le_cap  : e.rxLen ≤ c.rxFrameCap
  cur_le_len    : e.txCur ≤ e.txLen
  tx_le_cap     : e.txLen ≤ c.txBufCap
  idle_is_zero  : e.txCur = e.txLen → e.txLen = 0
  chunk_wf      : e.rxChunk.wf
  frame_wf      : e.rxBuf.wf
  tx_wf         : e.txBuf.wf
  chunk_within  : e.rxChunk.within c.rxChunkMax
  frame_within  : e.rxBuf.within c.rxFrameCap
  tx_within     : e.txBuf.within c.txBufCap
  reg_wf        : regWf e.reg
  reg_range     : ∀ x ∈ e.reg, x.1 ≤ c.protoMax.toNat

/-- Between operations: the engine's invariant, and phase IDLE (R31: "outside TASK.CYCLE, E.phase = IDLE"). -/
structure State.Inv (s : State) : Prop where
  engine : s.e.Inv s.cfg
  idle   : s.e.phase = .idle

/-! ## Contracts of the surroundings -/

/-- The next answer of `TransportRead` keeps R46. -/
abbrev State.readKept (s : State) : Prop := s.nextRead.length ≤ s.cfg.rxChunkMax

/-- The next answer of `TransportWrite` keeps R47 when `n` bytes are offered. -/
abbrev State.writeKept (s : State) (n : Nat) : Prop :=
  match s.nextWrite with
  | .error => True
  | .accepted w => w ≤ n

/-- A behaviour that returns and makes no request but TX.SEND (R135). -/
def Behaviour.returns : Behaviour → Bool
  | .done => true
  | .send _ _ onAccepted onRejected => onAccepted.returns && onRejected.returns
  | .barred _ => false
  | .hang => false

/-- The transport keeps R47 in this cycle's drain: in the state the receive half leaves, the answer is within the offer. -/
abbrev State.cycleWriteKept (s : State) : Prop :=
  ∀ t, receiveHalf s = .next t → inFlight t.e = true → t.writeKept (offerSize t)

/-- The handler behaviour `b`, started in `s`, makes some TX.SEND requests, each executed at once against the state as it stands
and answered (`43_multiplexer.md` R135), and comes to `rest` in `t`. -/
inductive HandlerReaches : Behaviour → State → Behaviour → State → Prop where
  | here (b : Behaviour) (s : State) : HandlerReaches b s b s
  | accepted (id : Byte) (payload : Bytes) (a r rest : Behaviour) (s u t : State) :
      exec (.txSend id payload) s = .next u → u.response = .send .accepted → HandlerReaches a u rest t →
      HandlerReaches (.send id payload a r) s rest t
  | rejected (id : Byte) (payload : Bytes) (a r rest : Behaviour) (s u t : State) :
      exec (.txSend id payload) s = .next u → u.response = .send .rejected → HandlerReaches r u rest t →
      HandlerReaches (.send id payload a r) s rest t

/-! ## The buffers as byte sequences -/

/-- The accumulated frame `E.rx_buf[0 .. E.rx_len)` (R23). -/
def accumulated (e : Engine) : Bytes := bytesAt e.rxBuf 0 e.rxLen

/-- The unconsumed remainder `E.rx_chunk[E.rx_chunk_pos .. E.rx_chunk_len)` (R22). -/
def remainder (e : Engine) : Bytes := bytesAt e.rxChunk e.rxChunkPos (e.rxChunkLen - e.rxChunkPos)

/-- The buffered frame `E.tx_buf[0 .. E.tx_len)` (R26). -/
def buffered (e : Engine) : Bytes := bytesAt e.txBuf 0 e.txLen

/-- The undrained part `E.tx_buf[E.tx_cur .. E.tx_len)` (R26). -/
def undrained (e : Engine) : Bytes := bytesAt e.txBuf e.txCur (e.txLen - e.txCur)

/-! ## RX.STEP step by step -/

/-- RX.STEP has bytes to work on: a remainder, or a non-empty answer of the transport within its contract. -/
abbrev hasWork (s : State) : Prop :=
  s.e.rxChunkPos < s.e.rxChunkLen ∨ (s.e.rxChunkPos = s.e.rxChunkLen ∧ s.nextRead ≠ [] ∧ s.readKept)

/-- The state after step 1 of RX.STEP, when it has bytes to work on (R102). -/
def afterFetch (s : State) : State :=
  if s.e.rxChunkPos = s.e.rxChunkLen then s.dropRead.storeChunk s.nextRead else s

/-- The bytes of the chunk after step 2 (R103), from the bytes before it. -/
def afterSkip (c : Config) (e : Engine) (bytes : Bytes) : Bytes :=
  if e.rxLen = 0 ∧ e.rxEsc = false then bytes.dropWhile (· == c.endByte) else bytes

/-- What step 3 works on. -/
def workBytes (s : State) : Bytes := afterSkip s.cfg s.e (remainder (afterFetch s).e)

/-- The span (R104): everything before the first END, with that END if there is one. -/
def workSpan (s : State) : Bytes :=
  (workBytes s).takeWhile (· != s.cfg.endByte) ++ (if s.cfg.endByte ∈ workBytes s then [s.cfg.endByte] else [])

/-- `E.rx_chunk_pos` after step 3 (R104): the span is consumed. -/
def posAfter (s : State) : Nat := (afterFetch s).e.rxChunkLen - ((workBytes s).length - (workSpan s).length)

/-! ## Streams -/

/-- How many ESC and END bytes SLIP.DEC meets outside the escape state (`40_slip_codec.md` R87 item 1). -/
def markersMet (c : Config) : Bool → Bytes → Nat
  | _, [] => 0
  | true, _ :: rest => markersMet c false rest
  | false, b :: rest =>
    if b = c.endByte then markersMet c false rest + 1
    else if b = c.escByte then markersMet c true rest + 1
    else markersMet c false rest

/-- A sequence of END bytes and encoded frames, and the decoded frames it carries (`41_rx_reassembler.md` R112). -/
inductive FrameStream (c : Config) : Bytes → List Bytes → Prop where
  | empty : FrameStream c [] []
  | extraEnd (stream : Bytes) (frames : List Bytes) : FrameStream c stream frames → FrameStream c (c.endByte :: stream) frames
  | frame (f stream : Bytes) (frames : List Bytes) :
      FrameStream c stream frames → FrameStream c (slipEnc c f true true ++ stream) (f :: frames)

/-- The receive side of one cycle: RX.STEP, and the end-of-cycle reset with the completed frame as the report (R110, R172). -/
def rxCycle (s : State) : Option (State × List Bytes) :=
  match exec .rxStep (s.withPhase .rx) with
  | .next t => if t.response = .rx .frameComplete then some (t.clearFrame, [accumulated t.e]) else some (t, [])
  | .fault _ => none
  | .refused _ => none

/-- The receive side of `n` cycles, with the frames it reports in order. -/
def rxCycles : Nat → State → Option (State × List Bytes)
  | 0, s => some (s, [])
  | n + 1, s =>
    match rxCycle s with
    | none => none
    | some (t, reported) =>
      match rxCycles n t with
      | none => none
      | some (u, more) => some (u, reported ++ more)

/-- OUTBOUND is whole encoded frames, then what the transport took of the frame in flight (`20_memory.md` R49). -/
def OutboundWhole (s : State) : Prop :=
  ∃ frames : List Bytes,
    s.world.outbound = (frames.map fun f => slipEnc s.cfg f true true).flatten ++ bytesAt s.e.txBuf 0 s.e.txCur ∧
    (s.e.txCur < s.e.txLen → ∃ f, buffered s.e = slipEnc s.cfg f true true)

/-- A checksum that any single flipped bit changes (`42_integrity.md` R124 item 2). -/
def SingleBitSensitive (g : Bytes → Byte) : Prop :=
  ∀ (before after : Bytes) (b : Byte) (j : Nat), j < 8 →
    g (before ++ (b ^^^ (1#8 <<< j)) :: after) ≠ g (before ++ b :: after)

end Sys2Proof.Machine
end

