-- ==== Sys2Proof/Certificates/Slice0/Obligations.lean ====
section
/-! DEFINITION. The statements. Each docstring names the rules of `spec/` it formalises; where a clause is the model's own
choice it names the log entry. -/

open Sys2Proof Sys2Proof.Machine

/-! ## Encoding -/

/-- Words written out from the tables of `30_encoding.md` R61 to R65 and R71 decode, under the parameter values of `00_scope.md`
R10, to the rows they stand for (the carriage of operands is the model's, log entry 11). -/
def Obligations.TableWordsDecodeToTheirRows : Prop :=
  decode {} .wireNormal [0b11000000#8] = .ok .wireEnd ∧
  decode {} .wireNormal [0b11011011#8] = .ok .wireEsc ∧
  decode {} .wireNormal [0b11011100#8] = .ok (.wireLiteral 0xDC#8) ∧
  decode {} .wireEscaped [0b11011100#8] = .ok .wireEscEnd ∧
  decode {} .wireEscaped [0b11011101#8] = .ok .wireEscEsc ∧
  decode {} .wireEscaped [0b11000000#8] = .ok (.wireMalformed 0xC0#8) ∧
  decode {} .stuff [0b11000000#8] = .ok .stuffEnd ∧
  decode {} .stuff [0b11011011#8] = .ok .stuffEsc ∧
  decode {} .stuff [0b01000001#8] = .ok (.stuffOther 0x41#8) ∧
  decode {} .op [0b0000#8] = .ok .engineInit ∧
  decode {} .op [0b0010#8, 0x47#8, 0x01#8] = .ok (.muxRegister 0x47#8 ⟨[0x01#8]⟩) ∧
  decode {} .op [0b0100#8, 0x01#8, 0xC0#8, 0xDB#8] = .ok (.txSend 0x01#8 [0xC0#8, 0xDB#8]) ∧
  decode {} .op [0b0101#8] = .ok .taskCycle ∧
  decode {} .op [0b1000#8, 0b11#8, 0x41#8] = .ok (.slipEnc [0x41#8] true true) ∧
  decode {} .op [0b1111#8] = .ok .txDrain ∧
  decode {} .decodedFrame [0x41#8, 0x42#8, 0x43#8, 0xC6#8] = .ok (.decodedFrame 0x41#8 [0x42#8, 0x43#8] 0xC6#8) ∧
  decode {} .encodedFrame [0xC0#8, 0x40#8, 0x80#8, 0xDB#8, 0xDC#8, 0xC0#8] = .ok (.encodedFrame [0x40#8, 0x80#8, 0xC0#8])

/-- Decoding the encoding of a well-formed instruction gives it back, with every operand, under every configuration with four
marker values (R61 to R65, R71; the carriage of operands is the model's, log entry 11). -/
def Obligations.DecodeOfEncodeIsTheInstruction : Prop :=
  ∀ (c : Config) (i : Instr), c.MarkersDistinct → i.wf c = true → decode c i.format (encode c i) = .ok i

/-- What the decoder accepts is well formed, of the format asked for, and has no other encoding in it. For the operations this
rests on the packet carriage of operands (flag bytes, nothing after the last operand), and the lengths a frame may have are
those of the configuration: both the model's choice, log entry 11, which R71 does not fix. -/
def Obligations.DecodedBytesAreTheOnlyEncoding : Prop :=
  ∀ (c : Config) (f : Format) (bytes : Bytes) (i : Instr), c.MarkersDistinct →
    decode c f bytes = .ok i → i.wf c = true ∧ i.format = f ∧ encode c i = bytes

/-! ## The rows of the wire byte tables and of the frame formats -/

/-- R61: the class of a wire byte outside the escape state, and what the decoder does on it. That a row runs on the decoder's
loop variables is the model's (log entry 9). -/
def Obligations.WireNormalBytesAct : Prop :=
  (∀ (c : Config) (b : Byte), decode c .wireNormal [b] =
    .ok (if b = c.endByte then .wireEnd else if b = c.escByte then .wireEsc else .wireLiteral b)) ∧
  ∀ s : State, s.codec.esc = false →
    exec .wireEnd s = .next { s with response := .wire .boundary } ∧
    exec .wireEsc s = .next { s with codec := { s.codec with esc := true }, response := .wire .enterEscape } ∧
    ∀ b : Byte, b ≠ s.cfg.endByte → b ≠ s.cfg.escByte →
      exec (.wireLiteral b) s =
        .next { s with codec := { s.codec with out := s.codec.out ++ [b] }, response := .wire (.output b) }

/-- R62: the class of a wire byte in the escape state, and what the decoder does on it. That a row runs on the decoder's loop
variables, and that a failed decode leaves them as at the start of a frame, is the model's (log entry 9). -/
def Obligations.WireEscapedBytesAct : Prop :=
  (∀ (c : Config) (b : Byte), decode c .wireEscaped [b] =
    .ok (if b = c.escEndByte then .wireEscEnd else if b = c.escEscByte then .wireEscEsc else .wireMalformed b)) ∧
  ∀ s : State, s.codec.esc = true →
    exec .wireEscEnd s = .next { s with codec := { s.codec with out := s.codec.out ++ [s.cfg.endByte], esc := false },
                                        response := .wire (.unescape s.cfg.endByte) } ∧
    exec .wireEscEsc s = .next { s with codec := { s.codec with out := s.codec.out ++ [s.cfg.escByte], esc := false },
                                        response := .wire (.unescape s.cfg.escByte) } ∧
    ∀ b : Byte, b ≠ s.cfg.escEndByte → b ≠ s.cfg.escEscByte →
      exec (.wireMalformed b) s =
        .next { s with codec := { s.codec with out := [], esc := false }, response := .wire .malformed }

/-- A row met in the other escape state is the byte's class there (R61, R62; log entry 9), for every byte a row may hold: in the
escape state END, ESC and a literal other than ESC_END and ESC_ESC are malformed, and those two literals complete the pair;
outside it ESC_END, ESC_ESC and a byte other than END and ESC are literal, and those two are the boundary and the escape. -/
def Obligations.WireRowsMetInTheOtherEscapeState : Prop :=
  (∀ s : State, s.cfg.MarkersDistinct → s.codec.esc = true →
    let failed : State := { s with codec := { s.codec with out := [], esc := false }, response := .wire .malformed }
    let unescapes : Byte → State := fun d =>
      { s with codec := { s.codec with out := s.codec.out ++ [d], esc := false }, response := .wire (.unescape d) }
    exec .wireEnd s = .next failed ∧ exec .wireEsc s = .next failed ∧
    exec (.wireLiteral s.cfg.escEndByte) s = .next (unescapes s.cfg.endByte) ∧
    exec (.wireLiteral s.cfg.escEscByte) s = .next (unescapes s.cfg.escByte) ∧
    ∀ b : Byte, b ≠ s.cfg.escEndByte → b ≠ s.cfg.escEscByte → exec (.wireLiteral b) s = .next failed) ∧
  ∀ s : State, s.cfg.MarkersDistinct → s.codec.esc = false →
    let outputs : Byte → State := fun b =>
      { s with codec := { s.codec with out := s.codec.out ++ [b] }, response := .wire (.output b) }
    exec .wireEscEnd s = .next (outputs s.cfg.escEndByte) ∧ exec .wireEscEsc s = .next (outputs s.cfg.escEscByte) ∧
    exec (.wireMalformed s.cfg.endByte) s = .next { s with response := .wire .boundary } ∧
    exec (.wireMalformed s.cfg.escByte) s =
      .next { s with codec := { s.codec with esc := true }, response := .wire .enterEscape } ∧
    ∀ b : Byte, b ≠ s.cfg.endByte → b ≠ s.cfg.escByte → exec (.wireMalformed b) s = .next (outputs b)

/-- R63: the wire bytes emitted for one data byte; the stuffed form of a data sequence never contains END, and contains ESC only
as the first byte of a pair. That a row runs as an instruction, appends to an encoder output that State holds and changes
nothing else is the model's (log entry 9). -/
def Obligations.StuffedFormHoldsNoMarker : Prop :=
  (∀ s : State,
    let emits : Bytes → State := fun w =>
      { s with codec := { s.codec with stuffed := s.codec.stuffed ++ w }, response := .bytes w }
    exec .stuffEnd s = .next (emits [s.cfg.escByte, s.cfg.escEndByte]) ∧
    exec .stuffEsc s = .next (emits [s.cfg.escByte, s.cfg.escEscByte]) ∧
    ∀ d : Byte, d ≠ s.cfg.endByte → d ≠ s.cfg.escByte → exec (.stuffOther d) s = .next (emits [d])) ∧
  (∀ (c : Config) (d : Byte), stuff c d =
    if d = c.endByte then [c.escByte, c.escEndByte] else if d = c.escByte then [c.escByte, c.escEscByte] else [d]) ∧
  ∀ (c : Config) (x : Bytes), c.MarkersDistinct → c.endByte ∉ x.flatMap (stuff c) ∧
    ∀ i : Nat, (x.flatMap (stuff c))[i]? = some c.escByte →
      ((x.flatMap (stuff c))[i + 1]? = some c.escEndByte ∨ (x.flatMap (stuff c))[i + 1]? = some c.escEscByte) ∧
      (i = 0 ∨ (x.flatMap (stuff c))[i - 1]? ≠ some c.escByte)

/-- Wire bytes taken one request at a time compute SLIP.DEC (`40_slip_codec.md` R86, log entry 9), and touch nothing of E. -/
def Obligations.WireStepsComputeSlipDec : Prop :=
  ∀ (s : State) (src out : Bytes) (escOut : Bool),
    s.world.requests = src.map (fun b => ⟨.wire, [b]⟩) → slipDec s.cfg s.codec.esc src = .ok out escOut →
    ∃ t, Host.Core.run core src.length s = .next t ∧
      t.codec = { s.codec with out := s.codec.out ++ out, esc := escOut } ∧ t.e = s.e ∧ t.cfg = s.cfg ∧
      t.world = { s.world with requests := [] }

/-- Data bytes taken one request at a time compute the stuffed form (R63, R82, log entry 9), and touch nothing of E. -/
def Obligations.StuffStepsComputeTheStuffedForm : Prop :=
  ∀ (s : State) (x : Bytes), s.world.requests = x.map (fun d => ⟨.stuff, [d]⟩) →
    ∃ t, Host.Core.run core x.length s = .next t ∧
      t.codec = { s.codec with stuffed := s.codec.stuffed ++ x.flatMap (stuff s.cfg) } ∧ t.e = s.e ∧ t.cfg = s.cfg ∧
      t.world = { s.world with requests := [] }

/-- R64, R65, R66: the fields of a decoded frame, with whether its checksum byte is CK8 of the rest; the wire form of a
decoded frame and its length L + k + 2. That executing the two rows answers these and changes nothing is the model's
(log entry 9). -/
def Obligations.FrameRowsSplitAndBuild : Prop :=
  (∀ (s : State) (id : Byte) (payload : Bytes) (checksum : Byte),
    exec (.decodedFrame id payload checksum) s =
      .next { s with response := .frame id payload checksum (decide (ck8 s.cfg (id :: payload) = checksum)) }) ∧
  ∀ (s : State) (f : Bytes), ∃ wire,
    exec (.encodedFrame f) s = .next { s with response := .bytes wire } ∧
    wire = [s.cfg.endByte] ++ f.flatMap (stuff s.cfg) ++ [s.cfg.endByte] ∧
    (s.cfg.MarkersDistinct → wire.length = f.length + (f.count s.cfg.endByte + f.count s.cfg.escByte) + 2)

/-! ## The codec operations -/

/-- R82 (result) and R83 (its length): SLIP.ENC. -/
def Obligations.SlipEncStuffsAndDelimits : Prop :=
  ∀ (s : State) (src : Bytes) (p a : Bool), ∃ out,
    exec (.slipEnc src p a) s = .next { s with response := .bytes out } ∧
    out = (if p then [s.cfg.endByte] else []) ++ src.flatMap (stuff s.cfg) ++ (if a then [s.cfg.endByte] else []) ∧
    src.length ≤ out.length ∧ out.length ≤ 2 * src.length + 2 ∧
    (s.cfg.MarkersDistinct →
      out.length = src.length + (src.count s.cfg.endByte + src.count s.cfg.escByte) + p.toNat + a.toNat)

/-- R84, R85: SLIP.SFE answers the least index that holds END, and NOT_FOUND exactly when there is none. -/
def Obligations.SlipSfeFindsTheLeastEnd : Prop :=
  ∀ (s : State) (buf : Bytes), ∃ r,
    exec (.slipSfe buf) s = .next { s with response := .sfe r } ∧
    (∀ i, r = .found i ↔ buf[i]? = some s.cfg.endByte ∧ ∀ j < i, buf[j]? ≠ some s.cfg.endByte) ∧
    (r = .notFound ↔ buf.count s.cfg.endByte = 0)

/-- R86: SLIP.DEC, by what it does on the first byte of its operand in either escape state. -/
def Obligations.SlipDecReadsByteByByte : Prop :=
  (∀ (s : State) (e : Bool) (src : Bytes),
    exec (.slipDec e src) s = .next { s with response := .dec (slipDec s.cfg e src) }) ∧
  ∀ c : Config, c.MarkersDistinct →
    (∀ e, slipDec c e [] = .ok [] e) ∧
    (∀ (b : Byte) (src : Bytes), slipDec c true (b :: src) =
      if b = c.escEndByte then
        (match slipDec c false src with | .ok out e => .ok (c.endByte :: out) e | .malformed => .malformed)
      else if b = c.escEscByte then
        (match slipDec c false src with | .ok out e => .ok (c.escByte :: out) e | .malformed => .malformed)
      else .malformed) ∧
    ∀ (b : Byte) (src : Bytes), slipDec c false (b :: src) =
      if b = c.escByte then slipDec c true src
      else if b = c.endByte then slipDec c false src
      else (match slipDec c false src with | .ok out e => .ok (b :: out) e | .malformed => .malformed)

/-- R87: the length law, the splitting law and the law of one stuffed byte. -/
def Obligations.SlipDecLaws : Prop :=
  ∀ c : Config,
    (∀ (e e' : Bool) (src out : Bytes), slipDec c e src = .ok out e' →
      out.length ≤ src.length ∧ out.length + markersMet c e src = src.length) ∧
    (∀ (e e1 : Bool) (a b o1 : Bytes), slipDec c e a = .ok o1 e1 →
      (slipDec c e1 b = .malformed → slipDec c e (a ++ b) = .malformed) ∧
      ∀ o2 e2, slipDec c e1 b = .ok o2 e2 → slipDec c e (a ++ b) = .ok (o1 ++ o2) e2) ∧
    (∀ (e : Bool) (a b : Bytes), slipDec c e a = .malformed → slipDec c e (a ++ b) = .malformed) ∧
    (c.MarkersDistinct → ∀ d : Byte, slipDec c false (stuff c d) = .ok [d] false)

/-- R88: SLIP.DEC of what SLIP.ENC answers is the operand, for every sequence and every choice of the marker bits. -/
def Obligations.CodecRoundTrip : Prop :=
  ∀ (s : State) (x : Bytes) (p a : Bool), s.cfg.MarkersDistinct → ∃ w,
    exec (.slipEnc x p a) s = .next { s with response := .bytes w } ∧
    exec (.slipDec false w) s = .next { s with response := .dec (.ok x false) }

/-- R89: an encoded frame holds END at its two ends and nowhere else; the boundary search stops at the first and, once past
it, exactly at the last, whatever follows in the stream. -/
def Obligations.EncodedFrameBoundaries : Prop :=
  ∀ (c : Config) (x rest : Bytes), c.MarkersDistinct → ∃ body,
    slipEnc c x true true = c.endByte :: (body ++ [c.endByte]) ∧ c.endByte ∉ body ∧
    slipSfe c (slipEnc c x true true) = .found 0 ∧
    slipSfe c ((slipEnc c x true true).tail ++ rest) = .found ((slipEnc c x true true).length - 2)

/-! ## The integrity checker -/

/-- R121, R122, R123: CK8.COMPUTE, CK8.VERIFY, and the default checksum as the sum modulo 256. -/
def Obligations.ChecksumComputesAndVerifies : Prop :=
  (∀ (s : State) (data : Bytes), exec (.ck8Compute data) s = .next { s with response := .byte (ck8 s.cfg data) }) ∧
  (∀ (c : Config) (data : Bytes), c.ck8 = .sum → (ck8 c data).toNat = (data.map (·.toNat)).sum % 256) ∧
  ∀ (s : State) (f : Bytes), ∃ pass,
    exec (.ck8Verify f) s = .next { s with response := .bit pass } ∧
    (pass = true ↔ 2 ≤ f.length ∧ f.getLast? = some (ck8 s.cfg f.dropLast))

/-- R126: with a single-bit-sensitive checksum, every change of one bit of a passing decoded frame fails verification. -/
def Obligations.SingleBitFlipsAreCaught : Prop :=
  ∀ (c : Config), SingleBitSensitive (ck8 c) →
    ∀ (before after : Bytes) (b : Byte) (j : Nat), j < 8 →
      ck8Verify c (before ++ b :: after) = true → ck8Verify c (before ++ (b ^^^ (1#8 <<< j)) :: after) = false

/-! ## The receive reassembler -/

/-- R102: with no remainder and an empty answer, RX.STEP reports NO_FRAME and changes nothing of E. -/
def Obligations.RxStepWithoutData : Prop :=
  ∀ s : State, s.e.phase = .rx → s.e.rxChunkPos = s.e.rxChunkLen → s.nextRead = [] →
    exec .rxStep s = .next { s with world := { s.world with reads := s.world.reads.tail }, response := .rx .noFrame,
                                    events := s.events ++ [.noData] }

/-- R107: on a malformed pair the accumulated bytes are discarded, the escape state cleared and the span consumed. -/
def Obligations.RxStepOnMalformedPair : Prop :=
  ∀ s : State, s.e.Inv s.cfg → s.e.phase = .rx → hasWork s →
    slipDec s.cfg s.e.rxEsc (workSpan s) = .malformed →
    exec .rxStep s =
      .next { afterFetch s with
        e := { (afterFetch s).e with rxChunkPos := posAfter s, rxLen := 0, rxEsc := false }
        response := .rx .noFrame, events := s.events ++ [.malformed] }

/-- R108: when the decoded span does not fit, the accumulated bytes are discarded, none of it is kept and the span stays
consumed, whether or not it ended in an END. -/
def Obligations.RxStepOnOversizeFrame : Prop :=
  ∀ (s : State) (out : Bytes) (escOut : Bool), s.e.Inv s.cfg → s.e.phase = .rx → hasWork s →
    slipDec s.cfg s.e.rxEsc (workSpan s) = .ok out escOut → s.cfg.rxFrameCap < s.e.rxLen + out.length →
    exec .rxStep s =
      .next { afterFetch s with
        e := { (afterFetch s).e with rxChunkPos := posAfter s, rxLen := 0, rxEsc := false }
        response := .rx .noFrame, events := s.events ++ [.oversize] }

/-- R104, R105, R109, R110: a span that decodes and fits is appended, whole; with an END in it the frame is complete, without
one RX.STEP reports NO_FRAME and the chunk is consumed. Every other byte of RXFRAME and everything else is as before. -/
def Obligations.RxStepAppendsTheSpan : Prop :=
  ∀ (s : State) (out : Bytes) (escOut : Bool), s.e.Inv s.cfg → s.e.phase = .rx → hasWork s →
    slipDec s.cfg s.e.rxEsc (workSpan s) = .ok out escOut → s.e.rxLen + out.length ≤ s.cfg.rxFrameCap →
    ∃ t, exec .rxStep s = .next t ∧
      t = { afterFetch s with
        e := { (afterFetch s).e with
          rxChunkPos := posAfter s, rxBuf := t.e.rxBuf, rxLen := s.e.rxLen + out.length, rxEsc := escOut }
        response := .rx (if s.cfg.endByte ∈ workBytes s then .frameComplete else .noFrame)
        events := s.events ++ (if s.cfg.endByte ∈ workBytes s then [] else [.incomplete]) } ∧
      accumulated t.e = accumulated s.e ++ out ∧
      (∀ a, a < s.e.rxLen ∨ s.e.rxLen + out.length ≤ a → t.e.rxBuf.read a = s.e.rxBuf.read a) ∧
      (s.cfg.endByte ∉ workBytes s → t.e.rxChunkPos = t.e.rxChunkLen)

/-- R48, R44: the engine neither loses, repeats nor reorders inbound bytes: what RX.STEP consumes is the front of what was
pending, the remainder first and then what the transport will answer, and it consumes something whenever it has work. -/
def Obligations.InboundBytesAreConsumedInOrder : Prop :=
  ∀ s t : State, s.e.Inv s.cfg → exec .rxStep s = .next t →
    ∃ consumed : Bytes, remainder s.e ++ s.world.reads.flatten = consumed ++ (remainder t.e ++ t.world.reads.flatten) ∧
      (consumed ≠ [] ↔ hasWork s)

/-- R46: what a non-empty answer leaves in RXCHUNK: the chunk, byte for byte, and its length; the answer is used up. -/
def Obligations.TransportReadIsStored : Prop :=
  ∀ s : State, s.e.rxChunkPos = s.e.rxChunkLen → s.nextRead ≠ [] →
    (afterFetch s).e = { s.e with rxChunk := (afterFetch s).e.rxChunk, rxChunkLen := s.nextRead.length, rxChunkPos := 0 } ∧
    remainder (afterFetch s).e = s.nextRead ∧
    (∀ a, s.nextRead.length ≤ a → (afterFetch s).e.rxChunk.read a = s.e.rxChunk.read a) ∧
    (afterFetch s).world = { s.world with reads := s.world.reads.tail }

/-- RX.STEP completes whenever the read answer keeps its contract, and raises exactly one of its four events with NO_FRAME
and none with FRAME_COMPLETE (R101). -/
def Obligations.RxStepCompletesWithOneOutcome : Prop :=
  ∀ s : State, s.e.Inv s.cfg → s.e.phase = .rx → (s.e.rxChunkPos = s.e.rxChunkLen → s.readKept) →
    ∃ t, exec .rxStep s = .next t ∧ t.e.Inv t.cfg ∧ t.e.phase = .rx ∧
      ((t.response = .rx .frameComplete ∧ t.events = s.events) ∨
       (t.response = .rx .noFrame ∧
        ∃ ev ∈ [Event.noData, .malformed, .oversize, .incomplete], t.events = s.events ++ [ev]))

/-- R111: at FRAME_COMPLETE the frame has at least one byte and no escape is pending; a chunk byte is consumed whenever there
is one; at most one read is made, and none when a remainder exists; the frame buffer never overflows. -/
def Obligations.RxStepFacts : Prop :=
  ∀ s t : State, s.e.Inv s.cfg → exec .rxStep s = .next t →
    (t.response = .rx .frameComplete → 1 ≤ t.e.rxLen ∧ t.e.rxEsc = false) ∧
    (s.e.rxChunkPos < s.e.rxChunkLen → s.e.rxChunkPos < t.e.rxChunkPos) ∧
    (s.e.rxChunkPos = s.e.rxChunkLen → s.nextRead ≠ [] → 0 < t.e.rxChunkPos) ∧
    (t.world.reads = if s.e.rxChunkPos < s.e.rxChunkLen then s.world.reads else s.world.reads.tail) ∧
    t.e.rxLen ≤ t.cfg.rxFrameCap

/-- R100: RX.STEP writes the chunk buffer, the receive frame buffer, their registers and the escape flag, and nothing else. -/
def Obligations.RxStepFrame : Prop :=
  ∀ s t : State, exec .rxStep s = .next t →
    t.cfg = s.cfg ∧ t.codec = s.codec ∧ t.world = { s.world with reads := t.world.reads } ∧
    t.e = { s.e with rxChunk := t.e.rxChunk, rxChunkLen := t.e.rxChunkLen, rxChunkPos := t.e.rxChunkPos,
                     rxBuf := t.e.rxBuf, rxLen := t.e.rxLen, rxEsc := t.e.rxEsc }

/-- R112: from a fresh receive side, whatever the cuts of a stream of END bytes and encoded frames into chunks (empty answers
between them allowed), the reports are exactly its frames, in order, and no frame is malformed or oversize. -/
def Obligations.ReassemblyIsIndependentOfChunkCuts : Prop :=
  ∀ (s : State) (stream : Bytes) (frames : List Bytes) (n : Nat),
    s.e.Inv s.cfg → s.e.rxLen = 0 → s.e.rxEsc = false → s.e.rxChunkPos = s.e.rxChunkLen →
    FrameStream s.cfg stream frames → (∀ f ∈ frames, 1 ≤ f.length ∧ f.length ≤ s.cfg.rxFrameCap) →
    s.world.reads.flatten = stream → (∀ c ∈ s.world.reads, c.length ≤ s.cfg.rxChunkMax) →
    s.world.reads.length + frames.length ≤ n →
    ∃ t evs, rxCycles n s = some (t, frames) ∧ t.events = s.events ++ evs ∧
      Event.malformed ∉ evs ∧ Event.oversize ∉ evs

/-! ## The multiplexer -/

/-- R131: MUX.REGISTER. A bad identifier and an occupied slot change nothing; otherwise the slot holds the handler and every
other slot is as before. -/
def Obligations.RegisterFillsAnEmptySlot : Prop :=
  ∀ (s : State) (id : Byte) (h : Handler), s.e.phase = .idle →
    (s.cfg.protoMax.toNat < id.toNat → exec (.muxRegister id h) s = .next { s with response := .reg .invalidId }) ∧
    (∀ g, id.toNat ≤ s.cfg.protoMax.toNat → slot s.e.reg id.toNat = some g →
      exec (.muxRegister id h) s = .next { s with response := .reg .alreadyRegistered }) ∧
    (id.toNat ≤ s.cfg.protoMax.toNat → slot s.e.reg id.toNat = none →
      ∃ t, exec (.muxRegister id h) s = .next t ∧
        t = { s with e := { s.e with reg := t.e.reg }, response := .reg .success } ∧
        ∀ i, slot t.e.reg i = if i = id.toNat then some h else slot s.e.reg i)

/-- R132: MUX.UNREGISTER empties the slot unconditionally; a bad identifier changes nothing. -/
def Obligations.UnregisterEmptiesTheSlot : Prop :=
  ∀ (s : State) (id : Byte), s.e.phase = .idle →
    (s.cfg.protoMax.toNat < id.toNat → exec (.muxUnregister id) s = .next { s with response := .none }) ∧
    (id.toNat ≤ s.cfg.protoMax.toNat →
      ∃ t, exec (.muxUnregister id) s = .next t ∧
        t = { s with e := { s.e with reg := t.e.reg }, response := .none } ∧
        ∀ i, slot t.e.reg i = if i = id.toNat then none else slot s.e.reg i)

/-- R133: a frame whose identifier is out of range or has no handler is dropped, and nothing of E changes. -/
def Obligations.DispatchDropsUnroutedFrames : Prop :=
  ∀ (s : State) (id : Byte) (payload : Bytes) (checksum : Byte),
    s.e.phase = .dispatch → s.e.rxLen ≤ s.cfg.rxFrameCap → accumulated s.e = id :: payload ++ [checksum] →
    (s.cfg.protoMax.toNat < id.toNat ∨ slot s.e.reg id.toNat = none) →
    exec .muxDispatch s = .next { s with response := .none, events := s.events ++ [.noRoute] }

/-- R133, R134, R135, R204: a routed frame invokes its handler exactly once with the payload; a handler that returns leaves
phase DISPATCH, and only its sends have changed anything: the transmit registers, the bytes of the one frame they can store, and
TX.SEND's events. With nothing in flight a first send that fits leaves its encoded frame, its length and a zero cursor, whatever
the handler sends after it; with a frame in flight nothing of E changes. -/
def Obligations.DispatchInvokesTheHandlerOnce : Prop :=
  ∀ (s : State) (id : Byte) (payload : Bytes) (checksum : Byte) (h : Handler),
    s.e.phase = .dispatch → s.e.rxLen ≤ s.cfg.rxFrameCap → accumulated s.e = id :: payload ++ [checksum] →
    id.toNat ≤ s.cfg.protoMax.toNat → slot s.e.reg id.toNat = some h → s.nextBehaviour.returns = true →
    ∃ t sends, exec .muxDispatch s = .next t ∧
      t = { s with
        e := { s.e with txBuf := t.e.txBuf, txLen := t.e.txLen, txCur := t.e.txCur }
        world := { s.world with behaviours := s.world.behaviours.tail }
        response := .none, events := s.events ++ .call h payload :: sends } ∧
      (∀ ev ∈ sends, ev ∈ [Event.txBusy, .txLen, .txCap]) ∧
      (∀ replyId reply onAccepted onRejected enc, s.nextBehaviour = .send replyId reply onAccepted onRejected →
        s.e.txLen ≤ s.e.txCur → reply.length ≤ s.cfg.txPayloadMax →
        enc = slipEnc s.cfg (replyId :: reply ++ [ck8 s.cfg (replyId :: reply)]) true true → enc.length ≤ s.cfg.txBufCap →
        buffered t.e = enc ∧ t.e.txLen = enc.length ∧ t.e.txCur = 0) ∧
      (∀ a, t.e.txLen ≤ a → t.e.txBuf.read a = s.e.txBuf.read a) ∧
      (s.e.txCur < s.e.txLen → t.e = s.e) ∧
      (s.nextBehaviour = .done → t.e = s.e ∧ sends = [])

/-- R204, R135, R227, U8, U9: what MUX.DISPATCH of a routed frame answers is where the handler's moves lead, each send being
TX.SEND executed at once and answered. A barred request, first or after any number of sends, is refused; never returning, at
whatever point, stops the machine; a return leaves what the sends left, in phase DISPATCH; and there is no other way to a next
state. The refusal's name and the fault that stands for never returning are the model's (log entries 8 and 17). -/
def Obligations.HandlerThatDoesNotReturnStops : Prop :=
  ∀ (s : State) (id : Byte) (payload : Bytes) (checksum : Byte) (h : Handler),
    s.e.phase = .dispatch → s.e.rxLen ≤ s.cfg.rxFrameCap → accumulated s.e = id :: payload ++ [checksum] →
    id.toNat ≤ s.cfg.protoMax.toNat → slot s.e.reg id.toNat = some h →
    (∀ r u, HandlerReaches s.nextBehaviour (s.enterHandler h payload) (.barred r) u →
      exec .muxDispatch s = .refused .requestInHandler) ∧
    (∀ u, HandlerReaches s.nextBehaviour (s.enterHandler h payload) .hang u →
      exec .muxDispatch s = .fault .handlerNeverReturns) ∧
    (∀ u, HandlerReaches s.nextBehaviour (s.enterHandler h payload) .done u →
      exec .muxDispatch s = .next { u with e := { u.e with phase := .dispatch }, response := .none }) ∧
    (∀ t, exec .muxDispatch s = .next t → ∃ u, HandlerReaches s.nextBehaviour (s.enterHandler h payload) .done u)

/-- R53: a registration that has returned is seen by the next dispatch, and so is an unregistration. -/
def Obligations.RegistryUpdatesAreSeenByDispatch : Prop :=
  ∀ (s : State) (id : Byte) (payload : Bytes) (checksum : Byte) (h : Handler),
    s.e.phase = .idle → s.e.rxLen ≤ s.cfg.rxFrameCap → accumulated s.e = id :: payload ++ [checksum] →
    id.toNat ≤ s.cfg.protoMax.toNat → s.nextBehaviour = .done → slot s.e.reg id.toNat = none →
    ∃ t u, exec (.muxRegister id h) s = .next t ∧ exec (.muxUnregister id) t = .next u ∧
      (∃ v, exec .muxDispatch (t.withPhase .dispatch) = .next v ∧ v.events = s.events ++ [.call h payload]) ∧
      ∃ v, exec .muxDispatch (u.withPhase .dispatch) = .next v ∧ v.events = s.events ++ [.noRoute]

/-- R136: the engine never changes the registry on its own; only its own operations, ENGINE.INIT and ENGINE.SHUTDOWN do. -/
def Obligations.OnlyRegistryOperationsChangeTheRegistry : Prop :=
  ∀ (i : Instr) (s t : State), exec i s = .next t →
    t.e.reg = s.e.reg ∨ (∃ id h, i = .muxRegister id h) ∨ (∃ id, i = .muxUnregister id) ∨
    i = .engineInit ∨ i = .engineShutdown

/-! ## The transmit path -/

/-- R151: the three rejections of TX.SEND change nothing of E, in phase IDLE and in phase HANDLER alike. -/
def Obligations.RejectedSendChangesNothing : Prop :=
  ∀ (s : State) (id : Byte) (payload : Bytes), (s.e.phase = .idle ∨ s.e.phase = .handler) →
    let rejected : Event → State := fun ev => { s with response := .send .rejected, events := s.events ++ [ev] }
    (s.e.txCur < s.e.txLen → exec (.txSend id payload) s = .next (rejected .txBusy)) ∧
    (s.e.txLen ≤ s.e.txCur → s.cfg.txPayloadMax < payload.length →
      exec (.txSend id payload) s = .next (rejected .txLen)) ∧
    (s.e.txLen ≤ s.e.txCur → payload.length ≤ s.cfg.txPayloadMax →
      s.cfg.txBufCap < (slipEnc s.cfg (id :: payload ++ [ck8 s.cfg (id :: payload)]) true true).length →
      exec (.txSend id payload) s = .next (rejected .txCap))

/-- R151: an accepted TX.SEND stores the encoded frame of identifier, payload and checksum from index 0, sets the length and
zeroes the cursor; every byte of TXFRAME beyond the frame and everything else is as before. -/
def Obligations.AcceptedSendStoresTheFrame : Prop :=
  ∀ (s : State) (id : Byte) (payload enc : Bytes), (s.e.phase = .idle ∨ s.e.phase = .handler) →
    s.e.txLen ≤ s.e.txCur → payload.length ≤ s.cfg.txPayloadMax →
    enc = slipEnc s.cfg (id :: payload ++ [ck8 s.cfg (id :: payload)]) true true → enc.length ≤ s.cfg.txBufCap →
    ∃ t, exec (.txSend id payload) s = .next t ∧
      t = { s with e := { s.e with txBuf := t.e.txBuf, txLen := enc.length, txCur := 0 }, response := .send .accepted } ∧
      buffered t.e = enc ∧ 4 ≤ t.e.txLen ∧
      ∀ a, enc.length ≤ a → t.e.txBuf.read a = s.e.txBuf.read a

/-- R154: with a payload within the limit, the encoded frame passes 260 bytes only when the payload has 128 bytes and at least
129 of the 130 frame bytes are marker values. -/
def Obligations.CapacityRejectionIsRare : Prop :=
  ∀ (c : Config) (id : Byte) (payload f : Bytes), c.MarkersDistinct → payload.length ≤ 128 →
    f = id :: payload ++ [ck8 c (id :: payload)] →
    (slipEnc c f true true).length = payload.length + 2 + (f.count c.endByte + f.count c.escByte) + 2 ∧
    (260 < (slipEnc c f true true).length ↔ payload.length = 128 ∧ 129 ≤ f.count c.endByte + f.count c.escByte)

/-- R152: TX.DRAIN. With nothing in flight no write is made; otherwise it offers the bytes from the cursor forward, at most
`TX_CHUNK_MAX`; `error` takes none; a count taken advances the cursor and goes to OUTBOUND; at the length both return to 0. -/
def Obligations.DrainOffersFromTheCursor : Prop :=
  ∀ s : State, s.e.Inv s.cfg → s.e.phase = .drain →
    (s.e.txLen ≤ s.e.txCur → exec .txDrain s = .next { s with response := .none }) ∧
    (s.e.txCur < s.e.txLen → s.nextWrite = .error →
      exec .txDrain s = .next { s with world := { s.world with writes := s.world.writes.tail }, response := .none,
                                       events := s.events ++ [.txStall] }) ∧
    (∀ w n, n = min s.cfg.txChunkMax (s.e.txLen - s.e.txCur) → s.e.txCur < s.e.txLen → s.nextWrite = .accepted w → w ≤ n →
      exec .txDrain s =
        .next { s with
          e := { s.e with txLen := if s.e.txCur + w = s.e.txLen then 0 else s.e.txLen,
                          txCur := if s.e.txCur + w = s.e.txLen then 0 else s.e.txCur + w }
          world := { s.world with writes := s.world.writes.tail,
                                  outbound := s.world.outbound ++ (undrained s.e).take w }
          response := .none, events := s.events ++ (if w < n then [.txPartial] else []) })

/-- R46, R47, U4, U5: a read answer longer than was asked for, and a write count above what was offered, have no meaning. -/
def Obligations.AnswersOutsideTheirContractAreRefused : Prop :=
  (∀ s : State, s.e.phase = .rx → s.e.rxChunkPos = s.e.rxChunkLen → s.cfg.rxChunkMax < s.nextRead.length →
    exec .rxStep s = .refused .readTooLong) ∧
  ∀ (s : State) (w : Nat), s.e.Inv s.cfg → s.e.phase = .drain → s.e.txCur < s.e.txLen → s.nextWrite = .accepted w →
    min s.cfg.txChunkMax (s.e.txLen - s.e.txCur) < w → exec .txDrain s = .refused .writeTooLong

/-- R153, R156: while a frame is in flight every TX.SEND is rejected, and no operation but ENGINE.INIT and ENGINE.SHUTDOWN
changes the frame; no operation but these and TASK.CYCLE changes its length or its cursor; and the cursor only goes forward,
until TASK.CYCLE has drained the frame and both registers are 0. -/
def Obligations.FrameInFlightIsKeptUntilDrained : Prop :=
  ∀ (i : Instr) (s t : State), s.Inv → s.e.txCur < s.e.txLen → exec i s = .next t →
    i ≠ .engineInit → i ≠ .engineShutdown →
    (∀ id payload, i = .txSend id payload → t.response = .send .rejected) ∧
    t.e.txBuf = s.e.txBuf ∧
    (i ≠ .taskCycle → t.e.txLen = s.e.txLen ∧ t.e.txCur = s.e.txCur) ∧
    ((t.e.txLen = s.e.txLen ∧ s.e.txCur ≤ t.e.txCur ∧ t.e.txCur < t.e.txLen) ∨
     (i = .taskCycle ∧ t.e.txLen = 0 ∧ t.e.txCur = 0))

/-- R49: OUTBOUND stays whole encoded frames followed by what was taken of the frame in flight, under every operation but
ENGINE.INIT and ENGINE.SHUTDOWN. -/
def Obligations.OutboundStaysWholeFrames : Prop :=
  ∀ (i : Instr) (s t : State), s.Inv → OutboundWhole s → exec i s = .next t →
    i ≠ .engineInit → i ≠ .engineShutdown → OutboundWhole t

/-! ## The task loop and the system operations -/

/-- R171, R172: TASK.CYCLE is RX.STEP, on FRAME_COMPLETE CK8.VERIFY of the accumulated frame and then MUX.DISPATCH or
EV_BADSUM, then TX.DRAIN, each in its phase; the frame buffer is cleared exactly on FRAME_COMPLETE; phase IDLE. -/
def Obligations.TaskCycleRunsItsOperationsInOrder : Prop :=
  ∀ s : State, s.e.phase = .idle →
    exec .taskCycle s =
      andThen (exec .rxStep (s.withPhase .rx)) fun r =>
      andThen
        (if r.response = .rx .frameComplete then
          andThen (exec (.ck8Verify (accumulated r.e)) (r.withPhase .verify)) fun v =>
            if v.response = .bit true then exec .muxDispatch (v.withPhase .dispatch) else .next (v.raise .badSum)
        else .next r) fun u =>
      andThen (exec .txDrain (u.withPhase .drain)) fun d =>
        .next { d with
          e := { d.e with phase := .idle, rxLen := if r.response = .rx .frameComplete then 0 else d.e.rxLen }
          response := .none }

/-- TASK.CYCLE completes, and ends in phase IDLE with the invariant and the registry as before, whenever the transport keeps its
contracts and the handler, if one is invoked, returns (R171, R175). -/
def Obligations.TaskCycleCompletes : Prop :=
  ∀ s : State, s.Inv → (s.e.rxChunkPos = s.e.rxChunkLen → s.readKept) → s.nextBehaviour.returns = true →
    s.cycleWriteKept → ∃ t, exec .taskCycle s = .next t ∧ t.Inv ∧ t.cfg = s.cfg ∧ t.e.reg = s.e.reg ∧
      t.codec = s.codec ∧ t.world.requests = s.world.requests ∧ t.response = .none

/-- R178: every cycle raises exactly one receive-side event or ends in a handler call, with the length of the accumulated
frame as the table says, and then at most one event of the drain. -/
def Obligations.CycleOutcomes : Prop :=
  ∀ s t : State, s.Inv → exec .taskCycle s = .next t →
    ∃ receive drain : List Event,
      t.events = s.events ++ receive ++ drain ∧ drain ∈ [[], [Event.txPartial], [Event.txStall]] ∧
      ((receive = [.noData] ∧ t.e.rxLen = s.e.rxLen) ∨
       (receive = [.incomplete] ∧ s.e.rxLen ≤ t.e.rxLen) ∨
       (receive ∈ [[Event.malformed], [.oversize], [.badSum], [.noRoute]] ∧ t.e.rxLen = 0) ∨
       (∃ h payload sends, receive = .call h payload :: sends ∧ (∀ ev ∈ sends, ev ∈ [Event.txBusy, .txLen, .txCap]) ∧
        t.e.rxLen = 0))

/-- `95_test_vectors.md` P4 item 3 (R122, R133, R171): a handler is called only with the payload of a frame that RX.STEP
completed in this cycle, that passes CK8.VERIFY, and whose first byte names a slot that holds this handler. -/
def Obligations.HandlersSeeOnlyVerifiedRoutedFrames : Prop :=
  ∀ (s t : State) (h : Handler) (payload : Bytes),
    s.Inv → s.events = [] → exec .taskCycle s = .next t → Event.call h payload ∈ t.events →
    ∃ u id checksum, exec .rxStep (s.withPhase .rx) = .next u ∧ u.response = .rx .frameComplete ∧
      accumulated u.e = id :: payload ++ [checksum] ∧ ck8 s.cfg (id :: payload) = checksum ∧
      id.toNat ≤ s.cfg.protoMax.toNat ∧ slot s.e.reg id.toNat = some h ∧
      t.events.count (Event.call h payload) = 1

/-- R177 with the checksum left open: from a receive side with nothing pending, one read of an unescaped frame of identifier
`0x41` with a matching checksum calls the handler with `42 43` in that cycle; with another checksum byte it is dropped. No byte
of the frame is END or ESC, as none is under R10's values. -/
def Obligations.EndToEndScenario : Prop :=
  ∀ (s : State) (k : Byte) (h : Handler), s.Inv → s.e.rxLen = 0 → s.e.rxEsc = false →
    s.e.rxChunkPos = s.e.rxChunkLen → s.e.txCur = s.e.txLen → 6 ≤ s.cfg.rxChunkMax → 4 ≤ s.cfg.rxFrameCap →
    (∀ b ∈ [0x41#8, 0x42#8, 0x43#8, k], b ≠ s.cfg.endByte ∧ b ≠ s.cfg.escByte) →
    s.nextRead = [s.cfg.endByte, 0x41#8, 0x42#8, 0x43#8, k, s.cfg.endByte] → s.nextBehaviour = .done →
    0x41 ≤ s.cfg.protoMax.toNat → slot s.e.reg 0x41 = some h →
    ∃ t, exec .taskCycle s = .next t ∧
      t.events = s.events ++ [if ck8 s.cfg [0x41#8, 0x42#8, 0x43#8] = k then .call h [0x42#8, 0x43#8] else .badSum] ∧
      t.e.rxChunkLen = 6 ∧ t.e.rxChunkPos = 6 ∧ t.e.rxLen = 0 ∧ t.e.rxEsc = false ∧ t.e.txLen = 0 ∧ t.e.txCur = 0 ∧
      t.world.outbound = s.world.outbound

/-- R173: ENGINE.INIT zeroes every length, position, cursor and the escape flag, empties every slot, and leaves phase IDLE; it
touches no stream. That buffer contents stay is the model's (log entry 16). -/
def Obligations.InitEmptiesTheEngine : Prop :=
  ∀ s : State, s.e.phase = .idle →
    exec .engineInit s =
      .next { s with
        e := { s.e with rxChunkLen := 0, rxChunkPos := 0, rxLen := 0, rxEsc := false, reg := [], txLen := 0, txCur := 0,
                        phase := .idle }
        response := .none } ∧
    ∀ i, slot ([] : List (Nat × Handler)) i = none

/-- R174: ENGINE.SHUTDOWN has the same effect on E as ENGINE.INIT. -/
def Obligations.ShutdownActsAsInit : Prop :=
  ∀ s : State, s.e.phase = .idle →
    exec .engineShutdown s =
      .next { s with
        e := { s.e with rxChunkLen := 0, rxChunkPos := 0, rxLen := 0, rxEsc := false, reg := [], txLen := 0, txCur := 0,
                        phase := .idle }
        response := .none } ∧
    exec .engineShutdown s = exec .engineInit s

/-- R27, R9, R135: in phase HANDLER only TX.SEND has a meaning on the command interface, in the phases inside an operation
nothing has; RX.STEP, MUX.DISPATCH and TX.DRAIN run only in their own phase (R5). -/
def Obligations.RequestsOutsideTheirPhaseAreRefused : Prop :=
  (∀ (s : State) (i : Instr),
    (i = .engineInit ∨ i = .engineShutdown ∨ (∃ id h, i = .muxRegister id h) ∨ (∃ id, i = .muxUnregister id) ∨
      i = .taskCycle) →
    (s.e.phase = .handler → exec i s = .refused .requestInHandler) ∧
    (s.e.phase ≠ .idle → s.e.phase ≠ .handler → exec i s = .refused .requestInsideOperation)) ∧
  (∀ (s : State) (id : Byte) (payload : Bytes), s.e.phase ≠ .idle → s.e.phase ≠ .handler →
    exec (.txSend id payload) s = .refused .requestInsideOperation) ∧
  ∀ s : State,
    (s.e.phase ≠ .rx → exec .rxStep s = .refused .onlyInsideTaskCycle) ∧
    (s.e.phase ≠ .dispatch → exec .muxDispatch s = .refused .onlyInsideTaskCycle) ∧
    (s.e.phase ≠ .drain → exec .txDrain s = .refused .onlyInsideTaskCycle)

/-- R71, U11: the two reserved select codes are refused. -/
def Obligations.ReservedCodesAreRefused : Prop :=
  ∀ s : State, exec .reserved6 s = .refused .reservedCode ∧ exec .reserved7 s = .refused .reservedCode

/-! ## The machine -/

/-- A step runs the instruction the next request decodes to, with the request used up and response and events begun afresh
(R8; log entries 10, 11, 14). -/
def Obligations.StepRunsTheDecodedRequest : Prop :=
  ∀ (s : State) (r : Request) (rest : List Request) (i : Instr),
    s.world.requests = r :: rest → decode s.cfg (r.port.format s.codec.esc) r.bytes = .ok i →
    step s = exec i { s with world := { s.world with requests := rest }, response := .none, events := [] }

/-- With no request pending the engine does nothing (R215, log entry 14); a request that decodes to nothing is refused. -/
def Obligations.StepWithoutAnInstruction : Prop :=
  (∀ s : State, s.world.requests = [] → step s = .next s) ∧
  ∀ (s : State) (r : Request) (rest : List Request) (e : DecodeError),
    s.world.requests = r :: rest → decode s.cfg (r.port.format s.codec.esc) r.bytes = .error e →
    step s = .refused (.undecodable e)

/-- R30, R10: the state at reset: every length, position, cursor and the escape flag 0, every slot empty, phase IDLE, nothing in
flight; the nine parameters of R10 at their values; and the invariant. `PROTO_MAX`, CK8 and the buffers there are the model's
(log entries 2 and 4). -/
def Obligations.ResetStateMeetsTheInvariant : Prop :=
  State.reset.Inv ∧ State.reset.e.rxChunkLen = 0 ∧ State.reset.e.rxChunkPos = 0 ∧ State.reset.e.rxLen = 0 ∧
  State.reset.e.rxEsc = false ∧ (∀ i, slot State.reset.e.reg i = none) ∧ State.reset.e.txLen = 0 ∧
  State.reset.e.txCur = 0 ∧ State.reset.e.phase = .idle ∧ OutboundWhole State.reset ∧
  State.reset.cfg.endByte = 0xC0#8 ∧ State.reset.cfg.escByte = 0xDB#8 ∧ State.reset.cfg.escEndByte = 0xDC#8 ∧
  State.reset.cfg.escEscByte = 0xDD#8 ∧ State.reset.cfg.rxChunkMax = 64 ∧ State.reset.cfg.rxFrameCap = 128 ∧
  State.reset.cfg.txPayloadMax = 128 ∧ State.reset.cfg.txBufCap = 260 ∧ State.reset.cfg.txChunkMax = 64

/-- R31: every step keeps the invariants. -/
def Obligations.EveryStepKeepsTheInvariant : Prop :=
  ∀ s t : State, s.Inv → step s = .next t → t.Inv

/-- R41: no step from a state that meets the invariant reads beyond a buffer's capacity, and none changes a byte of a buffer
there. In the model only such a read is a fault (log entry 18), a store has none: so stores are stated by the bytes. -/
def Obligations.NoAccessIsOutOfBounds : Prop :=
  ∀ s : State, s.Inv → step s ≠ .fault .outOfBounds ∧
    ∀ t, step s = .next t →
      (∀ a, s.cfg.rxChunkMax ≤ a → t.e.rxChunk.read a = s.e.rxChunk.read a) ∧
      (∀ a, s.cfg.rxFrameCap ≤ a → t.e.rxBuf.read a = s.e.rxBuf.read a) ∧
      (∀ a, s.cfg.txBufCap ≤ a → t.e.txBuf.read a = s.e.txBuf.read a)

/-- R32: the parameters are not state: no operation changes the configuration. -/
def Obligations.ConfigurationNeverChanges : Prop :=
  ∀ (i : Instr) (s t : State), exec i s = .next t → t.cfg = s.cfg

/-- R5: the pure functions and the rows of the formats touch no engine state and no stream, in any phase. -/
def Obligations.PureOperationsTouchNoEngineState : Prop :=
  ∀ (i : Instr) (s : State),
    (i.format ≠ .op ∨ (∃ src p a, i = .slipEnc src p a) ∨ (∃ buf, i = .slipSfe buf) ∨ (∃ e src, i = .slipDec e src) ∨
      (∃ data, i = .ck8Compute data) ∨ ∃ f, i = .ck8Verify f) →
    ∃ t, exec i s = .next t ∧ t.e = s.e ∧ t.world = s.world ∧ t.cfg = s.cfg ∧ t.events = s.events

/-- R176 item 3: the drain does not depend on the receive side: two states that agree on the transmit registers and buffer, on
the write answers and on the configuration take the same bytes and keep the same transmit registers. -/
def Obligations.DrainIgnoresTheReceiveSide : Prop :=
  ∀ s t s' : State, s.cfg = t.cfg → s.e.phase = t.e.phase → s.e.txBuf = t.e.txBuf → s.e.txLen = t.e.txLen →
    s.e.txCur = t.e.txCur → s.world.writes = t.world.writes → exec .txDrain s = .next s' →
    ∃ t' taken, exec .txDrain t = .next t' ∧ t'.e.txLen = s'.e.txLen ∧ t'.e.txCur = s'.e.txCur ∧
      s'.world.outbound = s.world.outbound ++ taken ∧ t'.world.outbound = t.world.outbound ++ taken

/-- R176 item 1, R50 item 2: a frame that the handler invoked in a cycle sends is offered to the transport in the same cycle,
up to `TX_CHUNK_MAX` bytes of it. -/
def Obligations.ReplyLeavesInTheSameCycle : Prop :=
  ∀ (s u : State) (h : Handler) (request : Bytes) (id : Byte) (payload f : Bytes) (w : Nat),
    s.Inv → s.e.txCur = s.e.txLen → s.events = [] → receiveHalf s = .next u → Event.call h request ∈ u.events →
    s.nextBehaviour = .send id payload .done .done → payload.length ≤ s.cfg.txPayloadMax →
    f = id :: payload ++ [ck8 s.cfg (id :: payload)] → (slipEnc s.cfg f true true).length ≤ s.cfg.txBufCap →
    s.nextWrite = .accepted w → w ≤ min s.cfg.txChunkMax (slipEnc s.cfg f true true).length →
    ∃ t, exec .taskCycle s = .next t ∧ t.world.outbound = s.world.outbound ++ (slipEnc s.cfg f true true).take w
end

