-- ==== Sys2Proof/Laws/State.lean ====
section
/-! SUPPORT. One lemma per field for each update of the state, true by rfl, so that no later proof unfolds an update. -/

namespace Sys2Proof.Machine

/-! `withPhase` -/

@[simp] theorem State.withPhase_cfg (s : State) (p : Phase) : (s.withPhase p).cfg = s.cfg := rfl
@[simp] theorem State.withPhase_e (s : State) (p : Phase) : (s.withPhase p).e = { s.e with phase := p } := rfl
@[simp] theorem State.withPhase_world (s : State) (p : Phase) : (s.withPhase p).world = s.world := rfl
@[simp] theorem State.withPhase_codec (s : State) (p : Phase) : (s.withPhase p).codec = s.codec := rfl
@[simp] theorem State.withPhase_response (s : State) (p : Phase) : (s.withPhase p).response = s.response := rfl
@[simp] theorem State.withPhase_events (s : State) (p : Phase) : (s.withPhase p).events = s.events := rfl

/-! `raise` -/

@[simp] theorem State.raise_cfg (s : State) (ev : Event) : (s.raise ev).cfg = s.cfg := rfl
@[simp] theorem State.raise_e (s : State) (ev : Event) : (s.raise ev).e = s.e := rfl
@[simp] theorem State.raise_world (s : State) (ev : Event) : (s.raise ev).world = s.world := rfl
@[simp] theorem State.raise_codec (s : State) (ev : Event) : (s.raise ev).codec = s.codec := rfl
@[simp] theorem State.raise_response (s : State) (ev : Event) : (s.raise ev).response = s.response := rfl
@[simp] theorem State.raise_events (s : State) (ev : Event) : (s.raise ev).events = s.events ++ [ev] := rfl

/-! `respond` -/

@[simp] theorem State.respond_cfg (s : State) (r : Response) : (s.respond r).cfg = s.cfg := rfl
@[simp] theorem State.respond_e (s : State) (r : Response) : (s.respond r).e = s.e := rfl
@[simp] theorem State.respond_world (s : State) (r : Response) : (s.respond r).world = s.world := rfl
@[simp] theorem State.respond_codec (s : State) (r : Response) : (s.respond r).codec = s.codec := rfl
@[simp] theorem State.respond_response (s : State) (r : Response) : (s.respond r).response = r := rfl
@[simp] theorem State.respond_events (s : State) (r : Response) : (s.respond r).events = s.events := rfl

/-! `storeChunk` -/

@[simp] theorem State.storeChunk_cfg (s : State) (c : Bytes) : (s.storeChunk c).cfg = s.cfg := rfl
@[simp] theorem State.storeChunk_e (s : State) (c : Bytes) : (s.storeChunk c).e = { s.e with rxChunk := memWrite s.e.rxChunk 0 c, rxChunkLen := c.length, rxChunkPos := 0 } := rfl
@[simp] theorem State.storeChunk_world (s : State) (c : Bytes) : (s.storeChunk c).world = s.world := rfl
@[simp] theorem State.storeChunk_codec (s : State) (c : Bytes) : (s.storeChunk c).codec = s.codec := rfl
@[simp] theorem State.storeChunk_response (s : State) (c : Bytes) : (s.storeChunk c).response = s.response := rfl
@[simp] theorem State.storeChunk_events (s : State) (c : Bytes) : (s.storeChunk c).events = s.events := rfl

/-! `withPos` -/

@[simp] theorem State.withPos_cfg (s : State) (p : Nat) : (s.withPos p).cfg = s.cfg := rfl
@[simp] theorem State.withPos_e (s : State) (p : Nat) : (s.withPos p).e = { s.e with rxChunkPos := p } := rfl
@[simp] theorem State.withPos_world (s : State) (p : Nat) : (s.withPos p).world = s.world := rfl
@[simp] theorem State.withPos_codec (s : State) (p : Nat) : (s.withPos p).codec = s.codec := rfl
@[simp] theorem State.withPos_response (s : State) (p : Nat) : (s.withPos p).response = s.response := rfl
@[simp] theorem State.withPos_events (s : State) (p : Nat) : (s.withPos p).events = s.events := rfl

/-! `appendFrame` -/

@[simp] theorem State.appendFrame_cfg (s : State) (out : Bytes) (esc : Bool) : (s.appendFrame out esc).cfg = s.cfg := rfl
@[simp] theorem State.appendFrame_e (s : State) (out : Bytes) (esc : Bool) : (s.appendFrame out esc).e = { s.e with rxBuf := memWrite s.e.rxBuf s.e.rxLen out, rxLen := s.e.rxLen + out.length, rxEsc := esc } := rfl
@[simp] theorem State.appendFrame_world (s : State) (out : Bytes) (esc : Bool) : (s.appendFrame out esc).world = s.world := rfl
@[simp] theorem State.appendFrame_codec (s : State) (out : Bytes) (esc : Bool) : (s.appendFrame out esc).codec = s.codec := rfl
@[simp] theorem State.appendFrame_response (s : State) (out : Bytes) (esc : Bool) : (s.appendFrame out esc).response = s.response := rfl
@[simp] theorem State.appendFrame_events (s : State) (out : Bytes) (esc : Bool) : (s.appendFrame out esc).events = s.events := rfl

/-! `discardFrame` -/

@[simp] theorem State.discardFrame_cfg (s : State) : (s.discardFrame).cfg = s.cfg := rfl
@[simp] theorem State.discardFrame_e (s : State) : (s.discardFrame).e = { s.e with rxLen := 0, rxEsc := false } := rfl
@[simp] theorem State.discardFrame_world (s : State) : (s.discardFrame).world = s.world := rfl
@[simp] theorem State.discardFrame_codec (s : State) : (s.discardFrame).codec = s.codec := rfl
@[simp] theorem State.discardFrame_response (s : State) : (s.discardFrame).response = s.response := rfl
@[simp] theorem State.discardFrame_events (s : State) : (s.discardFrame).events = s.events := rfl

/-! `clearFrame` -/

@[simp] theorem State.clearFrame_cfg (s : State) : (s.clearFrame).cfg = s.cfg := rfl
@[simp] theorem State.clearFrame_e (s : State) : (s.clearFrame).e = { s.e with rxLen := 0 } := rfl
@[simp] theorem State.clearFrame_world (s : State) : (s.clearFrame).world = s.world := rfl
@[simp] theorem State.clearFrame_codec (s : State) : (s.clearFrame).codec = s.codec := rfl
@[simp] theorem State.clearFrame_response (s : State) : (s.clearFrame).response = s.response := rfl
@[simp] theorem State.clearFrame_events (s : State) : (s.clearFrame).events = s.events := rfl

/-! `storeFrame` -/

@[simp] theorem State.storeFrame_cfg (s : State) (enc : Bytes) : (s.storeFrame enc).cfg = s.cfg := rfl
@[simp] theorem State.storeFrame_e (s : State) (enc : Bytes) : (s.storeFrame enc).e = { s.e with txBuf := memWrite s.e.txBuf 0 enc, txLen := enc.length, txCur := 0 } := rfl
@[simp] theorem State.storeFrame_world (s : State) (enc : Bytes) : (s.storeFrame enc).world = s.world := rfl
@[simp] theorem State.storeFrame_codec (s : State) (enc : Bytes) : (s.storeFrame enc).codec = s.codec := rfl
@[simp] theorem State.storeFrame_response (s : State) (enc : Bytes) : (s.storeFrame enc).response = s.response := rfl
@[simp] theorem State.storeFrame_events (s : State) (enc : Bytes) : (s.storeFrame enc).events = s.events := rfl

/-! `restart` -/

@[simp] theorem State.restart_cfg (s : State) : (s.restart).cfg = s.cfg := rfl
@[simp] theorem State.restart_e (s : State) : (s.restart).e = { s.e with rxChunkLen := 0, rxChunkPos := 0, rxLen := 0, rxEsc := false, reg := [], txLen := 0, txCur := 0, phase := .idle } := rfl
@[simp] theorem State.restart_world (s : State) : (s.restart).world = s.world := rfl
@[simp] theorem State.restart_codec (s : State) : (s.restart).codec = s.codec := rfl
@[simp] theorem State.restart_response (s : State) : (s.restart).response = s.response := rfl
@[simp] theorem State.restart_events (s : State) : (s.restart).events = s.events := rfl

/-! `dropRead` -/

@[simp] theorem State.dropRead_cfg (s : State) : (s.dropRead).cfg = s.cfg := rfl
@[simp] theorem State.dropRead_e (s : State) : (s.dropRead).e = s.e := rfl
@[simp] theorem State.dropRead_world (s : State) : (s.dropRead).world = { s.world with reads := s.world.reads.tail } := rfl
@[simp] theorem State.dropRead_codec (s : State) : (s.dropRead).codec = s.codec := rfl
@[simp] theorem State.dropRead_response (s : State) : (s.dropRead).response = s.response := rfl
@[simp] theorem State.dropRead_events (s : State) : (s.dropRead).events = s.events := rfl

/-! `dropWrite` -/

@[simp] theorem State.dropWrite_cfg (s : State) : (s.dropWrite).cfg = s.cfg := rfl
@[simp] theorem State.dropWrite_e (s : State) : (s.dropWrite).e = s.e := rfl
@[simp] theorem State.dropWrite_world (s : State) : (s.dropWrite).world = { s.world with writes := s.world.writes.tail } := rfl
@[simp] theorem State.dropWrite_codec (s : State) : (s.dropWrite).codec = s.codec := rfl
@[simp] theorem State.dropWrite_response (s : State) : (s.dropWrite).response = s.response := rfl
@[simp] theorem State.dropWrite_events (s : State) : (s.dropWrite).events = s.events := rfl

/-! `emit` -/

@[simp] theorem State.emit_cfg (s : State) (taken : Bytes) : (s.emit taken).cfg = s.cfg := rfl
@[simp] theorem State.emit_e (s : State) (taken : Bytes) : (s.emit taken).e = s.e := rfl
@[simp] theorem State.emit_world (s : State) (taken : Bytes) : (s.emit taken).world = { s.world with outbound := s.world.outbound ++ taken } := rfl
@[simp] theorem State.emit_codec (s : State) (taken : Bytes) : (s.emit taken).codec = s.codec := rfl
@[simp] theorem State.emit_response (s : State) (taken : Bytes) : (s.emit taken).response = s.response := rfl
@[simp] theorem State.emit_events (s : State) (taken : Bytes) : (s.emit taken).events = s.events := rfl

/-! `enterHandler` -/

@[simp] theorem State.enterHandler_cfg (s : State) (h : Handler) (payload : Bytes) : (s.enterHandler h payload).cfg = s.cfg := rfl
@[simp] theorem State.enterHandler_e (s : State) (h : Handler) (payload : Bytes) : (s.enterHandler h payload).e = { s.e with phase := .handler } := rfl
@[simp] theorem State.enterHandler_world (s : State) (h : Handler) (payload : Bytes) : (s.enterHandler h payload).world = { s.world with behaviours := s.world.behaviours.tail } := rfl
@[simp] theorem State.enterHandler_codec (s : State) (h : Handler) (payload : Bytes) : (s.enterHandler h payload).codec = s.codec := rfl
@[simp] theorem State.enterHandler_response (s : State) (h : Handler) (payload : Bytes) : (s.enterHandler h payload).response = s.response := rfl
@[simp] theorem State.enterHandler_events (s : State) (h : Handler) (payload : Bytes) : (s.enterHandler h payload).events = s.events ++ [.call h payload] := rfl

/-! `returnFromHandler` -/

@[simp] theorem State.returnFromHandler_cfg (s : State) : (s.returnFromHandler).cfg = s.cfg := rfl
@[simp] theorem State.returnFromHandler_e (s : State) : (s.returnFromHandler).e = { s.e with phase := .dispatch } := rfl
@[simp] theorem State.returnFromHandler_world (s : State) : (s.returnFromHandler).world = s.world := rfl
@[simp] theorem State.returnFromHandler_codec (s : State) : (s.returnFromHandler).codec = s.codec := rfl
@[simp] theorem State.returnFromHandler_response (s : State) : (s.returnFromHandler).response = s.response := rfl
@[simp] theorem State.returnFromHandler_events (s : State) : (s.returnFromHandler).events = s.events := rfl

/-! `beginOperation` -/

@[simp] theorem State.beginOperation_cfg (s : State) (rest : List Request) : (s.beginOperation rest).cfg = s.cfg := rfl
@[simp] theorem State.beginOperation_e (s : State) (rest : List Request) : (s.beginOperation rest).e = s.e := rfl
@[simp] theorem State.beginOperation_world (s : State) (rest : List Request) : (s.beginOperation rest).world = { s.world with requests := rest } := rfl
@[simp] theorem State.beginOperation_codec (s : State) (rest : List Request) : (s.beginOperation rest).codec = s.codec := rfl
@[simp] theorem State.beginOperation_response (s : State) (rest : List Request) : (s.beginOperation rest).response = .none := rfl
@[simp] theorem State.beginOperation_events (s : State) (rest : List Request) : (s.beginOperation rest).events = [] := rfl

/-! `advanceCursor` -/

@[simp] theorem State.advanceCursor_cfg (s : State) (w : Nat) : (s.advanceCursor w).cfg = s.cfg := rfl
@[simp] theorem State.advanceCursor_e (s : State) (w : Nat) :
    (s.advanceCursor w).e =
      if s.e.txCur + w = s.e.txLen then { s.e with txLen := 0, txCur := 0 } else { s.e with txCur := s.e.txCur + w } := rfl
@[simp] theorem State.advanceCursor_world (s : State) (w : Nat) : (s.advanceCursor w).world = s.world := rfl
@[simp] theorem State.advanceCursor_codec (s : State) (w : Nat) : (s.advanceCursor w).codec = s.codec := rfl
@[simp] theorem State.advanceCursor_response (s : State) (w : Nat) : (s.advanceCursor w).response = s.response := rfl
@[simp] theorem State.advanceCursor_events (s : State) (w : Nat) : (s.advanceCursor w).events = s.events := rfl

end Sys2Proof.Machine
end

