-- ==== Sys2Proof/Laws/Memory.lean ====
section
/-! SUPPORT. The laws of the byte spaces and of the registry: read after write, everything else left alone, and the
canonical form kept by every operation. -/

namespace Sys2Proof.Machine

/-! ## Lists kept by rising index -/

theorem mem_insertAt {α : Type} {a : Nat} {v : α} {m : List (Nat × α)} {c : Nat × α} (h : c ∈ insertAt a v m) :
    c = (a, v) ∨ c ∈ m := by
  induction m with
  | nil => simpa [insertAt] using h
  | cons d rest ih =>
    simp only [insertAt] at h
    split at h
    · simpa using h
    · split at h
      · rcases List.mem_cons.1 h with h | h
        · exact .inl h
        · exact .inr (List.mem_cons_of_mem _ h)
      · rcases List.mem_cons.1 h with h | h
        · exact .inr (h ▸ List.mem_cons_self)
        · exact (ih h).imp id (List.mem_cons_of_mem _)

theorem pairwise_insertAt {α : Type} {a : Nat} {v : α} {m : List (Nat × α)}
    (h : m.Pairwise fun c d => c.1 < d.1) : (insertAt a v m).Pairwise fun c d => c.1 < d.1 := by
  induction m with
  | nil => simp [insertAt]
  | cons d rest ih =>
    obtain ⟨hd, hr⟩ := List.pairwise_cons.1 h
    simp only [insertAt]
    split
    next hlt =>
      refine List.pairwise_cons.2 ⟨fun c hc => ?_, h⟩
      rcases List.mem_cons.1 hc with rfl | hc
      · exact hlt
      · exact Nat.lt_trans hlt (hd c hc)
    next hge =>
      split
      next heq => exact List.pairwise_cons.2 ⟨fun c hc => by simpa [heq] using hd c hc, hr⟩
      next hne =>
        refine List.pairwise_cons.2 ⟨fun c hc => ?_, ih hr⟩
        rcases mem_insertAt hc with rfl | hc
        · show d.1 < a
          omega
        · exact hd c hc

theorem mem_removeAt {α : Type} {a : Nat} {m : List (Nat × α)} {c : Nat × α} (h : c ∈ removeAt a m) : c ∈ m :=
  List.mem_of_mem_filter h

theorem pairwise_removeAt {α : Type} {a : Nat} {m : List (Nat × α)}
    (h : m.Pairwise fun c d => c.1 < d.1) : (removeAt a m).Pairwise fun c d => c.1 < d.1 :=
  h.filter _

/-! ## One byte -/

@[simp] theorem Memory.read_nil (a : Nat) : Memory.read [] a = Memory.unlisted := rfl

theorem Memory.read_insertAt (m : Memory) (a : Nat) (b : Byte) (i : Nat) :
    Memory.read (insertAt a b m) i = if i = a then b else m.read i := by
  induction m with
  | nil => simp [insertAt, Memory.read, eq_comm]
  | cons d rest ih =>
    simp only [insertAt]
    split
    next => simp [Memory.read, eq_comm]
    next =>
      split
      next h =>
        have h' : d.1 = i ↔ i = a := by omega
        have h'' : a = i ↔ i = a := eq_comm
        by_cases hi : i = a <;> simp [Memory.read, h', h'', hi]
      next h =>
        simp only [Memory.read, ih]
        by_cases hd : d.1 = i
        · have : ¬i = a := by omega
          simp [hd, this]
        · simp [hd]

theorem Memory.read_removeAt (m : Memory) (a i : Nat) :
    Memory.read (removeAt a m) i = if i = a then Memory.unlisted else m.read i := by
  unfold removeAt
  induction m with
  | nil => simp
  | cons d rest ih =>
    by_cases hd : d.1 = a
    · by_cases hi : i = a
      · simpa [List.filter_cons, hd, hi] using ih
      · have : ¬a = i := fun h => hi h.symm
        simpa [List.filter_cons, hd, hi, Memory.read, this] using ih
    · by_cases hdi : d.1 = i
      · have : ¬i = a := by omega
        simp [Memory.read, hdi, this]
      · simpa [List.filter_cons, hd, Memory.read, hdi] using ih

/-- Read after write: the byte stored, and every other index as before. -/
theorem Memory.read_write (m : Memory) (a : Nat) (b : Byte) (i : Nat) :
    (m.write a b).read i = if i = a then b else m.read i := by
  unfold Memory.write
  split
  next h => rw [Memory.read_removeAt, h]
  next => rw [Memory.read_insertAt]

theorem Memory.wf_write {m : Memory} (h : m.wf) (a : Nat) (b : Byte) : (m.write a b).wf := by
  unfold Memory.write
  split
  · exact ⟨pairwise_removeAt h.1, fun c hc => h.2 c (mem_removeAt hc)⟩
  next hb =>
    refine ⟨pairwise_insertAt h.1, fun c hc => ?_⟩
    rcases mem_insertAt hc with rfl | hc
    · exact hb
    · exact h.2 c hc

/-- A space that lists nothing at or beyond its capacity reads there as an unlisted index (`20_memory.md` R41). -/
theorem Memory.read_of_within {m : Memory} {cap a : Nat} (h : m.within cap) (ha : cap ≤ a) : m.read a = Memory.unlisted := by
  induction m with
  | nil => rfl
  | cons c r ih =>
    have hc := h c List.mem_cons_self
    unfold Memory.read
    rw [if_neg (by omega)]
    exact ih fun x hx => h x (List.mem_cons_of_mem _ hx)

theorem Memory.within_write {m : Memory} {cap a : Nat} (h : m.within cap) (ha : a < cap) (b : Byte) :
    (m.write a b).within cap := by
  unfold Memory.write
  split
  · exact fun c hc => h c (mem_removeAt hc)
  · intro c hc
    rcases mem_insertAt hc with rfl | hc
    · exact ha
    · exact h c hc

/-! ## Runs of bytes -/

theorem memWrite_wf {m : Memory} (h : m.wf) (a : Nat) (v : Bytes) : (memWrite m a v).wf := by
  induction v generalizing m a with
  | nil => exact h
  | cons b rest ih => exact ih (Memory.wf_write h a b) (a + 1)

theorem memWrite_within {m : Memory} {cap : Nat} (h : m.within cap) {a : Nat} {v : Bytes} (ha : a + v.length ≤ cap) :
    (memWrite m a v).within cap := by
  induction v generalizing m a with
  | nil => exact h
  | cons b rest ih =>
    simp only [List.length_cons] at ha
    exact ih (Memory.within_write h (by omega) b) (by omega)

/-- What a store of a run leaves: the run at its place, every other index as before. -/
theorem read_memWrite (m : Memory) (a : Nat) (v : Bytes) (i : Nat) :
    (memWrite m a v).read i = if h : a ≤ i ∧ i < a + v.length then v[i - a]'(by omega) else m.read i := by
  induction v generalizing m a with
  | nil =>
    have : ¬(a ≤ i ∧ i < a + ([] : Bytes).length) := by simp
    rw [dif_neg this]; rfl
  | cons b rest ih =>
    show (memWrite (m.write a b) (a + 1) rest).read i = _
    rw [ih, Memory.read_write]
    simp only [List.length_cons]
    by_cases hia : i = a
    · subst hia
      simp
    · by_cases h : a + 1 ≤ i ∧ i < a + 1 + rest.length
      · have h' : a ≤ i ∧ i < a + (rest.length + 1) := by omega
        rw [dif_pos h, dif_pos h', List.getElem_cons]
        have : ¬i - a = 0 := by omega
        rw [dif_neg this]
        simp only [Nat.sub_sub]
      · have h' : ¬(a ≤ i ∧ i < a + (rest.length + 1)) := by omega
        rw [dif_neg h, dif_neg h', if_neg hia]

@[simp] theorem length_bytesAt (m : Memory) (a n : Nat) : (bytesAt m a n).length = n := by
  induction n generalizing a with
  | zero => rfl
  | succ n ih => simp [bytesAt, ih]

theorem getElem_bytesAt (m : Memory) (a n i : Nat) (h : i < (bytesAt m a n).length) :
    (bytesAt m a n)[i] = m.read (a + i) := by
  induction n generalizing a i with
  | zero => simp at h
  | succ n ih =>
    cases i with
    | zero => rfl
    | succ i =>
      simp only [bytesAt, List.getElem_cons_succ, ih]
      congr 1
      omega

theorem bytesAt_congr {m m' : Memory} {a n : Nat} (h : ∀ i, a ≤ i → i < a + n → m.read i = m'.read i) :
    bytesAt m a n = bytesAt m' a n := by
  refine List.ext_getElem (by simp) fun i h1 h2 => ?_
  simp only [length_bytesAt] at h1
  rw [getElem_bytesAt, getElem_bytesAt]
  exact h _ (by omega) (by omega)

/-- Reading back a run just stored. -/
theorem bytesAt_memWrite_same (m : Memory) (a : Nat) (v : Bytes) : bytesAt (memWrite m a v) a v.length = v := by
  refine List.ext_getElem (by simp) fun i h1 h2 => ?_
  rw [getElem_bytesAt, read_memWrite, dif_pos ⟨by omega, by omega⟩]
  simp

/-- A run read as two runs. -/
theorem bytesAt_add (m : Memory) (a n k : Nat) : bytesAt m a (n + k) = bytesAt m a n ++ bytesAt m (a + n) k := by
  induction n generalizing a with
  | zero => simp [bytesAt]
  | succ n ih =>
    rw [Nat.add_right_comm]
    simp only [bytesAt, ih, List.cons_append]
    rw [Nat.add_assoc a 1 n, Nat.add_comm 1 n]

/-- The filled part of a space after an append (R101 step 4). -/
theorem bytesAt_append (m : Memory) (n : Nat) (v : Bytes) :
    bytesAt (memWrite m n v) 0 (n + v.length) = bytesAt m 0 n ++ v := by
  rw [bytesAt_add, Nat.zero_add, bytesAt_memWrite_same]
  congr 1
  refine bytesAt_congr fun i _ hi => ?_
  rw [read_memWrite, dif_neg (by omega)]

theorem memRead_eq_some {m : Memory} {cap a n : Nat} (h : a + n ≤ cap) : memRead m cap a n = some (bytesAt m a n) :=
  if_pos h

/-! ## The registry -/

theorem slot_insertAt (reg : List (Nat × Handler)) (a : Nat) (h : Handler) (i : Nat) :
    slot (insertAt a h reg) i = if i = a then some h else slot reg i := by
  induction reg with
  | nil => simp [insertAt, slot, eq_comm]
  | cons d rest ih =>
    simp only [insertAt]
    split
    next => simp [slot, eq_comm]
    next =>
      split
      next h =>
        have h' : d.1 = i ↔ i = a := by omega
        have h'' : a = i ↔ i = a := eq_comm
        by_cases hi : i = a <;> simp [slot, h', h'', hi]
      next h =>
        simp only [slot, ih]
        by_cases hd : d.1 = i
        · have : ¬i = a := by omega
          simp [hd, this]
        · simp [hd]

theorem slot_removeAt (reg : List (Nat × Handler)) (a i : Nat) :
    slot (removeAt a reg) i = if i = a then none else slot reg i := by
  unfold removeAt
  induction reg with
  | nil => simp [slot]
  | cons d rest ih =>
    by_cases hd : d.1 = a
    · by_cases hi : i = a
      · simpa [List.filter_cons, hd, hi] using ih
      · have : ¬a = i := fun h => hi h.symm
        simpa [List.filter_cons, hd, hi, slot, this] using ih
    · by_cases hdi : d.1 = i
      · have : ¬i = a := by omega
        simp [slot, hdi, this]
      · simpa [List.filter_cons, hd, slot, hdi] using ih

end Sys2Proof.Machine
end

