-- ==== Sys2Proof/Laws/Ops.lean ====
section
/-! SUPPORT. What each shared operation can do, said once: the sequencing and phase guards, TX.SEND, a handler's run,
MUX.DISPATCH, TX.DRAIN and RX.STEP. Later proofs cite these instead of unfolding the operations. -/

namespace Sys2Proof.Machine

/-! ## Sequencing and guards -/

@[simp] theorem andThen_next_left (s : State) (k : State → Result) : andThen (.next s) k = k s := rfl

theorem andThen_eq_next {r : Result} {k : State → Result} {t : State} :
    andThen r k = .next t ↔ ∃ s, r = .next s ∧ k s = .next t := by
  cases r <;> simp [andThen]

theorem andThen_eq_fault {r : Result} {k : State → Result} {f : Fault} :
    andThen r k = .fault f ↔ r = .fault f ∨ ∃ s, r = .next s ∧ k s = .fault f := by
  cases r <;> simp [andThen]

theorem andThen_assoc (r : Result) (k l : State → Result) :
    andThen (andThen r k) l = andThen r fun s => andThen (k s) l := by
  cases r <;> rfl

theorem whenIdle_of_idle {s : State} (h : s.e.phase = .idle) (k : Result) : whenIdle s k = k := by
  simp [whenIdle, h]

theorem whenIdle_eq_next {s t : State} {k : Result} : whenIdle s k = .next t ↔ s.e.phase = .idle ∧ k = .next t := by
  unfold whenIdle; cases s.e.phase <;> simp

theorem whenIdle_eq_fault {s : State} {k : Result} {f : Fault} :
    whenIdle s k = .fault f ↔ s.e.phase = .idle ∧ k = .fault f := by
  unfold whenIdle; cases s.e.phase <;> simp

theorem whenIdleOrHandler_eq_next {s t : State} {k : Result} :
    whenIdleOrHandler s k = .next t ↔ (s.e.phase = .idle ∨ s.e.phase = .handler) ∧ k = .next t := by
  unfold whenIdleOrHandler; cases s.e.phase <;> simp

theorem whenPhase_of_phase {p : Phase} {s : State} (h : s.e.phase = p) (k : Result) : whenPhase p s k = k := if_pos h

theorem whenPhase_eq_next {p : Phase} {s t : State} {k : Result} :
    whenPhase p s k = .next t ↔ s.e.phase = p ∧ k = .next t := by
  unfold whenPhase; split <;> simp_all

@[simp] theorem inFlight_eq_true (e : Engine) : inFlight e = true ↔ e.txCur < e.txLen := by simp [inFlight]

@[simp] theorem chunkConsumed_eq_true (e : Engine) : chunkConsumed e = true ↔ e.rxChunkPos = e.rxChunkLen := by
  simp [chunkConsumed]

@[simp] theorem atFrameStart_eq_true (e : Engine) : atFrameStart e = true ↔ e.rxLen = 0 ∧ e.rxEsc = false := by
  simp [atFrameStart]

/-! ## The checksum (R123, R124) -/

theorem ck8Sum_append (a b : Bytes) : ck8Sum (a ++ b) = ck8Sum a + ck8Sum b := by
  induction a with
  | nil => simp [ck8Sum]
  | cons x r ih => simp [ck8Sum, ih, BitVec.add_assoc]

/-- Flipping a bit changes a byte. -/
theorem xor_bit_ne {j : Nat} (hj : j < 8) (b : Byte) : b ^^^ (1#8 <<< j) ≠ b := fun h => by
  have h1 : (1#8 <<< j) = 0#8 := by simpa [← BitVec.xor_assoc] using congrArg (b ^^^ ·) h
  interval_cases j <;> exact absurd h1 (by decide)

/-- The default checksum is single-bit-sensitive (R124 item 2). -/
theorem ck8Sum_singleBitSensitive : SingleBitSensitive ck8Sum := fun before after b j hj h => by
  simp only [ck8Sum_append, ck8Sum] at h
  exact xor_bit_ne hj b ((BitVec.add_left_inj _).1 ((BitVec.add_right_inj _).1 h))

/-! ## TX.SEND (R151) -/

/-- The four ways TX.SEND ends. -/
theorem txSend_cases (id : Byte) (payload : Bytes) (s : State) :
    (s.e.txCur < s.e.txLen ∧ txSend id payload s = rejectSend s .txBusy) ∨
    (s.e.txLen ≤ s.e.txCur ∧ s.cfg.txPayloadMax < payload.length ∧ txSend id payload s = rejectSend s .txLen) ∨
    (s.e.txLen ≤ s.e.txCur ∧ payload.length ≤ s.cfg.txPayloadMax ∧
      s.cfg.txBufCap < (encodedFrameOf s.cfg id payload).length ∧ txSend id payload s = rejectSend s .txCap) ∨
    (s.e.txLen ≤ s.e.txCur ∧ payload.length ≤ s.cfg.txPayloadMax ∧
      (encodedFrameOf s.cfg id payload).length ≤ s.cfg.txBufCap ∧
      txSend id payload s = (s.storeFrame (encodedFrameOf s.cfg id payload)).respond (.send .accepted)) := by
  unfold txSend
  simp only [inFlight_eq_true]
  by_cases h1 : s.e.txCur < s.e.txLen
  · exact .inl ⟨h1, if_pos h1⟩
  · rw [if_neg h1]
    by_cases h2 : s.cfg.txPayloadMax < payload.length
    · exact .inr (.inl ⟨by omega, h2, if_pos h2⟩)
    · rw [if_neg h2]
      by_cases h3 : s.cfg.txBufCap < (encodedFrameOf s.cfg id payload).length
      · exact .inr (.inr (.inl ⟨by omega, by omega, h3, if_pos h3⟩))
      · exact .inr (.inr (.inr ⟨by omega, by omega, by omega, if_neg h3⟩))

/-- An encoded frame has its two markers, its identifier and its checksum at least. -/
theorem four_le_length_encodedFrameOf (c : Config) (id : Byte) (payload : Bytes) :
    4 ≤ (encodedFrameOf c id payload).length := by
  have stuff_pos : ∀ d, 1 ≤ (stuff c d).length := fun d => by
    unfold stuff; split
    · simp
    · split <;> simp
  have h1 := stuff_pos id
  have h2 := stuff_pos (ck8 c (id :: payload))
  simp only [encodedFrameOf, decodedFrameOf, slipEnc, marker, List.length_append, List.cons_append, List.flatMap_cons,
    List.flatMap_append, List.length_cons, List.flatMap_nil, if_true, List.length_nil]
  omega

/-! ## A handler's run (R135) -/

/-- What a run of TX.SEND requests may change: the transmit registers and buffer, the response, and class (f) events. -/
structure OnlySends (s t : State) (sends : List Event) : Prop where
  state  : t = { s with e := { s.e with txBuf := t.e.txBuf, txLen := t.e.txLen, txCur := t.e.txCur },
                        response := t.response, events := s.events ++ sends }
  events : ∀ ev ∈ sends, ev ∈ [Event.txBusy, .txLen, .txCap]

theorem OnlySends.refl (s : State) : OnlySends s s [] := ⟨by simp, by simp⟩

theorem OnlySends.trans {s t u : State} {a b : List Event} (h : OnlySends s t a) (h' : OnlySends t u b) :
    OnlySends s u (a ++ b) := by
  refine ⟨?_, fun ev hev => ?_⟩
  · have h1 := h.state
    have h2 := h'.state
    rw [h1] at h2
    simpa using h2
  · rcases List.mem_append.1 hev with hev | hev
    · exact h.events ev hev
    · exact h'.events ev hev

theorem txSend_onlySends (id : Byte) (payload : Bytes) (s : State) : ∃ sends, OnlySends s (txSend id payload s) sends := by
  rcases txSend_cases id payload s with ⟨_, h⟩ | ⟨_, _, h⟩ | ⟨_, _, _, h⟩ | ⟨_, _, _, h⟩ <;> rw [h]
  · exact ⟨[.txBusy], rfl, by simp⟩
  · exact ⟨[.txLen], rfl, by simp⟩
  · exact ⟨[.txCap], rfl, by simp⟩
  · exact ⟨[], by simp [State.storeFrame, State.respond], by simp⟩

theorem runBehaviour_onlySends {b : Behaviour} {s t : State} (h : runBehaviour b s = .next t) :
    ∃ sends, OnlySends s t sends := by
  induction b generalizing s with
  | done => obtain rfl := Host.Outcome.next.inj h; exact ⟨[], .refl s⟩
  | send id payload acc rej iha ihr =>
    obtain ⟨a, ha⟩ := txSend_onlySends id payload s
    simp only [runBehaviour] at h
    split at h
    · obtain ⟨c, hc⟩ := iha h; exact ⟨a ++ c, ha.trans hc⟩
    · obtain ⟨c, hc⟩ := ihr h; exact ⟨a ++ c, ha.trans hc⟩
  | barred r => cases h
  | hang => cases h

/-- A behaviour that returns reaches a next state. -/
theorem runBehaviour_returns {b : Behaviour} (h : b.returns = true) (s : State) : ∃ t, runBehaviour b s = .next t := by
  induction b generalizing s with
  | done => exact ⟨s, rfl⟩
  | send id payload acc rej iha ihr =>
    simp only [Behaviour.returns, Bool.and_eq_true] at h
    simp only [runBehaviour]
    split
    · exact iha h.1 _
    · exact ihr h.2 _
  | barred r => simp [Behaviour.returns] at h
  | hang => simp [Behaviour.returns] at h

theorem runBehaviour_fault {b : Behaviour} {s : State} {f : Fault} (h : runBehaviour b s = .fault f) :
    f = .handlerNeverReturns := by
  induction b generalizing s with
  | done => cases h
  | send id payload acc rej iha ihr =>
    simp only [runBehaviour] at h
    split at h
    · exact iha h
    · exact ihr h
  | barred r => cases h
  | hang => cases h; rfl

/-- The answered sends of a handler lead where the run goes on (`43_multiplexer.md` R135). -/
theorem HandlerReaches.runBehaviour_eq {b rest : Behaviour} {s t : State} (h : HandlerReaches b s rest t) :
    runBehaviour b s = runBehaviour rest t := by
  induction h with
  | here => rfl
  | accepted id payload a r rest s u t h1 h2 _ ih =>
    obtain rfl := Host.Outcome.next.inj (whenIdleOrHandler_eq_next.1 h1).2
    simp only [runBehaviour]
    rw [if_pos h2, ih]
  | rejected id payload a r rest s u t h1 h2 _ ih =>
    obtain rfl := Host.Outcome.next.inj (whenIdleOrHandler_eq_next.1 h1).2
    simp only [runBehaviour]
    rw [if_neg (by simp [h2]), ih]

/-- TX.SEND keeps the phase and answers ACCEPTED or REJECTED (`44_transmit.md` R151). -/
theorem txSend_phase_response (id : Byte) (payload : Bytes) (s : State) :
    (txSend id payload s).e.phase = s.e.phase ∧
    ((txSend id payload s).response = .send .accepted ∨ (txSend id payload s).response = .send .rejected) := by
  rcases txSend_cases id payload s with ⟨-, h⟩ | ⟨-, -, h⟩ | ⟨-, -, -, h⟩ | ⟨-, -, -, h⟩ <;> rw [h] <;> simp [rejectSend]

/-- A run that answers a next state comes to the handler's return. -/
theorem handlerReaches_of_runBehaviour {b : Behaviour} {s t : State} (hp : s.e.phase = .handler)
    (h : runBehaviour b s = .next t) : HandlerReaches b s .done t := by
  induction b generalizing s with
  | done => obtain rfl := Host.Outcome.next.inj h; exact .here ..
  | send id payload a r iha ihr =>
    obtain ⟨h1, h2⟩ := txSend_phase_response id payload s
    have hx : exec (.txSend id payload) s = .next (txSend id payload s) := whenIdleOrHandler_eq_next.2 ⟨.inr hp, rfl⟩
    simp only [runBehaviour] at h
    split at h
    next ha => exact .accepted _ _ _ _ _ _ _ _ hx ha (iha (h1.trans hp) h)
    next ha => exact .rejected _ _ _ _ _ _ _ _ hx (h2.resolve_left ha) (ihr (h1.trans hp) h)
  | barred r => cases h
  | hang => cases h

/-- A handler's run: entry, sends, return. -/
theorem handlerInvoke_next {h : Handler} {payload : Bytes} {s t : State} (ht : handlerInvoke h payload s = .next t) :
    ∃ sends, t = { s with
        e := { s.e with txBuf := t.e.txBuf, txLen := t.e.txLen, txCur := t.e.txCur, phase := .dispatch }
        world := { s.world with behaviours := s.world.behaviours.tail }
        response := t.response, events := s.events ++ .call h payload :: sends } ∧
      ∀ ev ∈ sends, ev ∈ [Event.txBusy, .txLen, .txCap] := by
  obtain ⟨u, hu, hk⟩ := andThen_eq_next.1 ht
  obtain rfl := Host.Outcome.next.inj hk
  obtain ⟨sends, hs⟩ := runBehaviour_onlySends hu
  refine ⟨sends, ?_, hs.events⟩
  have := hs.state
  rw [this]
  simp [State.returnFromHandler, State.withPhase, State.enterHandler]

/-! ## MUX.DISPATCH (R133) -/

/-- A frame of identifier, payload and checksum, split by index (R66). -/
theorem frameFields_eq (id : Byte) (payload : Bytes) (checksum : Byte) :
    frameFields (id :: (payload ++ [checksum])) = some (id, payload, checksum) := by
  simp [frameFields]

theorem frameFields_eq_some {f : Bytes} {id : Byte} {payload : Bytes} {checksum : Byte}
    (h : frameFields f = some (id, payload, checksum)) : f = id :: (payload ++ [checksum]) := by
  cases f with
  | nil => cases h
  | cons a rest =>
    simp only [frameFields] at h
    split at h
    · cases h
    next c hc =>
      cases h
      obtain ⟨ys, rfl⟩ := List.getLast?_eq_some_iff.1 hc
      simp

/-- What MUX.DISPATCH does when it answers a next state. -/
theorem muxDispatch_next {s t : State} (h : muxDispatch s = .next t) :
    ∃ id payload checksum, accumulated s.e = id :: (payload ++ [checksum]) ∧ s.e.rxLen ≤ s.cfg.rxFrameCap ∧
      ((route s id = none ∧ t = s.raise .noRoute) ∨ ∃ g, route s id = some g ∧ handlerInvoke g payload s = .next t) := by
  unfold muxDispatch memRead at h
  simp only [Nat.zero_add] at h
  by_cases hc : s.e.rxLen ≤ s.cfg.rxFrameCap
  · rw [if_pos hc] at h
    simp only at h
    cases hf : frameFields (bytesAt s.e.rxBuf 0 s.e.rxLen) with
    | none => rw [hf] at h; cases h
    | some x =>
      obtain ⟨id, payload, checksum⟩ := x
      rw [hf] at h
      refine ⟨id, payload, checksum, frameFields_eq_some hf, hc, ?_⟩
      simp only at h
      cases hr : route s id with
      | none => rw [hr] at h; exact .inl ⟨rfl, (Host.Outcome.next.inj h).symm⟩
      | some g => rw [hr] at h; exact .inr ⟨g, rfl, h⟩
  · rw [if_neg hc] at h; cases h

/-- MUX.DISPATCH on a frame given by its fields. -/
theorem muxDispatch_of_frame {s : State} {id : Byte} {payload : Bytes} {checksum : Byte}
    (hc : s.e.rxLen ≤ s.cfg.rxFrameCap) (hf : accumulated s.e = id :: (payload ++ [checksum])) :
    muxDispatch s = match route s id with
      | none => .next (s.raise .noRoute)
      | some g => handlerInvoke g payload s := by
  unfold muxDispatch
  rw [memRead_eq_some (by omega)]
  have : bytesAt s.e.rxBuf 0 s.e.rxLen = id :: (payload ++ [checksum]) := hf
  cases hr : route s id <;> simp only [this, frameFields_eq, hr]

theorem route_eq_some {s : State} {id : Byte} {h : Handler} :
    route s id = some h ↔ id.toNat ≤ s.cfg.protoMax.toNat ∧ slot s.e.reg id.toNat = some h := by
  unfold route
  simp only [BitVec.lt_def]
  split <;> simp <;> omega

theorem route_eq_none {s : State} {id : Byte} :
    route s id = none ↔ s.cfg.protoMax.toNat < id.toNat ∨ slot s.e.reg id.toNat = none := by
  unfold route
  simp only [BitVec.lt_def]
  split <;> simp_all

/-! ## TX.DRAIN (R152) -/

/-- TX.DRAIN with a frame in flight and the cursor inside the buffer. -/
theorem txDrain_of_inFlight {s : State} (h : s.e.txCur < s.e.txLen) (hc : s.e.txLen ≤ s.cfg.txBufCap) :
    txDrain s = txAnswer s.dropWrite (bytesAt s.e.txBuf s.e.txCur (offerSize s)) s.nextWrite := by
  unfold txDrain
  rw [if_pos ((inFlight_eq_true _).2 h), memRead_eq_some (by unfold offerSize; omega)]

theorem txDrain_of_idle {s : State} (h : s.e.txLen ≤ s.e.txCur) : txDrain s = .next s := by
  unfold txDrain
  rw [if_neg (by simpa using h)]

/-- What TX.DRAIN does when it answers a next state: nothing in flight, `error`, or a count taken. -/
theorem txDrain_next {s t : State} (h : txDrain s = .next t) :
    (s.e.txLen ≤ s.e.txCur ∧ t = s) ∨
    (s.e.txCur < s.e.txLen ∧ s.nextWrite = .error ∧ t = s.dropWrite.raise .txStall) ∨
    ∃ w, s.e.txCur < s.e.txLen ∧ s.nextWrite = .accepted w ∧ w ≤ offerSize s ∧ s.e.txCur + offerSize s ≤ s.cfg.txBufCap ∧
      t = { (s.dropWrite.emit (bytesAt s.e.txBuf s.e.txCur w)).advanceCursor w with
            events := s.events ++ if w < offerSize s then [.txPartial] else [] } := by
  by_cases hf : s.e.txCur < s.e.txLen
  · by_cases hc : s.e.txCur + offerSize s ≤ s.cfg.txBufCap
    · have e1 : txDrain s = txAnswer s.dropWrite (bytesAt s.e.txBuf s.e.txCur (offerSize s)) s.nextWrite := by
        unfold txDrain; rw [if_pos ((inFlight_eq_true _).2 hf), memRead_eq_some hc]
      rw [e1] at h
      cases hw : s.nextWrite with
      | error => rw [hw] at h; exact .inr (.inl ⟨hf, rfl, (Host.Outcome.next.inj h).symm⟩)
      | accepted w =>
        rw [hw] at h
        simp only [txAnswer, length_bytesAt] at h
        split at h
        · cases h
        next hle =>
          have hle : w ≤ offerSize s := by omega
          refine .inr (.inr ⟨w, hf, rfl, hle, hc, ?_⟩)
          have htake : (bytesAt s.e.txBuf s.e.txCur (offerSize s)).take w = bytesAt s.e.txBuf s.e.txCur w := by
            obtain ⟨k, hk⟩ := Nat.exists_eq_add_of_le hle
            rw [hk, bytesAt_add, List.take_left' (length_bytesAt ..)]
          rw [htake] at h
          rw [← Host.Outcome.next.inj h]
          ext1 <;> split <;> simp
    · unfold txDrain memRead at h
      rw [if_pos ((inFlight_eq_true _).2 hf), if_neg hc] at h
      cases h
  · rw [txDrain_of_idle (by omega)] at h
    exact .inl ⟨by omega, (Host.Outcome.next.inj h).symm⟩

/-! ## RX.STEP (R101) -/

/-- RX.STEP by its first step: no data, an answer outside its contract, or work on the chunk. -/
theorem rxStep_eq (s : State) :
    rxStep s =
      if s.e.rxChunkPos = s.e.rxChunkLen ∧ s.nextRead = [] then .next (noFrame s.dropRead .noData)
      else if s.e.rxChunkPos = s.e.rxChunkLen ∧ s.cfg.rxChunkMax < s.nextRead.length then .refused .readTooLong
      else rxWork (afterFetch s) := by
  unfold rxStep afterFetch
  by_cases h : s.e.rxChunkPos = s.e.rxChunkLen
  · rw [if_pos ((chunkConsumed_eq_true _).2 h)]
    simp only [h, true_and, if_true]
    rfl
  · rw [if_neg (by simpa using h)]
    simp only [h, false_and, if_false]

/-- The three ways the decode and append of a span end. -/
theorem rxDecode_cases (s : State) (found : SfeResult) (span : Bytes) :
    (slipDec s.cfg s.e.rxEsc span = .malformed ∧ rxDecode s found span = noFrame s.discardFrame .malformed) ∨
    (∃ out esc, slipDec s.cfg s.e.rxEsc span = .ok out esc ∧ s.cfg.rxFrameCap < s.e.rxLen + out.length ∧
      rxDecode s found span = noFrame s.discardFrame .oversize) ∨
    ∃ out esc, slipDec s.cfg s.e.rxEsc span = .ok out esc ∧ s.e.rxLen + out.length ≤ s.cfg.rxFrameCap ∧
      rxDecode s found span = rxReport (s.appendFrame out esc) found := by
  unfold rxDecode
  cases hd : slipDec s.cfg s.e.rxEsc span with
  | malformed => exact .inl ⟨rfl, rfl⟩
  | ok out esc =>
    by_cases h : s.cfg.rxFrameCap < s.e.rxLen + out.length
    · exact .inr (.inl ⟨out, esc, rfl, h, if_pos h⟩)
    · exact .inr (.inr ⟨out, esc, rfl, by omega, if_neg h⟩)

/-- The position after steps 2 and 3, and what RX.STEP decodes from there. -/
theorem rxWork_eq {s : State} (h : s.e.rxChunkPos + (s.e.rxChunkLen - s.e.rxChunkPos) ≤ s.cfg.rxChunkMax) :
    rxWork s =
      let rem := (remainder s.e).drop (skipCount s.cfg s.e (remainder s.e))
      .next (rxDecode (s.withPos (s.e.rxChunkPos + skipCount s.cfg s.e (remainder s.e) + (spanOf s.cfg rem).length))
        (slipSfe s.cfg rem) (spanOf s.cfg rem)) := by
  unfold rxWork
  rw [memRead_eq_some h]
  rfl

theorem rxWork_next {s t : State} (h : rxWork s = .next t) :
    s.e.rxChunkPos + (s.e.rxChunkLen - s.e.rxChunkPos) ≤ s.cfg.rxChunkMax := by
  by_cases hc : s.e.rxChunkPos + (s.e.rxChunkLen - s.e.rxChunkPos) ≤ s.cfg.rxChunkMax
  · exact hc
  · unfold rxWork memRead at h
    rw [if_neg hc] at h
    cases h

end Sys2Proof.Machine
end

