-- ==== Sys2Proof/Laws/Slip.lean ====
section
/-! SUPPORT. The codec functions of `40_slip_codec.md`, one lemma per function and case, so that no later proof unfolds them. -/

namespace Sys2Proof.Machine

variable {c : Config}

/-! ## STUFF (R63) -/

@[simp] theorem stuff_endByte (c : Config) : stuff c c.endByte = [c.escByte, c.escEndByte] := if_pos rfl

theorem stuff_escByte (h : c.endByte ≠ c.escByte) : stuff c c.escByte = [c.escByte, c.escEscByte] :=
  (if_neg h.symm).trans (if_pos rfl)

theorem stuff_of_ne {d : Byte} (h : d ≠ c.endByte) (h' : d ≠ c.escByte) : stuff c d = [d] :=
  (if_neg h).trans (if_neg h')

/-- The three classes of a data byte, in the table's order. -/
theorem stuff_cases (c : Config) (d : Byte) :
    (d = c.endByte ∧ stuff c d = [c.escByte, c.escEndByte]) ∨
    (d ≠ c.endByte ∧ d = c.escByte ∧ stuff c d = [c.escByte, c.escEscByte]) ∨
    (d ≠ c.endByte ∧ d ≠ c.escByte ∧ stuff c d = [d]) := by
  by_cases h : d = c.endByte
  · exact .inl ⟨h, by rw [h, stuff_endByte]⟩
  · by_cases h' : d = c.escByte
    · exact .inr (.inl ⟨h, h', (if_neg h).trans (if_pos h')⟩)
    · exact .inr (.inr ⟨h, h', stuff_of_ne h h'⟩)

/-- The stuffed form never holds END (R63). -/
theorem endByte_notMem_stuffed (hc : c.MarkersDistinct) (x : Bytes) : c.endByte ∉ x.flatMap (stuff c) := by
  rw [List.mem_flatMap]
  rintro ⟨d, -, h⟩
  obtain ⟨h1, h2, h3, -⟩ := hc
  rcases stuff_cases c d with ⟨-, e⟩ | ⟨-, -, e⟩ | ⟨hd, -, e⟩ <;> rw [e] at h
  · simp [h1, h2] at h
  · simp [h1, h3] at h
  · exact hd (List.mem_singleton.1 h).symm

/-! ## SLIP.SFE (R84) -/

theorem slipSfe_of_notMem {a : Bytes} (h : c.endByte ∉ a) : slipSfe c a = .notFound := by
  induction a with
  | nil => rfl
  | cons d r ih =>
    have h1 : c.endByte ≠ d := fun e => h (e ▸ List.mem_cons_self)
    have h2 : c.endByte ∉ r := fun e => h (List.mem_cons_of_mem d e)
    have : slipSfe c (d :: r) = match slipSfe c r with | .found i => .found (i + 1) | .notFound => .notFound :=
      if_neg fun e => h1 e.symm
    rw [this, ih h2]

theorem slipSfe_append_end {a : Bytes} (h : c.endByte ∉ a) (b : Bytes) :
    slipSfe c (a ++ c.endByte :: b) = .found a.length := by
  induction a with
  | nil => exact if_pos rfl
  | cons d r ih =>
    have h1 : c.endByte ≠ d := fun e => h (e ▸ List.mem_cons_self)
    have h2 : c.endByte ∉ r := fun e => h (List.mem_cons_of_mem d e)
    have : slipSfe c (d :: (r ++ c.endByte :: b)) =
        match slipSfe c (r ++ c.endByte :: b) with | .found i => .found (i + 1) | .notFound => .notFound :=
      if_neg fun e => h1 e.symm
    rw [List.cons_append, this, ih h2]
    rfl

/-! ## SLIP.DEC (R86) -/

@[simp] theorem wireAction_true (c : Config) (b : Byte) : wireAction c true b = escapedAction c b := rfl

@[simp] theorem wireAction_false (c : Config) (b : Byte) : wireAction c false b = normalAction c b := rfl

@[simp] theorem normalAction_endByte (c : Config) : normalAction c c.endByte = .boundary := if_pos rfl

theorem normalAction_escByte (h : c.endByte ≠ c.escByte) : normalAction c c.escByte = .enterEscape :=
  (if_neg h.symm).trans (if_pos rfl)

theorem normalAction_of_ne {b : Byte} (h : b ≠ c.endByte) (h' : b ≠ c.escByte) : normalAction c b = .output b :=
  (if_neg h).trans (if_neg h')

@[simp] theorem escapedAction_escEndByte (c : Config) : escapedAction c c.escEndByte = .unescape c.endByte := if_pos rfl

theorem escapedAction_escEscByte (h : c.escEndByte ≠ c.escEscByte) :
    escapedAction c c.escEscByte = .unescape c.escByte :=
  (if_neg h.symm).trans (if_pos rfl)

theorem escapedAction_of_ne {b : Byte} (h : b ≠ c.escEndByte) (h' : b ≠ c.escEscByte) : escapedAction c b = .malformed :=
  (if_neg h).trans (if_neg h')

/-- Output put before the output of a decode. -/
def prependOut (out : Bytes) : DecResult → DecResult
  | .ok o e => .ok (out ++ o) e
  | .malformed => .malformed

@[simp] theorem prependOut_nil (r : DecResult) : prependOut [] r = r := by cases r <;> rfl

theorem foldl_decStep_malformed (c : Config) (src : Bytes) : src.foldl (decStep c) .malformed = .malformed := by
  induction src with
  | nil => rfl
  | cons b r ih => exact ih

/-- The decoder started with output already made. -/
theorem foldl_decStep (c : Config) (src out : Bytes) (e : Bool) :
    src.foldl (decStep c) (.ok out e) = prependOut out (slipDec c e src) := by
  induction src generalizing out e with
  | nil => simp [slipDec, prependOut]
  | cons b r ih =>
    simp only [slipDec, List.foldl_cons, decStep]
    cases h : wireAction c e b <;> simp only [List.nil_append]
    · rw [ih]; rfl
    · rw [ih]; rfl
    · rw [ih, ih [_]]; cases slipDec c e r <;> simp [prependOut]
    · rw [ih, ih [_]]; cases slipDec c false r <;> simp [prependOut]
    · rw [foldl_decStep_malformed]; rfl

/-- SLIP.DEC by its first byte (R86). -/
theorem slipDec_cons (c : Config) (e : Bool) (b : Byte) (r : Bytes) :
    slipDec c e (b :: r) = match wireAction c e b with
      | .boundary => slipDec c e r
      | .enterEscape => slipDec c true r
      | .output d => prependOut [d] (slipDec c e r)
      | .unescape d => prependOut [d] (slipDec c false r)
      | .malformed => .malformed := by
  have h : slipDec c e (b :: r) = r.foldl (decStep c) (decStep c (.ok [] e) b) := rfl
  rw [h, decStep]
  cases wireAction c e b <;> simp only [foldl_decStep, foldl_decStep_malformed, prependOut_nil, List.nil_append]

@[simp] theorem slipDec_nil (c : Config) (e : Bool) : slipDec c e [] = .ok [] e := rfl

theorem slipDec_escEnd (r : Bytes) :
    slipDec c true (c.escEndByte :: r) = prependOut [c.endByte] (slipDec c false r) := by
  simp only [slipDec_cons, wireAction_true, escapedAction_escEndByte]

theorem slipDec_escEsc (h : c.escEndByte ≠ c.escEscByte) (r : Bytes) :
    slipDec c true (c.escEscByte :: r) = prependOut [c.escByte] (slipDec c false r) := by
  simp only [slipDec_cons, wireAction_true, escapedAction_escEscByte h]

theorem slipDec_bad {b : Byte} (h : b ≠ c.escEndByte) (h' : b ≠ c.escEscByte) (r : Bytes) :
    slipDec c true (b :: r) = .malformed := by
  simp only [slipDec_cons, wireAction_true, escapedAction_of_ne h h']

theorem slipDec_end (r : Bytes) : slipDec c false (c.endByte :: r) = slipDec c false r := by
  simp only [slipDec_cons, wireAction_false, normalAction_endByte]

theorem slipDec_esc (h : c.endByte ≠ c.escByte) (r : Bytes) : slipDec c false (c.escByte :: r) = slipDec c true r := by
  simp only [slipDec_cons, wireAction_false, normalAction_escByte h]

theorem slipDec_literal {b : Byte} (h : b ≠ c.endByte) (h' : b ≠ c.escByte) (r : Bytes) :
    slipDec c false (b :: r) = prependOut [b] (slipDec c false r) := by
  simp only [slipDec_cons, wireAction_false, normalAction_of_ne h h']

/-- The splitting law (R87 item 2). -/
theorem slipDec_append (c : Config) (e : Bool) (a b : Bytes) :
    slipDec c e (a ++ b) = match slipDec c e a with
      | .ok out e1 => prependOut out (slipDec c e1 b)
      | .malformed => .malformed := by
  unfold slipDec
  rw [List.foldl_append]
  cases a.foldl (decStep c) (.ok [] e) with
  | ok out e1 => exact foldl_decStep ..
  | malformed => exact foldl_decStep_malformed c b

/-- Decoding the stuffed form of one byte (R87 item 3). -/
theorem slipDec_stuff (hc : c.MarkersDistinct) (d : Byte) : slipDec c false (stuff c d) = .ok [d] false := by
  obtain ⟨h1, -, -, -, -, h6⟩ := hc
  rcases stuff_cases c d with ⟨rfl, e⟩ | ⟨-, rfl, e⟩ | ⟨hd, hd', e⟩ <;> rw [e]
  · rw [slipDec_esc h1, slipDec_escEnd]; rfl
  · rw [slipDec_esc h1, slipDec_escEsc h6]; rfl
  · rw [slipDec_literal hd hd']; rfl

/-- Decoding the stuffed form of a sequence. -/
theorem slipDec_stuffed (hc : c.MarkersDistinct) (x : Bytes) : slipDec c false (x.flatMap (stuff c)) = .ok x false := by
  induction x with
  | nil => rfl
  | cons d r ih => rw [List.flatMap_cons, slipDec_append, slipDec_stuff hc]; simp only [ih]; rfl

end Sys2Proof.Machine
end

