-- ==== Sys2Proof/Laws/Receive.lean ====
section
/-! SUPPORT. RX.STEP in the words of Safety.lean: the bytes it works on, the span, the position after it (`41_rx_reassembler.md`
R102 to R105). -/

namespace Sys2Proof.Machine

variable {c : Config}

/-- The bytes before the first END, and after it. -/
theorem split_at_end {a : Bytes} (h : c.endByte ∈ a) : ∃ x y, a = x ++ c.endByte :: y ∧ c.endByte ∉ x := by
  induction a with
  | nil => cases h
  | cons d r ih =>
    by_cases hd : d = c.endByte
    · exact ⟨[], r, by simp [hd], by simp⟩
    · obtain ⟨x, y, rfl, hx⟩ := ih (by simpa [Ne.symm hd] using h)
      exact ⟨d :: x, y, rfl, by simp [hx, Ne.symm hd]⟩

/-- The span (R104): everything, when there is no END. -/
theorem spanOf_of_notMem {w : Bytes} (h : c.endByte ∉ w) : spanOf c w = w := by
  unfold spanOf; rw [slipSfe_of_notMem h]

/-- The span (R104): through the first END, when there is one. -/
theorem spanOf_append_end {x : Bytes} (h : c.endByte ∉ x) (y : Bytes) : spanOf c (x ++ c.endByte :: y) = x ++ [c.endByte] := by
  unfold spanOf; rw [slipSfe_append_end h]
  have : (x ++ [c.endByte]).length = x.length + 1 := by simp
  rw [show x ++ c.endByte :: y = (x ++ [c.endByte]) ++ y by simp]
  exact List.take_left' this

theorem takeWhile_of_notMem {x : Bytes} (h : c.endByte ∉ x) (y : Bytes) :
    (x ++ c.endByte :: y).takeWhile (· != c.endByte) = x := by
  induction x with
  | nil => simp
  | cons d r ih =>
    simp only [List.mem_cons, not_or] at h
    rw [List.cons_append, List.takeWhile_cons_of_pos (by simpa using Ne.symm h.1), ih h.2]

theorem spanOf_eq (c : Config) (w : Bytes) :
    spanOf c w = w.takeWhile (· != c.endByte) ++ (if c.endByte ∈ w then [c.endByte] else []) := by
  by_cases h : c.endByte ∈ w
  · obtain ⟨x, y, rfl, hx⟩ := split_at_end h
    rw [spanOf_append_end hx, takeWhile_of_notMem hx, if_pos h]
  · rw [spanOf_of_notMem h, if_neg h, List.append_nil, List.takeWhile_eq_self_iff.2]
    intro d hd
    simpa using fun e : d = c.endByte => h (e ▸ hd)

theorem length_spanOf_le (c : Config) (w : Bytes) : (spanOf c w).length ≤ w.length := by
  unfold spanOf; split <;> simp

/-- The skip of step 2 (R103). -/
theorem drop_skipCount (c : Config) (e : Engine) (r : Bytes) : r.drop (skipCount c e r) = afterSkip c e r := by
  unfold skipCount afterSkip
  by_cases h : e.rxLen = 0 ∧ e.rxEsc = false
  · rw [if_pos h, if_pos ((atFrameStart_eq_true e).2 h)]
    induction r with
    | nil => rfl
    | cons d r ih => by_cases hd : (d == c.endByte) = true <;> simp_all
  · rw [if_neg h, if_neg (by simpa using h)]; rfl

theorem skipCount_le (c : Config) (e : Engine) (r : Bytes) : skipCount c e r ≤ r.length := by
  unfold skipCount; split
  · exact (List.takeWhile_sublist _).length_le
  · exact Nat.zero_le _

/-- Step 1 keeps what does not belong to the chunk. -/
theorem afterFetch_frame (s : State) :
    (afterFetch s).cfg = s.cfg ∧ (afterFetch s).codec = s.codec ∧ (afterFetch s).events = s.events ∧
    (afterFetch s).response = s.response ∧ (afterFetch s).e.rxBuf = s.e.rxBuf ∧ (afterFetch s).e.rxLen = s.e.rxLen ∧
    (afterFetch s).e.rxEsc = s.e.rxEsc ∧ (afterFetch s).e.phase = s.e.phase ∧ (afterFetch s).e.txLen = s.e.txLen ∧
    (afterFetch s).e.txCur = s.e.txCur ∧ (afterFetch s).e.txBuf = s.e.txBuf ∧ (afterFetch s).e.reg = s.e.reg := by
  unfold afterFetch; split <;> simp

/-- Step 1 keeps the invariant. -/
theorem afterFetch_inv {s : State} (h : s.e.Inv s.cfg) (hw : hasWork s) : (afterFetch s).e.Inv (afterFetch s).cfg := by
  unfold afterFetch
  split
  next hp =>
    have hk : s.nextRead.length ≤ s.cfg.rxChunkMax := by
      rcases hw with hw | hw
      · omega
      · exact hw.2.2
    exact { h with
      pos_le_len := Nat.zero_le _
      chunk_le_max := hk
      chunk_wf := memWrite_wf h.chunk_wf ..
      chunk_within := memWrite_within h.chunk_within (by simpa using hk) }
  · exact h

/-- After step 1 there is a byte to work on. -/
theorem afterFetch_pos_lt {s : State} (hw : hasWork s) : (afterFetch s).e.rxChunkPos < (afterFetch s).e.rxChunkLen := by
  unfold afterFetch
  rcases hw with hw | ⟨hp, hn, -⟩
  · rw [if_neg (by omega)]; exact hw
  · rw [if_pos hp]; simpa using List.length_pos_iff.2 hn

/-- RX.STEP with bytes to work on: the span is consumed, then decoded. -/
theorem rxStep_of_hasWork {s : State} (h : s.e.Inv s.cfg) (hw : hasWork s) :
    rxStep s = .next (rxDecode ((afterFetch s).withPos (posAfter s)) (slipSfe s.cfg (workBytes s)) (workSpan s)) := by
  have hs : rxStep s = rxWork (afterFetch s) := by
    rw [rxStep_eq, if_neg, if_neg]
    · rintro ⟨hp, hl⟩
      rcases hw with hw | hw
      · omega
      · have := hw.2.2; omega
    · rintro ⟨hp, hl⟩
      rcases hw with hw | hw
      · omega
      · exact hw.2.1 hl
  have hi := afterFetch_inv h hw
  have h1 := hi.pos_le_len
  have h2 := hi.chunk_le_max
  obtain ⟨f0, -, -, -, -, f1, f2, -⟩ := afterFetch_frame s
  have hcfg : (afterFetch s).cfg = s.cfg := f0
  have hskip : ∀ r, afterSkip s.cfg (afterFetch s).e r = afterSkip s.cfg s.e r := by
    intro r; unfold afterSkip; rw [f1, f2]
  rw [hs, rxWork_eq (by omega)]
  simp only [hcfg, drop_skipCount, hskip]
  have hspan : workSpan s = spanOf s.cfg (workBytes s) := (spanOf_eq ..).symm
  have hlen : (remainder (afterFetch s).e).length = (afterFetch s).e.rxChunkLen - (afterFetch s).e.rxChunkPos := by
    simp [remainder]
  have hw' : (workBytes s).length = (remainder (afterFetch s).e).length -
      skipCount s.cfg (afterFetch s).e (remainder (afterFetch s).e) := by
    unfold workBytes; rw [← hskip, ← drop_skipCount, List.length_drop]
  have h3 := skipCount_le s.cfg (afterFetch s).e (remainder (afterFetch s).e)
  have h4 := length_spanOf_le s.cfg (workBytes s)
  have hpos : (afterFetch s).e.rxChunkPos + skipCount s.cfg (afterFetch s).e (remainder (afterFetch s).e) +
      (spanOf s.cfg (workBytes s)).length = posAfter s := by
    unfold posAfter; rw [hspan]; omega
  rw [hspan, ← hpos]
  rfl

end Sys2Proof.Machine
end

