-- ==== Sys2Proof/Laws/Task.lean ====
section
/-! SUPPORT. TASK.CYCLE taken apart once (`45_task_loop.md` R171): every way each half can answer a next state. -/

namespace Sys2Proof.Machine

/-- VERIFY and DISPATCH: a failed check, or the dispatch. -/
theorem verifyAndDispatch_next {s t : State} (h : verifyAndDispatch s = .next t) :
    s.e.rxLen ≤ s.cfg.rxFrameCap ∧
    ((ck8Verify s.cfg (accumulated s.e) = false ∧ t = (s.withPhase .verify).raise .badSum) ∨
     (ck8Verify s.cfg (accumulated s.e) = true ∧ muxDispatch (s.withPhase .dispatch) = .next t)) := by
  unfold verifyAndDispatch at h
  by_cases hc : s.e.rxLen ≤ s.cfg.rxFrameCap
  · rw [memRead_eq_some (by omega)] at h
    refine ⟨hc, ?_⟩
    by_cases hv : ck8Verify s.cfg (accumulated s.e) = true
    · exact .inr ⟨hv, (if_pos hv).symm.trans h⟩
    · exact .inl ⟨by simpa using hv, (Host.Outcome.next.inj ((if_neg hv).symm.trans h)).symm⟩
  · unfold memRead at h
    rw [if_neg (by omega)] at h
    cases h

/-- The receive half: no frame, or a frame verified and dispatched. -/
theorem receiveHalf_next {s u : State} (h : receiveHalf s = .next u) :
    ∃ r, rxStep (s.withPhase .rx) = .next r ∧
      ((r.response ≠ .rx .frameComplete ∧ u = r) ∨
       (r.response = .rx .frameComplete ∧ ∃ v, verifyAndDispatch r = .next v ∧ u = v.respond (.rx .frameComplete))) := by
  obtain ⟨r, hr, h⟩ := andThen_eq_next.1 h
  refine ⟨r, hr, ?_⟩
  by_cases hc : r.response = .rx .frameComplete
  · rw [if_pos hc] at h
    obtain ⟨v, hv, h⟩ := andThen_eq_next.1 h
    exact .inr ⟨hc, v, hv, (Host.Outcome.next.inj h).symm⟩
  · rw [if_neg hc] at h
    exact .inl ⟨hc, (Host.Outcome.next.inj h).symm⟩

/-- The transmit half: the drain, then the end-of-cycle reset when a frame had completed. -/
theorem transmitHalf_next {s t : State} (h : transmitHalf s = .next t) :
    ∃ d, txDrain (s.withPhase .drain) = .next d ∧
      t = { d with
        e := { d.e with phase := .idle, rxLen := if d.response = .rx .frameComplete then 0 else d.e.rxLen }
        response := .none } := by
  obtain ⟨d, hd, h⟩ := andThen_eq_next.1 h
  refine ⟨d, hd, ?_⟩
  rw [← Host.Outcome.next.inj h]
  by_cases hc : d.response = .rx .frameComplete
  · simp only [if_pos hc, State.clearFrame, State.withPhase, State.respond]
  · simp only [if_neg hc, State.withPhase, State.respond]

/-- TASK.CYCLE: the two halves. -/
theorem taskCycle_next {s t : State} (h : execTaskCycle s = .next t) :
    s.e.phase = .idle ∧ ∃ u, receiveHalf s = .next u ∧ transmitHalf u = .next t := by
  obtain ⟨hp, h⟩ := whenIdle_eq_next.1 h
  exact ⟨hp, andThen_eq_next.1 h⟩

end Sys2Proof.Machine
end

