-- ==== Sys2Proof/Laws/Invariant.lean ====
section
/-! SUPPORT. Each shared operation keeps the invariant of Safety.lean (`10_state.md` R31), one lemma per operation. -/

namespace Sys2Proof.Machine

/-! ## RX.STEP -/

/-- Every way RX.STEP answers a next state: no data, or a span decoded. -/
theorem rxStep_next {s t : State} (hi : s.e.Inv s.cfg) (h : rxStep s = .next t) :
    (s.e.rxChunkPos = s.e.rxChunkLen ∧ s.nextRead = [] ∧ t = noFrame s.dropRead .noData) ∨
    (hasWork s ∧ t = rxDecode ((afterFetch s).withPos (posAfter s)) (slipSfe s.cfg (workBytes s)) (workSpan s)) := by
  have hle := hi.pos_le_len
  by_cases h1 : s.e.rxChunkPos = s.e.rxChunkLen ∧ s.nextRead = []
  · rw [rxStep_eq, if_pos h1] at h
    exact .inl ⟨h1.1, h1.2, (Host.Outcome.next.inj h).symm⟩
  · by_cases h2 : s.e.rxChunkPos = s.e.rxChunkLen ∧ s.cfg.rxChunkMax < s.nextRead.length
    · rw [rxStep_eq, if_neg h1, if_pos h2] at h; cases h
    · have hw : hasWork s := by
        by_cases hp : s.e.rxChunkPos = s.e.rxChunkLen
        · exact .inr ⟨hp, fun hn => h1 ⟨hp, hn⟩, Nat.le_of_not_lt fun hl => h2 ⟨hp, hl⟩⟩
        · exact .inl (by omega)
      rw [rxStep_of_hasWork hi hw] at h
      exact .inr ⟨hw, (Host.Outcome.next.inj h).symm⟩

theorem rxDecode_inv {s : State} (hi : s.e.Inv s.cfg) (found : SfeResult) (span : Bytes) :
    (rxDecode s found span).e.Inv (rxDecode s found span).cfg ∧ (rxDecode s found span).e.phase = s.e.phase := by
  rcases rxDecode_cases s found span with ⟨_, h⟩ | ⟨o, e, _, _, h⟩ | ⟨o, e, _, hl, h⟩ <;> rw [h]
  · exact ⟨{ hi with frame_le_cap := Nat.zero_le _ }, rfl⟩
  · exact ⟨{ hi with frame_le_cap := Nat.zero_le _ }, rfl⟩
  · cases found <;>
      exact ⟨{ hi with
        frame_le_cap := hl
        frame_wf := memWrite_wf hi.frame_wf ..
        frame_within := memWrite_within hi.frame_within hl }, rfl⟩

theorem rxStep_inv {s t : State} (hi : s.e.Inv s.cfg) (h : rxStep s = .next t) :
    t.e.Inv t.cfg ∧ t.e.phase = s.e.phase := by
  rcases rxStep_next hi h with ⟨_, _, rfl⟩ | ⟨hw, rfl⟩
  · exact ⟨hi, rfl⟩
  · have hpos : posAfter s ≤ (afterFetch s).e.rxChunkLen := by unfold posAfter; omega
    obtain ⟨h1, h2⟩ := rxDecode_inv (s := (afterFetch s).withPos (posAfter s))
      { afterFetch_inv hi hw with pos_le_len := hpos } (slipSfe s.cfg (workBytes s)) (workSpan s)
    exact ⟨h1, h2.trans (afterFetch_frame s).2.2.2.2.2.2.2.1⟩

/-! ## The transmit path -/

theorem txSend_inv {s : State} (hi : s.e.Inv s.cfg) (id : Byte) (payload : Bytes) :
    (txSend id payload s).e.Inv (txSend id payload s).cfg := by
  rcases txSend_cases id payload s with ⟨_, h⟩ | ⟨_, _, h⟩ | ⟨_, _, _, h⟩ | ⟨_, _, hl, h⟩ <;> rw [h]
  · exact hi
  · exact hi
  · exact hi
  · exact { hi with
      cur_le_len := Nat.zero_le _
      tx_le_cap := hl
      idle_is_zero := fun h => h.symm
      tx_wf := memWrite_wf hi.tx_wf ..
      tx_within := memWrite_within hi.tx_within (by rw [Nat.zero_add]; exact hl) }

theorem txDrain_inv {s t : State} (hi : s.e.Inv s.cfg) (h : txDrain s = .next t) :
    t.e.Inv t.cfg ∧ t.e.phase = s.e.phase := by
  rcases txDrain_next h with ⟨_, rfl⟩ | ⟨_, _, rfl⟩ | ⟨w, h1, _, h3, _, rfl⟩
  · exact ⟨hi, rfl⟩
  · exact ⟨hi, rfl⟩
  · have hw : s.e.txCur + w ≤ s.e.txLen := by unfold offerSize at h3; omega
    show Engine.Inv s.cfg (if _ then _ else _) ∧ (if _ then _ else _ : Engine).phase = _
    split
    · exact ⟨{ hi with cur_le_len := Nat.le_refl _, tx_le_cap := Nat.zero_le _, idle_is_zero := fun _ => rfl }, rfl⟩
    next he => exact ⟨{ hi with cur_le_len := hw, idle_is_zero := fun h => absurd h he }, rfl⟩

/-! ## The multiplexer -/

theorem muxRegister_inv {s : State} (hi : s.e.Inv s.cfg) (id : Byte) (h : Handler) :
    (muxRegister id h s).e.Inv (muxRegister id h s).cfg := by
  unfold muxRegister
  split
  · exact hi
  next hp =>
    split
    · exact hi
    · refine { hi with reg_wf := pairwise_insertAt hi.reg_wf, reg_range := fun x hx => ?_ }
      rcases mem_insertAt hx with rfl | hx
      · simpa [BitVec.lt_def] using hp
      · exact hi.reg_range x hx

theorem muxUnregister_inv {s : State} (hi : s.e.Inv s.cfg) (id : Byte) :
    (muxUnregister id s).e.Inv (muxUnregister id s).cfg := by
  unfold muxUnregister
  split
  · exact hi
  · exact { hi with
      reg_wf := pairwise_removeAt hi.reg_wf
      reg_range := fun x hx => hi.reg_range x (mem_removeAt hx) }

theorem runBehaviour_inv {b : Behaviour} {s t : State} (hi : s.e.Inv s.cfg) (h : runBehaviour b s = .next t) :
    t.e.Inv t.cfg := by
  induction b generalizing s with
  | done => obtain rfl := Host.Outcome.next.inj h; exact hi
  | send id p a r iha ihr =>
    simp only [runBehaviour] at h
    split at h
    · exact iha (txSend_inv hi id p) h
    · exact ihr (txSend_inv hi id p) h
  | barred r => cases h
  | hang => cases h

theorem muxDispatch_inv {s t : State} (hi : s.e.Inv s.cfg) (hp : s.e.phase = .dispatch) (h : muxDispatch s = .next t) :
    t.e.Inv t.cfg ∧ t.e.phase = .dispatch := by
  obtain ⟨_, _, _, _, _, ⟨_, rfl⟩ | ⟨g, _, h⟩⟩ := muxDispatch_next h
  · exact ⟨hi, hp⟩
  · obtain ⟨u, hu, hk⟩ := andThen_eq_next.1 h
    obtain rfl := Host.Outcome.next.inj hk
    have := runBehaviour_inv (s := s.enterHandler g _) { hi with } hu
    exact ⟨{ this with }, rfl⟩

end Sys2Proof.Machine
end

