-- ==== Sys2Proof/Laws/PerInstr.lean ====
section
/-! SUPPORT. A law of every instruction as syntax, one lemma per constructor (`30_encoding.md` R61 to R65, R71). -/

namespace Sys2Proof.Laws.Encoding

/-- The encoding of an instruction is not empty; a row of a byte table is one byte (R61, R62, R63); an operation begins with its
4-bit select code (R71); a frame row carries at least its two outer bytes (R64, R65). -/
def Statement (i : Instr) : Prop := ∀ cfg : Config,
  match i.format with
  | .wireNormal | .wireEscaped | .stuff => (encode cfg i).length = 1
  | .decodedFrame | .encodedFrame => 2 ≤ (encode cfg i).length
  | .op => ∃ c rest, encode cfg i = c :: rest ∧ c.toNat < 16

theorem wireEnd : Statement .wireEnd := fun _ => rfl

theorem wireEsc : Statement .wireEsc := fun _ => rfl

theorem wireLiteral (a : Byte) : Statement (.wireLiteral a) := fun _ => rfl

theorem wireEscEnd : Statement .wireEscEnd := fun _ => rfl

theorem wireEscEsc : Statement .wireEscEsc := fun _ => rfl

theorem wireMalformed (a : Byte) : Statement (.wireMalformed a) := fun _ => rfl

theorem stuffEnd : Statement .stuffEnd := fun _ => rfl

theorem stuffEsc : Statement .stuffEsc := fun _ => rfl

theorem stuffOther (a : Byte) : Statement (.stuffOther a) := fun _ => rfl

theorem decodedFrame (a : Byte) (b : Bytes) (c : Byte) : Statement (.decodedFrame a b c) := by
  intro cfg
  simp only [Instr.format, encode, List.length_cons, List.length_append, List.length_nil]
  omega

theorem encodedFrame (a : Bytes) : Statement (.encodedFrame a) := by
  intro cfg
  simp only [Instr.format, encode, Machine.slipEnc, Machine.marker, if_true, List.length_cons, List.length_append, List.length_nil]
  omega

theorem engineInit : Statement .engineInit := fun _ => ⟨_, _, rfl, by decide⟩

theorem engineShutdown : Statement .engineShutdown := fun _ => ⟨_, _, rfl, by decide⟩

theorem muxRegister (a : Byte) (b : Handler) : Statement (.muxRegister a b) := fun _ => ⟨_, _, rfl, by decide⟩

theorem muxUnregister (a : Byte) : Statement (.muxUnregister a) := fun _ => ⟨_, _, rfl, by decide⟩

theorem txSend (a : Byte) (b : Bytes) : Statement (.txSend a b) := fun _ => ⟨_, _, rfl, by decide⟩

theorem taskCycle : Statement .taskCycle := fun _ => ⟨_, _, rfl, by decide⟩

theorem reserved6 : Statement .reserved6 := fun _ => ⟨_, _, rfl, by decide⟩

theorem reserved7 : Statement .reserved7 := fun _ => ⟨_, _, rfl, by decide⟩

theorem slipEnc (a : Bytes) (b c : Bool) : Statement (.slipEnc a b c) := fun _ => ⟨_, _, rfl, by decide⟩

theorem slipSfe (a : Bytes) : Statement (.slipSfe a) := fun _ => ⟨_, _, rfl, by decide⟩

theorem slipDec (a : Bool) (b : Bytes) : Statement (.slipDec a b) := fun _ => ⟨_, _, rfl, by decide⟩

theorem ck8Compute (a : Bytes) : Statement (.ck8Compute a) := fun _ => ⟨_, _, rfl, by decide⟩

theorem ck8Verify (a : Bytes) : Statement (.ck8Verify a) := fun _ => ⟨_, _, rfl, by decide⟩

theorem rxStep : Statement .rxStep := fun _ => ⟨_, _, rfl, by decide⟩

theorem muxDispatch : Statement .muxDispatch := fun _ => ⟨_, _, rfl, by decide⟩

theorem txDrain : Statement .txDrain := fun _ => ⟨_, _, rfl, by decide⟩

end Sys2Proof.Laws.Encoding
end

