-- ==== Sys2Proof/Tests/Slice0.lean ====
section
/-! SUPPORT. Tests: the well-formedness smoke, one decoded word per constructor, single steps against the vectors of
`95_test_vectors.md`, and a witness for every statement that has hypotheses. -/

namespace Sys2Proof.Tests

open Sys2Proof.Machine

/-! ## Well-formedness: each check refuses an ill-formed term -/

theorem test_wf_literal_end : (Instr.wireLiteral 0xC0).wf {} = false := by decide
theorem test_wf_literal_esc : (Instr.wireLiteral 0xDB).wf {} = false := by decide
theorem test_wf_malformed_escEnd : (Instr.wireMalformed 0xDC).wf {} = false := by decide
theorem test_wf_malformed_escEsc : (Instr.wireMalformed 0xDD).wf {} = false := by decide
theorem test_wf_stuffOther_end : (Instr.stuffOther 0xC0).wf {} = false := by decide
theorem test_wf_stuffOther_esc : (Instr.stuffOther 0xDB).wf {} = false := by decide
theorem test_wf_decodedFrame_long : (Instr.decodedFrame 0 (List.replicate 129 0) 0).wf {} = false := by
  simp [Instr.wf, Config.frameMax]
theorem test_wf_encodedFrame_short : (Instr.encodedFrame [0x41]).wf {} = false := by decide
theorem test_wf_encodedFrame_long : (Instr.encodedFrame (List.replicate 131 0)).wf {} = false := by
  simp [Instr.wf, Config.frameMax]

/-! ## Decoding: words written out from `30_encoding.md` R61 to R65 and R71 -/

/-- The instruction a packet decodes to under the parameter values of R10. -/
def read (f : Format) (b : Bytes) : Option Instr := (decode {} f b).toOption

theorem test_decode_wireEnd : read .wireNormal [0b11000000] = some .wireEnd := by decide
theorem test_decode_wireEsc : read .wireNormal [0b11011011] = some .wireEsc := by decide
theorem test_decode_wireLiteral : read .wireNormal [0b11011100] = some (.wireLiteral 0xDC) := by decide
theorem test_decode_wireEscEnd : read .wireEscaped [0b11011100] = some .wireEscEnd := by decide
theorem test_decode_wireEscEsc : read .wireEscaped [0b11011101] = some .wireEscEsc := by decide
theorem test_decode_wireMalformed : read .wireEscaped [0b11000000] = some (.wireMalformed 0xC0) := by decide
theorem test_decode_stuffEnd : read .stuff [0b11000000] = some .stuffEnd := by decide
theorem test_decode_stuffEsc : read .stuff [0b11011011] = some .stuffEsc := by decide
theorem test_decode_stuffOther : read .stuff [0b11011101] = some (.stuffOther 0xDD) := by decide
theorem test_decode_decodedFrame :
    read .decodedFrame [0x41, 0x42, 0x43, 0xC6] = some (.decodedFrame 0x41 [0x42, 0x43] 0xC6) := by decide
theorem test_decode_encodedFrame :
    read .encodedFrame [0xC0, 0x40, 0x80, 0xDB, 0xDC, 0xC0] = some (.encodedFrame [0x40, 0x80, 0xC0]) := by decide
theorem test_decode_engineInit : read .op [0b0000] = some .engineInit := by decide
theorem test_decode_engineShutdown : read .op [0b0001] = some .engineShutdown := by decide
theorem test_decode_muxRegister : read .op [0b0010, 0x47, 0xA5] = some (.muxRegister 0x47 ⟨[0xA5]⟩) := by decide
theorem test_decode_muxUnregister : read .op [0b0011, 0x47] = some (.muxUnregister 0x47) := by decide
theorem test_decode_txSend : read .op [0b0100, 0x01, 0xC0, 0xDB] = some (.txSend 0x01 [0xC0, 0xDB]) := by decide
theorem test_decode_taskCycle : read .op [0b0101] = some .taskCycle := by decide
theorem test_decode_reserved6 : read .op [0b0110] = some .reserved6 := by decide
theorem test_decode_reserved7 : read .op [0b0111] = some .reserved7 := by decide
theorem test_decode_slipEnc : read .op [0b1000, 0b01, 0x41] = some (.slipEnc [0x41] true false) := by decide
theorem test_decode_slipSfe : read .op [0b1001, 0x41, 0xC0] = some (.slipSfe [0x41, 0xC0]) := by decide
theorem test_decode_slipDec : read .op [0b1010, 0b1, 0xDC] = some (.slipDec true [0xDC]) := by decide
theorem test_decode_ck8Compute : read .op [0b1011, 0x41] = some (.ck8Compute [0x41]) := by decide
theorem test_decode_ck8Verify : read .op [0b1100, 0x01, 0x01] = some (.ck8Verify [0x01, 0x01]) := by decide
theorem test_decode_rxStep : read .op [0b1101] = some .rxStep := by decide
theorem test_decode_muxDispatch : read .op [0b1110] = some .muxDispatch := by decide
theorem test_decode_txDrain : read .op [0b1111] = some .txDrain := by decide

/-- A select code has four bits (R71). -/
theorem test_decode_badSelect : read .op [0x10] = none := by decide
/-- The stuffed body never holds an END (R63). -/
theorem test_decode_innerMarker : read .encodedFrame [0xC0, 0x01, 0xC0, 0x01, 0xC0] = none := by decide

/-- R10's markers are parameters: under END 7E and ESC 7D, the byte C0 is a literal and is not stuffed. -/
theorem test_decode_otherMarkers :
    (decode { endByte := 0x7E, escByte := 0x7D } .wireNormal [0xC0]).toOption = some (.wireLiteral 0xC0) ∧
    slipEnc { endByte := 0x7E, escByte := 0x7D } [0x7E, 0xC0] true true = [0x7E, 0x7D, 0xDC, 0xC0, 0x7E] := by decide

/-- The 4-bit word of TASK.CYCLE in the table, and END's 8-bit word. -/
theorem test_tableWord : decodeTableWord 8 0x5 = some .taskCycle ∧ decodeTableWord 8 0xC0 = some .wireEnd := by decide

/-! ## Helpers for single steps -/

/-- The next state, if there is one. -/
def nextOf : Result → Option State
  | .next s => some s
  | .fault _ => none
  | .refused _ => none

/-- The refusal, if there is one. -/
def refusalOf : Result → Option Refusal
  | .refused e => some e
  | .next _ => none
  | .fault _ => none

/-- One field of the state an instruction leads to. -/
def after {α : Type} (i : Instr) (s : State) (field : State → α) : Option α := (nextOf (exec i s)).map field

/-- The reset state with other engine registers. -/
def withEngine (e : Engine) : State := { State.reset with e := e }

/-- The handler `H`, and another, `G`. -/
def hH : Handler := ⟨[0x01]⟩
def hG : Handler := ⟨[0x02]⟩

/-- An idle engine in the escape state of the row-by-row decoder. -/
def escaped : State := { State.reset with codec := { esc := true, out := [0x41], stuffed := [] } }

/-- One read answer to come. -/
def reading (c : Bytes) (s : State) : State := { s with world := { s.world with reads := [c] } }

/-- One write answer to come. -/
def writing (a : WriteAnswer) (s : State) : State := { s with world := { s.world with writes := [a] } }

/-- One handler behaviour to come. -/
def behaving (b : Behaviour) (s : State) : State := { s with world := { s.world with behaviours := [b] } }

/-- Slots `0x41` and `0x7F` occupied, the range of identifiers `0..0x7F`. -/
def registered : State := { State.reset with
  cfg := { protoMax := 0x7F }, e := { Engine.initial with reg := [(0x41, hH), (0x7F, hG)] } }

/-- The frame `41 42 43 C6` accumulated, in phase DISPATCH. -/
def dispatching : State := { registered with e := { registered.e with
  rxBuf := [(0, 0x41), (1, 0x42), (2, 0x43), (3, 0xC6)], rxLen := 4, phase := .dispatch } }

/-- The frame of V-TX1 in flight, cursor at 5. -/
def inFlightAt5 : State := withEngine { Engine.initial with
  txBuf := [(0, 0xC0), (1, 0x01), (2, 0xDB), (3, 0xDC), (4, 0xDB), (5, 0xDD), (6, 0x9C), (7, 0xC0)], txLen := 8, txCur := 5 }

/-- The same with a frame in flight, so that a send is rejected. -/
def dispatchingInFlight : State := { dispatching with
  e := { dispatching.e with txBuf := inFlightAt5.e.txBuf, txLen := 8, txCur := 5 } }

/-- A partial frame, a remainder and a frame in flight. -/
def busy : State := { registered with e := { registered.e with
  rxChunk := [(0, 0x41), (1, 0xC0)], rxChunkLen := 2, rxChunkPos := 1, rxBuf := [(0, 0x41)], rxLen := 1, rxEsc := true,
  txBuf := [(0, 0xC0), (1, 0x01), (2, 0x01), (3, 0xC0)], txLen := 4, txCur := 2 } }

/-! ## Single steps, expected values from the tables and vectors of the spec -/

/-- R61. -/
theorem test_wireEnd : after .wireEnd State.reset (·.response) = some (.wire .boundary) := by decide
theorem test_wireEsc : after .wireEsc State.reset (·.codec.esc) = some true := by decide
theorem test_wireLiteral : after (.wireLiteral 0xDD) State.reset (·.codec.out) = some [0xDD] := by decide
/-- R62. -/
theorem test_wireEscEnd : after .wireEscEnd escaped (fun t => (t.codec.out, t.codec.esc)) = some ([0x41, 0xC0], false) := by
  decide
theorem test_wireEscEsc : after .wireEscEsc escaped (fun t => (t.codec.out, t.codec.esc)) = some ([0x41, 0xDB], false) := by
  decide
theorem test_wireMalformed : after (.wireMalformed 0xC0) escaped (·.response) = some (.wire .malformed) := by decide
/-- END in the escape state is malformed (R62, R69). -/
theorem test_wireEnd_escaped : after .wireEnd escaped (·.response) = some (.wire .malformed) := by decide
/-- R63. -/
theorem test_stuffEnd : after .stuffEnd State.reset (·.response) = some (.bytes [0xDB, 0xDC]) := by decide
theorem test_stuffEsc : after .stuffEsc State.reset (·.response) = some (.bytes [0xDB, 0xDD]) := by decide
theorem test_stuffOther : after (.stuffOther 0xDC) State.reset (·.response) = some (.bytes [0xDC]) := by decide
/-- R65 with the checksum of `42_integrity.md` R121: `41 42 43` has C6. -/
theorem test_decodedFrame : after (.decodedFrame 0x41 [0x42, 0x43] 0xC6) State.reset (·.response) =
    some (.frame 0x41 [0x42, 0x43] 0xC6 true) := by decide
theorem test_decodedFrame_bad : after (.decodedFrame 0x41 [0x42, 0x43] 0x5A) State.reset (·.response) =
    some (.frame 0x41 [0x42, 0x43] 0x5A false) := by decide
/-- FRAME(01, [C0 DB]) of section 2.2. -/
theorem test_encodedFrame : after (.encodedFrame [0x01, 0xC0, 0xDB, 0x9C]) State.reset (·.response) =
    some (.bytes [0xC0, 0x01, 0xDB, 0xDC, 0xDB, 0xDD, 0x9C, 0xC0]) := by decide
/-- Section 2.1. -/
theorem test_slipEnc_end : after (.slipEnc [0xC0, 0x41] false true) State.reset (·.response) =
    some (.bytes [0xDB, 0xDC, 0x41, 0xC0]) := by decide
theorem test_slipEnc_both : after (.slipEnc [0xC0, 0xDB, 0xDC, 0xDD] true true) State.reset (·.response) =
    some (.bytes [0xC0, 0xDB, 0xDC, 0xDB, 0xDD, 0xDC, 0xDD, 0xC0]) := by decide
theorem test_slipSfe : after (.slipSfe [0x41, 0xDB, 0xDC, 0x42, 0xC0, 0xC0, 0x43]) State.reset (·.response) =
    some (.sfe (.found 4)) := by decide
theorem test_slipSfe_afterEsc : after (.slipSfe [0xDB, 0xC0]) State.reset (·.response) = some (.sfe (.found 1)) := by decide
theorem test_slipDec_carried : after (.slipDec true [0xDC, 0x42, 0xC0]) State.reset (·.response) =
    some (.dec (.ok [0xC0, 0x42] false)) := by decide
theorem test_slipDec_malformed : after (.slipDec false [0x41, 0x42, 0xDB, 0x01]) State.reset (·.response) =
    some (.dec .malformed) := by decide
/-- Section 2.2. -/
theorem test_ck8Compute : after (.ck8Compute [0x41, 0x42, 0x43]) State.reset (·.response) = some (.byte 0xC6) := by decide
theorem test_ck8Compute_wraps : after (.ck8Compute [0xFF, 0x01]) State.reset (·.response) = some (.byte 0x00) := by decide
theorem test_ck8Verify : after (.ck8Verify [0x01, 0x01]) State.reset (·.response) = some (.bit true) := by decide
theorem test_ck8Verify_short : after (.ck8Verify [0x00]) State.reset (·.response) = some (.bit false) := by decide
/-- R173: from a busy engine; the prefix already in OUTBOUND is untouched. -/
theorem test_engineInit : after .engineInit busy (fun t => (t.e.rxLen, t.e.rxEsc, t.e.reg, t.e.txLen)) = some (0, false, [], 0) := by
  decide
theorem test_engineShutdown : after .engineShutdown busy (fun t => (t.e.rxChunkPos, t.e.rxLen, t.e.reg, t.e.txLen)) =
    some (0, 0, [], 0) := by decide
/-- V-MUX1. -/
theorem test_muxRegister_invalid : after (.muxRegister 0x99 hH) registered (·.response) = some (.reg .invalidId) := by decide
theorem test_muxRegister_occupied :
    after (.muxRegister 0x41 hG) registered (fun t => (t.response, slot t.e.reg 0x41)) =
      some (.reg .alreadyRegistered, some hH) := by decide
theorem test_muxUnregister : after (.muxUnregister 0x41) registered (fun t => (slot t.e.reg 0x41, slot t.e.reg 0x7F)) =
    some (none, some hG) := by decide
/-- V-TX1 and V-TX4. -/
theorem test_txSend : after (.txSend 0x01 [0xC0, 0xDB]) State.reset (fun t => (t.response, t.e.txLen, buffered t.e)) =
    some (.send .accepted, 8, [0xC0, 0x01, 0xDB, 0xDC, 0xDB, 0xDD, 0x9C, 0xC0]) := by decide
theorem test_txSend_busy : after (.txSend 0x02 []) inFlightAt5 (fun t => (t.response, t.events, t.e.txCur)) =
    some (.send .rejected, [.txBusy], 5) := by decide
/-- V-TX1, the cycle that takes the last 3 bytes. -/
theorem test_txDrain : after .txDrain (writing (.accepted 3) (inFlightAt5.withPhase .drain))
    (fun t => (t.e.txLen, t.e.txCur, t.world.outbound, t.events)) = some (0, 0, [0xDD, 0x9C, 0xC0], []) := by decide
theorem test_txDrain_partial : after .txDrain (writing (.accepted 1) (inFlightAt5.withPhase .drain))
    (fun t => (t.e.txLen, t.e.txCur, t.world.outbound, t.events)) = some (8, 6, [0xDD], [.txPartial]) := by decide
/-- The example of R101, and the second cycle of V-RX8. -/
theorem test_rxStep : after .rxStep (reading [0xC0, 0x41, 0x42, 0x43, 0xC6, 0xC0] (State.reset.withPhase .rx))
    (fun t => (t.response, accumulated t.e, t.e.rxChunkPos)) =
      some (.rx .frameComplete, [0x41, 0x42, 0x43, 0xC6], 6) := by decide
theorem test_rxStep_escThenEnd : after .rxStep (reading [0xC0, 0x41, 0x42]
    (withEngine { Engine.initial with rxBuf := [(0, 0x41)], rxLen := 1, rxEsc := true, phase := .rx }))
    (fun t => (t.events, t.e.rxChunkPos, t.e.rxLen, t.e.rxEsc)) = some ([.malformed], 1, 0, false) := by decide
/-- The example of R133, and an identifier with no slot. -/
theorem test_muxDispatch : after .muxDispatch dispatching (·.events) = some [.call hH [0x42, 0x43]] := by decide
theorem test_muxDispatch_noRoute : after .muxDispatch { dispatching with e := { dispatching.e with reg := [] } } (·.events) =
    some [.noRoute] := by decide
/-- P1: request and reply in one cycle; V-RX6: a malformed pair with its END. -/
theorem test_taskCycle : after .taskCycle (behaving (.send 0x41 [0xBD, 0xBC] .done .done)
    (writing (.accepted 6) (reading [0xC0, 0x41, 0x42, 0x43, 0xC6, 0xC0] registered)))
    (fun t => (t.events, t.e.rxLen, t.e.txLen, t.world.outbound, t.e.phase)) =
      some ([.call hH [0x42, 0x43]], 0, 0, [0xC0, 0x41, 0xBD, 0xBC, 0xBA, 0xC0], .idle) := by decide
theorem test_taskCycle_malformed : after .taskCycle
    (reading [0xC0, 0x41, 0xDB, 0x42, 0xC6, 0xC0, 0xC0, 0x41, 0x42, 0x43, 0xC6, 0xC0] registered)
    (fun t => (t.events, t.e.rxChunkPos, t.e.rxLen)) = some ([.malformed], 6, 0) := by decide
/-- R71. -/
theorem test_reserved6 : refusalOf (exec .reserved6 State.reset) = some .reservedCode := by decide
theorem test_reserved7 : refusalOf (exec .reserved7 State.reset) = some .reservedCode := by decide
/-- A table word placed at the next fetch runs. -/
theorem test_step_tableWord : ((nextOf (step (State.reset.withFetchWord 8 0xF))).map (·.e.phase)) = some .drain := by decide

/-! ## Witnesses: for every statement with hypotheses, a state and operands that meet them, clause by clause -/

theorem initial_inv (c : Config) (hc : c.MarkersDistinct := by decide) : Engine.initial.Inv c :=
  ⟨hc, Nat.le_refl _, Nat.zero_le _, Nat.zero_le _, Nat.le_refl _, Nat.zero_le _, fun _ => rfl, by decide, by decide, by decide,
    by simp [Engine.initial], by simp [Engine.initial], by simp [Engine.initial], by decide, by simp [Engine.initial]⟩

theorem reset_inv : State.reset.Inv := ⟨initial_inv {}, rfl⟩

theorem registered_inv : registered.Inv :=
  ⟨⟨by decide, by decide, by decide, by decide, by decide, by decide, by decide, by decide, by decide, by decide, by decide,
    by decide, by decide, by decide, by decide⟩, rfl⟩

theorem inFlightAt5_inv : inFlightAt5.Inv :=
  ⟨⟨by decide, by decide, by decide, by decide, by decide, by decide, by decide, by decide, by decide, by decide, by decide,
    by decide, by decide, by decide, by decide⟩, rfl⟩

/-- A small receive frame buffer of 2 bytes, holding one byte. -/
def smallFrame : State := { State.initial { rxFrameCap := 2 } with
  e := { Engine.initial with rxBuf := [(0, 0x41)], rxLen := 1, phase := .rx } }

theorem smallFrame_inv : smallFrame.e.Inv smallFrame.cfg :=
  ⟨by decide, by decide, by decide, by decide, by decide, by decide, by decide, by decide, by decide, by decide, by decide,
    by decide, by decide, by decide, by decide⟩

/-- A remainder of one byte, in phase RX. -/
def withRemainder : State := withEngine { Engine.initial with
  rxChunk := [(0, 0x41), (1, 0xC0)], rxChunkLen := 2, rxChunkPos := 1, rxBuf := [(0, 0x41)], rxLen := 1, phase := .rx }

theorem withRemainder_inv : withRemainder.e.Inv withRemainder.cfg :=
  ⟨by decide, by decide, by decide, by decide, by decide, by decide, by decide, by decide, by decide, by decide, by decide,
    by decide, by decide, by decide, by decide⟩

theorem witness_DecodeOfEncodeIsTheInstruction :
    Config.MarkersDistinct {} ∧ (Instr.txSend 0x01 [0xC0]).wf {} = true ∧ (Instr.wireLiteral 0xDC).wf {} = true ∧
    (Instr.encodedFrame [0x01, 0x01]).wf {} = true ∧ (Instr.decodedFrame 0 (List.replicate 128 0) 0).wf {} = true := by
  refine ⟨by decide, by decide, by decide, by decide, ?_⟩
  simp [Instr.wf, Config.frameMax]

theorem witness_DecodedBytesAreTheOnlyEncoding :
    Config.MarkersDistinct {} ∧
    decode {} .encodedFrame [0xC0, 0x01, 0x01, 0xC0] = .ok (.encodedFrame [0x01, 0x01]) := ⟨by decide, rfl⟩

theorem witness_WireNormalBytesAct : State.reset.codec.esc = false ∧ (0xDC : Byte) ≠ 0xC0 ∧ (0xDC : Byte) ≠ 0xDB := by decide

theorem witness_WireEscapedBytesAct : escaped.codec.esc = true ∧ (0xDB : Byte) ≠ 0xDC ∧ (0xDB : Byte) ≠ 0xDD := by decide

theorem witness_WireRowsMetInTheOtherEscapeState :
    (escaped.cfg.MarkersDistinct ∧ escaped.codec.esc = true ∧ (0x00 : Byte) ≠ 0xDC ∧ (0x00 : Byte) ≠ 0xDD) ∧
    (State.reset.cfg.MarkersDistinct ∧ State.reset.codec.esc = false ∧ (0x00 : Byte) ≠ 0xC0 ∧ (0x00 : Byte) ≠ 0xDB) := by
  decide

theorem witness_StuffedFormHoldsNoMarker :
    ((0xDC : Byte) ≠ State.reset.cfg.endByte ∧ (0xDC : Byte) ≠ State.reset.cfg.escByte) ∧ Config.MarkersDistinct {} ∧
    (([0x41, 0xDB] : Bytes).flatMap (stuff {}))[1]? = some 0xDB := by decide

theorem witness_FrameRowsSplitAndBuild : State.reset.cfg.MarkersDistinct := by decide

theorem witness_SlipEncStuffsAndDelimits : State.reset.cfg.MarkersDistinct := by decide

theorem witness_SlipDecReadsByteByByte : Config.MarkersDistinct {} := by decide

theorem witness_CodecRoundTrip : State.reset.cfg.MarkersDistinct := by decide

/-- Marker values that are four values, but not R10's. -/
theorem witness_EncodedFrameBoundaries : Config.MarkersDistinct { endByte := 0x7E, escByte := 0x7D } := by decide

/-- Requests to come. -/
def requesting (r : List Request) (s : State) : State := { s with world := { s.world with requests := r } }

theorem witness_WireStepsComputeSlipDec :
    let src : Bytes := [0xC0, 0x41, 0xDB, 0xDC, 0xDB]
    let s := requesting (src.map fun b => ⟨.wire, [b]⟩) State.reset
    s.world.requests = src.map (fun b => ⟨.wire, [b]⟩) ∧ slipDec s.cfg s.codec.esc src = .ok [0x41, 0xC0] true := by decide

theorem witness_StuffStepsComputeTheStuffedForm :
    let x : Bytes := [0xC0, 0x41]
    (requesting (x.map fun d => ⟨.stuff, [d]⟩) State.reset).world.requests = x.map (fun d => ⟨.stuff, [d]⟩) := by decide

theorem witness_SlipDecLaws :
    Config.MarkersDistinct {} ∧
    slipDec {} false [0x41, 0xDB] = .ok [0x41] true ∧ slipDec {} true [0xDC, 0x42, 0xC0] = .ok [0xC0, 0x42] false ∧
    slipDec {} true [0xC0] = .malformed ∧ slipDec {} false [0xDB, 0xDB] = .malformed := by decide

theorem witness_ChecksumComputesAndVerifies : State.reset.cfg.ck8 = .sum := rfl

/-- R126: the frame `41 42 43 C6`, its second byte and its checksum byte. -/
theorem witness_SingleBitFlipsAreCaught :
    SingleBitSensitive (ck8 State.reset.cfg) ∧ ck8Verify State.reset.cfg ([0x41] ++ 0x42 :: [0x43, 0xC6]) = true ∧
    ck8Verify State.reset.cfg ([0x41, 0x42, 0x43] ++ 0xC6 :: []) = true := ⟨ck8Sum_singleBitSensitive, by decide, by decide⟩

theorem witness_RxStepWithoutData :
    let s := State.reset.withPhase .rx
    s.e.phase = .rx ∧ s.e.rxChunkPos = s.e.rxChunkLen ∧ s.nextRead = [] := by decide

theorem witness_RxStepOnMalformedPair :
    let s := reading [0xC0, 0x41, 0xDB, 0x42, 0xC0, 0x01] (State.reset.withPhase .rx)
    s.e.Inv s.cfg ∧ s.e.phase = .rx ∧ hasWork s ∧ slipDec s.cfg s.e.rxEsc (workSpan s) = .malformed :=
  ⟨{ initial_inv {} with }, rfl, by decide, by decide⟩

theorem witness_RxStepOnOversizeFrame :
    let s := reading [0x42, 0x43, 0xC0] smallFrame
    s.e.Inv s.cfg ∧ s.e.phase = .rx ∧ hasWork s ∧ slipDec s.cfg s.e.rxEsc (workSpan s) = .ok [0x42, 0x43] false ∧
    s.cfg.rxFrameCap < s.e.rxLen + 2 := ⟨smallFrame_inv, rfl, by decide, by decide, by decide⟩

/-- With an END and exactly up to the capacity; and without an END, on the remainder of a chunk. -/
theorem witness_RxStepAppendsTheSpan :
    (let s := reading [0x42, 0xC0, 0x41] smallFrame
     s.e.Inv s.cfg ∧ s.e.phase = .rx ∧ hasWork s ∧ slipDec s.cfg s.e.rxEsc (workSpan s) = .ok [0x42] false ∧
     s.e.rxLen + 1 ≤ s.cfg.rxFrameCap ∧ s.cfg.endByte ∈ workBytes s) ∧
    (let s := reading [0xC0, 0x42, 0xDB] (State.reset.withPhase .rx)
     s.e.Inv s.cfg ∧ s.e.phase = .rx ∧ hasWork s ∧ slipDec s.cfg s.e.rxEsc (workSpan s) = .ok [0x42] true ∧
     s.e.rxLen + 1 ≤ s.cfg.rxFrameCap ∧ s.cfg.endByte ∉ workBytes s) :=
  ⟨⟨smallFrame_inv, rfl, by decide, by decide, by decide, by decide⟩,
    { initial_inv {} with }, rfl, by decide, by decide, by decide, by decide⟩

theorem witness_TransportReadIsStored :
    let s := reading [0x41] State.reset
    s.e.rxChunkPos = s.e.rxChunkLen ∧ s.nextRead ≠ [] := by decide

/-- An answer of exactly `RX_CHUNK_MAX` bytes. -/
theorem witness_RxStepCompletesWithOneOutcome :
    let s : State := reading [0x41, 0x42] { State.initial { rxChunkMax := 2 } with e := { Engine.initial with phase := .rx } }
    s.e.Inv s.cfg ∧ s.e.phase = .rx ∧ (s.e.rxChunkPos = s.e.rxChunkLen → s.readKept) :=
  ⟨{ initial_inv { rxChunkMax := 2 } with }, rfl, by decide⟩

/-- A frame completed on a remainder; a non-empty answer with none. -/
theorem witness_RxStepFacts :
    (∃ t, exec .rxStep withRemainder = .next t ∧ t.response = .rx .frameComplete) ∧
    withRemainder.e.rxChunkPos < withRemainder.e.rxChunkLen ∧ withRemainder.e.Inv withRemainder.cfg ∧
    (let s := reading [0x41] (State.reset.withPhase .rx)
     s.e.Inv s.cfg ∧ (∃ t, exec .rxStep s = .next t) ∧ s.e.rxChunkPos = s.e.rxChunkLen ∧ s.nextRead ≠ []) :=
  ⟨⟨_, rfl, by decide⟩, by decide, withRemainder_inv, { initial_inv {} with }, ⟨_, rfl⟩, rfl, by decide⟩

theorem witness_RxStepFrame : ∃ t, exec .rxStep withRemainder = .next t := ⟨_, rfl⟩

theorem witness_InboundBytesAreConsumedInOrder :
    withRemainder.e.Inv withRemainder.cfg ∧ ∃ t, exec .rxStep withRemainder = .next t := ⟨withRemainder_inv, _, rfl⟩

/-- An extra END, two frames, three cuts with an empty answer between, one of them inside an escape pair. -/
theorem witness_ReassemblyIsIndependentOfChunkCuts :
    let frames : List Bytes := [[0x41, 0xC0], [0xDB]]
    let cuts : List Bytes := [[0xC0, 0xC0, 0x41, 0xDB], [], [0xDC, 0xC0, 0xC0, 0xDB, 0xDD], [0xC0]]
    let s : State := { State.reset with world := { World.quiet with reads := cuts } }
    s.e.Inv s.cfg ∧ s.e.rxLen = 0 ∧ s.e.rxEsc = false ∧ s.e.rxChunkPos = s.e.rxChunkLen ∧
    FrameStream s.cfg cuts.flatten frames ∧ (∀ f ∈ frames, 1 ≤ f.length ∧ f.length ≤ s.cfg.rxFrameCap) ∧
    s.world.reads.flatten = cuts.flatten ∧ (∀ c ∈ s.world.reads, c.length ≤ s.cfg.rxChunkMax) ∧
    s.world.reads.length + frames.length ≤ 6 :=
  ⟨initial_inv {}, rfl, rfl, rfl, .extraEnd _ _ (.frame [0x41, 0xC0] _ _ (.frame [0xDB] _ _ .empty)), by decide, rfl,
    by decide, by decide⟩

/-- Just above the range; the top slot, occupied; the slot below it, empty. -/
theorem witness_RegisterFillsAnEmptySlot :
    registered.e.phase = .idle ∧ registered.cfg.protoMax.toNat < (0x80 : Byte).toNat ∧
    ((0x7F : Byte).toNat ≤ registered.cfg.protoMax.toNat ∧ slot registered.e.reg (0x7F : Byte).toNat = some hG) ∧
    ((0x7E : Byte).toNat ≤ registered.cfg.protoMax.toNat ∧ slot registered.e.reg (0x7E : Byte).toNat = none) := by decide

theorem witness_UnregisterEmptiesTheSlot :
    registered.e.phase = .idle ∧ registered.cfg.protoMax.toNat < (0x80 : Byte).toNat ∧
    (0x7F : Byte).toNat ≤ registered.cfg.protoMax.toNat := by decide

/-- A frame of identifier 0x80, out of range, and one of identifier 0x7E, of an empty slot. -/
theorem witness_DispatchDropsUnroutedFrames :
    (let s : State := { dispatching with e := { dispatching.e with rxBuf := [(0, 0x80), (1, 0x80)], rxLen := 2 } }
     s.e.phase = .dispatch ∧ s.e.rxLen ≤ s.cfg.rxFrameCap ∧ accumulated s.e = 0x80 :: [] ++ [0x80] ∧
     s.cfg.protoMax.toNat < (0x80 : Byte).toNat) ∧
    (let s : State := { dispatching with e := { dispatching.e with rxBuf := [(0, 0x7E), (1, 0x7E)], rxLen := 2 } }
     s.e.phase = .dispatch ∧ s.e.rxLen ≤ s.cfg.rxFrameCap ∧ accumulated s.e = 0x7E :: [] ++ [0x7E] ∧
     slot s.e.reg (0x7E : Byte).toNat = none) := by decide

/-- A handler that sends a frame of exactly the buffer's capacity, then another; one that returns at once; a frame in flight. -/
theorem witness_DispatchInvokesTheHandlerOnce :
    let s := behaving (.send 0x41 [0xBD] (.send 0x42 [] .done .done) .done)
      { dispatching with cfg := { protoMax := 0x7F, txPayloadMax := 1, txBufCap := 5 } }
    s.e.phase = .dispatch ∧ s.e.rxLen ≤ s.cfg.rxFrameCap ∧ accumulated s.e = 0x41 :: [0x42, 0x43] ++ [0xC6] ∧
    (0x41 : Byte).toNat ≤ s.cfg.protoMax.toNat ∧ slot s.e.reg (0x41 : Byte).toNat = some hH ∧
    s.nextBehaviour.returns = true ∧
    (s.e.txLen ≤ s.e.txCur ∧ ([0xBD] : Bytes).length ≤ s.cfg.txPayloadMax ∧
     [0xC0, 0x41, 0xBD, 0xFE, 0xC0] = slipEnc s.cfg (0x41 :: [0xBD] ++ [ck8 s.cfg (0x41 :: [0xBD])]) true true ∧
     ([0xC0, 0x41, 0xBD, 0xFE, 0xC0] : Bytes).length ≤ s.cfg.txBufCap) ∧
    dispatching.nextBehaviour = .done ∧
    dispatchingInFlight.e.txCur < dispatchingInFlight.e.txLen ∧
    accumulated dispatchingInFlight.e = 0x41 :: [0x42, 0x43] ++ [0xC6] := by decide

/-- A barred request after an accepted send, never returning after a rejected one, a return after an accepted one. -/
theorem witness_HandlerThatDoesNotReturnStops :
    let bars := behaving (.send 0x41 [] (.barred .taskCycle) .done) dispatching
    let hangs := behaving (.send 0x41 [] .done .hang) dispatchingInFlight
    let returns := behaving (.send 0x41 [] .done .hang) dispatching
    (∀ s ∈ [bars, hangs, returns], s.e.phase = .dispatch ∧ s.e.rxLen ≤ s.cfg.rxFrameCap ∧
      accumulated s.e = 0x41 :: [0x42, 0x43] ++ [0xC6] ∧ (0x41 : Byte).toNat ≤ s.cfg.protoMax.toNat ∧
      slot s.e.reg (0x41 : Byte).toNat = some hH) ∧
    (∃ u, HandlerReaches bars.nextBehaviour (bars.enterHandler hH [0x42, 0x43]) (.barred .taskCycle) u) ∧
    (∃ u, HandlerReaches hangs.nextBehaviour (hangs.enterHandler hH [0x42, 0x43]) .hang u) ∧
    (∃ u, HandlerReaches returns.nextBehaviour (returns.enterHandler hH [0x42, 0x43]) .done u) ∧
    ∃ t, exec .muxDispatch returns = .next t :=
  ⟨by decide, ⟨_, .accepted _ _ _ _ _ _ _ _ rfl rfl (.here ..)⟩, ⟨_, .rejected _ _ _ _ _ _ _ _ rfl rfl (.here ..)⟩,
    ⟨_, .accepted _ _ _ _ _ _ _ _ rfl rfl (.here ..)⟩, ⟨_, rfl⟩⟩

theorem witness_RegistryUpdatesAreSeenByDispatch :
    let s : State := { dispatching with e := { dispatching.e with reg := [], phase := .idle } }
    s.e.phase = .idle ∧ s.e.rxLen ≤ s.cfg.rxFrameCap ∧ accumulated s.e = 0x41 :: [0x42, 0x43] ++ [0xC6] ∧
    (0x41 : Byte).toNat ≤ s.cfg.protoMax.toNat ∧ s.nextBehaviour = .done ∧ slot s.e.reg (0x41 : Byte).toNat = none := by
  decide

theorem witness_OnlyRegistryOperationsChangeTheRegistry : ∃ t, exec .taskCycle registered = .next t := ⟨_, rfl⟩

/-- Busy; a payload one byte too long; an encoding one byte too long, that of a payload of the limit. -/
theorem witness_RejectedSendChangesNothing :
    (inFlightAt5.e.phase = .idle ∧ inFlightAt5.e.txCur < inFlightAt5.e.txLen) ∧
    (let s := State.initial { txPayloadMax := 1, txBufCap := 4 }
     s.e.phase = .idle ∧ s.e.txLen ≤ s.e.txCur ∧ s.cfg.txPayloadMax < ([0x01, 0x02] : Bytes).length ∧
     ([0x01] : Bytes).length ≤ s.cfg.txPayloadMax ∧
     s.cfg.txBufCap < (slipEnc s.cfg (0x01 :: [0x01] ++ [ck8 s.cfg (0x01 :: [0x01])]) true true).length) ∧
    (dispatching.withPhase .handler).e.phase = .handler := by decide

/-- An encoding of exactly the capacity, and a payload of exactly the limit. -/
theorem witness_AcceptedSendStoresTheFrame :
    let s := State.initial { txPayloadMax := 1, txBufCap := 5 }
    s.e.phase = .idle ∧ s.e.txLen ≤ s.e.txCur ∧ ([0x01] : Bytes).length ≤ s.cfg.txPayloadMax ∧
    [0xC0, 0x01, 0x01, 0x02, 0xC0] = slipEnc s.cfg (0x01 :: [0x01] ++ [ck8 s.cfg (0x01 :: [0x01])]) true true ∧
    ([0xC0, 0x01, 0x01, 0x02, 0xC0] : Bytes).length ≤ s.cfg.txBufCap := by decide

/-- V-TX3: the payload of 128 bytes C0 under identifier C0, of which all 130 frame bytes are markers. -/
theorem witness_CapacityRejectionIsRare :
    Config.MarkersDistinct {} ∧ (List.replicate 128 (0xC0 : Byte)).length ≤ 128 ∧ ([] : Bytes).length ≤ 128 := by
  refine ⟨by decide, ?_, ?_⟩ <;> simp

/-- Nothing in flight; `error`; a count of exactly the bytes offered, and of none. -/
theorem witness_DrainOffersFromTheCursor :
    (let s := State.reset.withPhase .drain
     s.e.Inv s.cfg ∧ s.e.phase = .drain ∧ s.e.txLen ≤ s.e.txCur) ∧
    (let s := inFlightAt5.withPhase .drain
     s.e.Inv s.cfg ∧ s.e.phase = .drain ∧ s.e.txCur < s.e.txLen ∧ (writing .error s).nextWrite = .error ∧
     3 = min s.cfg.txChunkMax (s.e.txLen - s.e.txCur) ∧ (writing (.accepted 3) s).nextWrite = .accepted 3 ∧
     (writing (.accepted 0) s).nextWrite = .accepted 0) :=
  ⟨⟨{ initial_inv {} with }, rfl, by decide⟩, { inFlightAt5_inv.engine with }, rfl, by decide, rfl, by decide, rfl, rfl⟩

theorem witness_AnswersOutsideTheirContractAreRefused :
    (let s : State := reading [0x41, 0x42, 0x43] { State.initial { rxChunkMax := 2 } with
       e := { Engine.initial with phase := .rx } }
     s.e.phase = .rx ∧ s.e.rxChunkPos = s.e.rxChunkLen ∧ s.cfg.rxChunkMax < s.nextRead.length) ∧
    (let s := writing (.accepted 4) (inFlightAt5.withPhase .drain)
     s.e.Inv s.cfg ∧ s.e.phase = .drain ∧ s.e.txCur < s.e.txLen ∧ s.nextWrite = .accepted 4 ∧
     min s.cfg.txChunkMax (s.e.txLen - s.e.txCur) < 4) :=
  ⟨by decide, { inFlightAt5_inv.engine with }, rfl, by decide, rfl, by decide⟩

/-- A frame in flight under TX.SEND and under a cycle. -/
theorem witness_FrameInFlightIsKeptUntilDrained :
    inFlightAt5.Inv ∧ inFlightAt5.e.txCur < inFlightAt5.e.txLen ∧
    (∃ t, exec (.txSend 0x02 []) inFlightAt5 = .next t) ∧ (∃ t, exec .taskCycle inFlightAt5 = .next t) ∧
    Instr.taskCycle ≠ .engineInit ∧ Instr.taskCycle ≠ .engineShutdown ∧ Instr.txSend 0x02 [] ≠ .taskCycle :=
  ⟨inFlightAt5_inv, by decide, ⟨_, rfl⟩, ⟨_, rfl⟩, by decide, by decide, by decide⟩

/-- The first 5 bytes of V-TX1's frame taken, the rest in flight. -/
theorem witness_OutboundStaysWholeFrames :
    let s : State := { inFlightAt5 with world := { World.quiet with outbound := [0xC0, 0x01, 0xDB, 0xDC, 0xDB] } }
    s.Inv ∧ OutboundWhole s ∧ (∃ t, exec .taskCycle s = .next t) :=
  ⟨⟨inFlightAt5_inv.engine, rfl⟩, ⟨[], rfl, fun _ => ⟨[0x01, 0xC0, 0xDB, 0x9C], rfl⟩⟩, _, rfl⟩

theorem witness_TaskCycleRunsItsOperationsInOrder : registered.e.phase = .idle := rfl

theorem witness_TaskCycleCompletes :
    let s := behaving (.send 0x41 [0xBD, 0xBC] .done .done) (reading [0xC0, 0x41, 0x42, 0x43, 0xC6, 0xC0] registered)
    s.Inv ∧ (s.e.rxChunkPos = s.e.rxChunkLen → s.readKept) ∧ s.nextBehaviour.returns = true ∧ s.cycleWriteKept :=
  ⟨⟨registered_inv.engine, rfl⟩, by decide, rfl, fun t ht _ => by
    obtain rfl := Host.Outcome.next.inj ht
    exact Nat.zero_le _⟩

theorem witness_CycleOutcomes : registered.Inv ∧ ∃ t, exec .taskCycle registered = .next t := ⟨registered_inv, _, rfl⟩

theorem witness_HandlersSeeOnlyVerifiedRoutedFrames :
    let s := reading [0xC0, 0x41, 0x42, 0x43, 0xC6, 0xC0] registered
    s.Inv ∧ s.events = [] ∧ ∃ t, exec .taskCycle s = .next t ∧ Event.call hH [0x42, 0x43] ∈ t.events :=
  ⟨⟨registered_inv.engine, rfl⟩, rfl, _, rfl, by decide⟩

/-- Both the matching checksum `C6` and the source's `5A` under the default checksum. -/
theorem witness_EndToEndScenario :
    let s := fun k => reading [0xC0, 0x41, 0x42, 0x43, k, 0xC0] registered
    (s 0xC6).Inv ∧ (s 0xC6).e.rxLen = 0 ∧ (s 0xC6).e.rxEsc = false ∧ (s 0xC6).e.rxChunkPos = (s 0xC6).e.rxChunkLen ∧
    (s 0xC6).e.txCur = (s 0xC6).e.txLen ∧ 6 ≤ (s 0xC6).cfg.rxChunkMax ∧ 4 ≤ (s 0xC6).cfg.rxFrameCap ∧
    (∀ b ∈ ([0x41, 0x42, 0x43, 0xC6, 0x5A] : Bytes), b ≠ (s 0xC6).cfg.endByte ∧ b ≠ (s 0xC6).cfg.escByte) ∧
    (s 0xC6).nextRead = [(s 0xC6).cfg.endByte, 0x41, 0x42, 0x43, 0xC6, (s 0xC6).cfg.endByte] ∧
    (s 0xC6).nextBehaviour = .done ∧ 0x41 ≤ (s 0xC6).cfg.protoMax.toNat ∧ slot (s 0xC6).e.reg 0x41 = some hH ∧
    ck8 (s 0xC6).cfg [0x41, 0x42, 0x43] = 0xC6 ∧ ck8 (s 0x5A).cfg [0x41, 0x42, 0x43] ≠ 0x5A :=
  ⟨⟨registered_inv.engine, rfl⟩, rfl, rfl, rfl, rfl, by decide, by decide, by decide, rfl, rfl, by decide, by decide,
    by decide, by decide⟩

theorem witness_InitEmptiesTheEngine : busy.e.phase = .idle := rfl

theorem witness_ShutdownActsAsInit : busy.e.phase = .idle := rfl

theorem witness_RequestsOutsideTheirPhaseAreRefused :
    (registered.withPhase .handler).e.phase = .handler ∧ (registered.withPhase .clean).e.phase ≠ .idle ∧
    (registered.withPhase .clean).e.phase ≠ .handler ∧ registered.e.phase ≠ .rx ∧ registered.e.phase ≠ .dispatch ∧
    registered.e.phase ≠ .drain := by decide

theorem witness_StepRunsTheDecodedRequest :
    let s := requesting [⟨.op, [0x05]⟩] State.reset
    s.world.requests = ⟨.op, [0x05]⟩ :: [] ∧ decode s.cfg (Port.op.format s.codec.esc) [0x05] = .ok .taskCycle := ⟨rfl, rfl⟩

theorem witness_StepWithoutAnInstruction :
    State.reset.world.requests = [] ∧
    decode State.reset.cfg (Port.op.format State.reset.codec.esc) [0x10] = .error (.badSelect 0x10) := ⟨rfl, rfl⟩

theorem witness_EveryStepKeepsTheInvariant :
    let s := requesting [⟨.op, [0x05]⟩] registered
    s.Inv ∧ ∃ t, step s = .next t := ⟨⟨registered_inv.engine, rfl⟩, _, rfl⟩

/-- The index just at the capacity of each buffer. -/
theorem witness_NoAccessIsOutOfBounds :
    let s := requesting [⟨.op, [0x05]⟩] (reading [0xC0, 0x41] registered)
    s.Inv ∧ (∃ t, step s = .next t) ∧ s.cfg.rxChunkMax ≤ 64 ∧ s.cfg.rxFrameCap ≤ 128 ∧ s.cfg.txBufCap ≤ 260 :=
  ⟨⟨registered_inv.engine, rfl⟩, ⟨_, rfl⟩, by decide, by decide, by decide⟩

theorem witness_ConfigurationNeverChanges : ∃ t, exec .taskCycle registered = .next t := ⟨_, rfl⟩

theorem witness_PureOperationsTouchNoEngineState :
    Instr.wireEnd.format ≠ .op ∧ ∃ f, Instr.ck8Verify [0x01] = .ck8Verify f := ⟨by decide, _, rfl⟩

/-- Two states that differ on the receive side. -/
theorem witness_DrainIgnoresTheReceiveSide :
    let s := inFlightAt5.withPhase .drain
    let t : State := { s with e := { s.e with rxLen := 3, rxEsc := true } }
    s.cfg = t.cfg ∧ s.e.phase = t.e.phase ∧ s.e.txBuf = t.e.txBuf ∧ s.e.txLen = t.e.txLen ∧ s.e.txCur = t.e.txCur ∧
    s.world.writes = t.world.writes ∧ ∃ s', exec .txDrain s = .next s' := ⟨rfl, rfl, rfl, rfl, rfl, rfl, _, rfl⟩

/-- P1's reply of 6 wire bytes, all taken. -/
theorem witness_ReplyLeavesInTheSameCycle :
    let s := behaving (.send 0x41 [0xBD, 0xBC] .done .done)
      (writing (.accepted 6) (reading [0xC0, 0x41, 0x42, 0x43, 0xC6, 0xC0] registered))
    let f : Bytes := [0x41, 0xBD, 0xBC, 0xBA]
    s.Inv ∧ s.e.txCur = s.e.txLen ∧ s.events = [] ∧
    (∃ u, receiveHalf s = .next u ∧ Event.call hH [0x42, 0x43] ∈ u.events) ∧
    s.nextBehaviour = .send 0x41 [0xBD, 0xBC] .done .done ∧ ([0xBD, 0xBC] : Bytes).length ≤ s.cfg.txPayloadMax ∧
    f = 0x41 :: [0xBD, 0xBC] ++ [ck8 s.cfg (0x41 :: [0xBD, 0xBC])] ∧ (slipEnc s.cfg f true true).length ≤ s.cfg.txBufCap ∧
    s.nextWrite = .accepted 6 ∧ 6 ≤ min s.cfg.txChunkMax (slipEnc s.cfg f true true).length :=
  ⟨⟨registered_inv.engine, rfl⟩, rfl, rfl, ⟨_, rfl, by decide⟩, rfl, by decide, by decide, by decide, rfl, by decide⟩

end Sys2Proof.Tests
end

/-! PROOFS, scope (`00_scope.md`). What a step does with a request that decodes (R8), and that the rows of the formats and the
pure operations leave the engine and its surroundings alone (R5, R120). -/

namespace Sys2Proof.Machine

/-! ## A step -/

/-- A request that decodes is run once it is taken (R8, R68). -/
theorem step_of_decodeRequest {s : State} {r : Request} {rest : List Request} {i : Instr}
    (hr : s.world.requests = r :: rest) (hd : decodeRequest s r = .ok i) : step s = exec i (s.beginOperation rest) := by
  simp only [step, hr, hd]

/-- Settles O52: `decodeRequest` and `beginOperation` are the statement's decode and its state. -/
theorem stepRunsTheDecodedRequest : Obligations.StepRunsTheDecodedRequest :=
  fun _ _ _ _ hr hd => step_of_decodeRequest hr hd

/-! ## What touches no engine state and no stream -/

/-- From `s` to `t` nothing changes but the loop variables of the codec and the response (R5). -/
def OnlyAnswers (s t : State) : Prop := t.e = s.e ∧ t.world = s.world ∧ t.cfg = s.cfg ∧ t.events = s.events

/-- The operation completes from `s`, and only answers. -/
def CompletesPurely (r : Result) (s : State) : Prop := ∃ t, r = .next t ∧ OnlyAnswers s t

theorem OnlyAnswers.completesPurely {s t : State} (h : OnlyAnswers s t) : CompletesPurely (.next t) s := ⟨t, rfl, h⟩

theorem respond_onlyAnswers (s : State) (r : Response) : OnlyAnswers s (s.respond r) := ⟨rfl, rfl, rfl, rfl⟩

theorem wireApply_onlyAnswers (s : State) (a : WireAction) : OnlyAnswers s (wireApply s a) := by
  cases a with
  | boundary => exact respond_onlyAnswers s _
  | enterEscape | output | unescape | malformed => exact ⟨rfl, rfl, rfl, rfl⟩

/-- Whichever escape state the row is met in, it applies one wire action. -/
theorem normalRow_completesPurely (s : State) (b : Byte) (a : WireAction) : CompletesPurely (normalRow s b a) s :=
  (wireApply_onlyAnswers s _).completesPurely

theorem escapedRow_completesPurely (s : State) (b : Byte) (a : WireAction) : CompletesPurely (escapedRow s b a) s :=
  (wireApply_onlyAnswers s _).completesPurely

theorem emitStuffed_completesPurely (s : State) (wire : Bytes) : CompletesPurely (emitStuffed s wire) s :=
  OnlyAnswers.completesPurely ⟨rfl, rfl, rfl, rfl⟩

theorem next_respond_completesPurely (s : State) (r : Response) : CompletesPurely (.next (s.respond r)) s :=
  (respond_onlyAnswers s r).completesPurely

/-- The rows of the wire, stuff and frame formats (R61 to R65), in any phase. -/
theorem exec_completesPurely_of_format_ne_op {i : Instr} (h : i.format ≠ .op) (s : State) :
    CompletesPurely (exec i s) s := by
  cases i with
  | wireEnd | wireEsc | wireLiteral => exact normalRow_completesPurely s _ _
  | wireEscEnd | wireEscEsc | wireMalformed => exact escapedRow_completesPurely s _ _
  | stuffEnd | stuffEsc | stuffOther => exact emitStuffed_completesPurely s _
  | decodedFrame | encodedFrame => exact next_respond_completesPurely s _
  | _ => exact absurd rfl h

/-- Settles O58: a row of a format acts on the codec's loop variables or answers; a pure operation answers. -/
theorem pureOperationsTouchNoEngineState : Obligations.PureOperationsTouchNoEngineState := by
  rintro i s (h | ⟨src, p, a, rfl⟩ | ⟨buf, rfl⟩ | ⟨e, src, rfl⟩ | ⟨data, rfl⟩ | ⟨f, rfl⟩)
  · exact exec_completesPurely_of_format_ne_op h s
  · exact next_respond_completesPurely s (.bytes (slipEnc s.cfg src p a))
  · exact next_respond_completesPurely s (.sfe (slipSfe s.cfg buf))
  · exact next_respond_completesPurely s (.dec (slipDec s.cfg e src))
  · exact next_respond_completesPurely s (.byte (ck8 s.cfg data))
  · exact next_respond_completesPurely s (.bit (ck8Verify s.cfg f))

end Sys2Proof.Machine

/-! PROOFS, state (`10_state.md`). Every way an instruction completes, said once; from it the invariant of R31, which every
instruction keeps with the phase, and the configuration, which none changes (R32). Requests outside their phase (R27), and the
state at reset (R30). -/

namespace Sys2Proof.Machine

/-! ## How an instruction completes -/

/-- An operation that completes purely leads to a state that differs in answers alone. -/
theorem CompletesPurely.onlyAnswers {r : Result} {s t : State} (hr : CompletesPurely r s) (h : r = .next t) :
    OnlyAnswers s t := by
  obtain ⟨u, hu, hs⟩ := hr
  obtain rfl := Host.Outcome.next.inj (hu.symm.trans h)
  exact hs

/-- What an instruction that completes in `t` from `s` has done, with the phase in which it may (R27, R5). -/
inductive Completion (s : State) : State → Prop where
  | answered {t : State} : OnlyAnswers s t → Completion s t
  | restarted : s.e.phase = .idle → Completion s (s.restart.respond .none)
  | registered (id : Byte) (h : Handler) : s.e.phase = .idle → Completion s (muxRegister id h s)
  | unregistered (id : Byte) : s.e.phase = .idle → Completion s (muxUnregister id s)
  | sent (id : Byte) (payload : Bytes) : (s.e.phase = .idle ∨ s.e.phase = .handler) → Completion s (txSend id payload s)
  | cycled {t : State} : execTaskCycle s = .next t → Completion s t
  | received {t : State} : s.e.phase = .rx → rxStep s = .next t → Completion s t
  | dispatched {t : State} : s.e.phase = .dispatch → muxDispatch s = .next t → Completion s (t.respond .none)
  | drained {t : State} : s.e.phase = .drain → txDrain (s.respond .none) = .next t → Completion s t

/-- The inversion of `exec`: later proofs take an instruction apart by the constructors of `Completion`. -/
theorem exec_completion {i : Instr} {s t : State} (h : exec i s = .next t) : Completion s t := by
  cases i with
  | wireEnd | wireEsc | wireLiteral | wireEscEnd | wireEscEsc | wireMalformed | stuffEnd | stuffEsc | stuffOther
  | decodedFrame | encodedFrame =>
    exact .answered ((exec_completesPurely_of_format_ne_op (by simp [Instr.format]) s).onlyAnswers h)
  | slipEnc | slipSfe | slipDec | ck8Compute | ck8Verify =>
    exact .answered ((next_respond_completesPurely s _).onlyAnswers h)
  | reserved6 | reserved7 => cases h
  | engineInit | engineShutdown =>
    obtain ⟨hp, h⟩ := whenIdle_eq_next.1 h
    obtain rfl := Host.Outcome.next.inj h
    exact .restarted hp
  | muxRegister id g =>
    obtain ⟨hp, h⟩ := whenIdle_eq_next.1 h
    obtain rfl := Host.Outcome.next.inj h
    exact .registered id g hp
  | muxUnregister id =>
    obtain ⟨hp, h⟩ := whenIdle_eq_next.1 h
    obtain rfl := Host.Outcome.next.inj h
    exact .unregistered id hp
  | txSend id payload =>
    obtain ⟨hp, h⟩ := whenIdleOrHandler_eq_next.1 h
    obtain rfl := Host.Outcome.next.inj h
    exact .sent id payload hp
  | taskCycle => exact .cycled h
  | rxStep =>
    obtain ⟨hp, h⟩ := whenPhase_eq_next.1 h
    exact .received hp h
  | muxDispatch =>
    obtain ⟨hp, h⟩ := whenPhase_eq_next.1 h
    obtain ⟨u, hu, h⟩ := andThen_eq_next.1 h
    obtain rfl := Host.Outcome.next.inj h
    exact .dispatched hp hu
  | txDrain =>
    obtain ⟨hp, h⟩ := whenPhase_eq_next.1 h
    exact .drained hp h

/-- MUX.REGISTER touches the registry and the response alone (R131). -/
theorem muxRegister_frame (id : Byte) (h : Handler) (s : State) :
    ∃ reg r, muxRegister id h s = { s with e := { s.e with reg := reg }, response := r } := by
  unfold muxRegister
  split
  · exact ⟨s.e.reg, .reg .invalidId, rfl⟩
  · split
    · exact ⟨s.e.reg, .reg .alreadyRegistered, rfl⟩
    · exact ⟨insertAt id.toNat h s.e.reg, .reg .success, rfl⟩

/-- MUX.UNREGISTER touches the registry and the response alone (R132). -/
theorem muxUnregister_frame (id : Byte) (s : State) :
    ∃ reg r, muxUnregister id s = { s with e := { s.e with reg := reg }, response := r } := by
  unfold muxUnregister
  split
  · exact ⟨s.e.reg, .none, rfl⟩
  · exact ⟨removeAt id.toNat s.e.reg, .none, rfl⟩

/-! ## The invariant and the phase (R31) -/

/-- ENGINE.INIT and ENGINE.SHUTDOWN zero the lengths and empty the registry; the buffers' canonical forms stay (R173, R174). -/
theorem restart_inv {s : State} (hi : s.e.Inv s.cfg) : s.restart.e.Inv s.cfg :=
  { hi with
    pos_le_len := Nat.le_refl 0
    chunk_le_max := Nat.zero_le _
    frame_le_cap := Nat.zero_le _
    cur_le_len := Nat.le_refl 0
    tx_le_cap := Nat.zero_le _
    idle_is_zero := fun _ => rfl
    reg_wf := List.Pairwise.nil
    reg_range := fun _ hx => nomatch hx }

/-- The invariant does not speak of the phase, so that TASK.CYCLE may move through its phases under it. -/
theorem withPhase_inv {s : State} (hi : s.e.Inv s.cfg) (p : Phase) : (s.withPhase p).e.Inv (s.withPhase p).cfg := { hi with }

theorem verifyAndDispatch_inv {s t : State} (hi : s.e.Inv s.cfg) (h : verifyAndDispatch s = .next t) : t.e.Inv t.cfg := by
  obtain ⟨-, ⟨-, rfl⟩ | ⟨-, hd⟩⟩ := verifyAndDispatch_next h
  · exact withPhase_inv hi .verify
  · exact (muxDispatch_inv (withPhase_inv hi .dispatch) rfl hd).1

theorem receiveHalf_inv {s u : State} (hi : s.e.Inv s.cfg) (h : receiveHalf s = .next u) : u.e.Inv u.cfg := by
  obtain ⟨r, hr, hu⟩ := receiveHalf_next h
  have hri : r.e.Inv r.cfg := (rxStep_inv (withPhase_inv hi .rx) hr).1
  obtain ⟨-, rfl⟩ | ⟨-, v, hv, rfl⟩ := hu
  · exact hri
  · exact verifyAndDispatch_inv (t := v) hri hv

/-- The end-of-cycle reset shortens the frame or keeps its length (R172). -/
theorem transmitHalf_inv {s t : State} (hi : s.e.Inv s.cfg) (h : transmitHalf s = .next t) :
    t.e.Inv t.cfg ∧ t.e.phase = .idle := by
  obtain ⟨d, hd, rfl⟩ := transmitHalf_next h
  have hdi : d.e.Inv d.cfg := (txDrain_inv (withPhase_inv hi .drain) hd).1
  refine ⟨{ hdi with frame_le_cap := ?_ }, rfl⟩
  show (if d.response = .rx .frameComplete then 0 else d.e.rxLen) ≤ d.cfg.rxFrameCap
  split
  · exact Nat.zero_le _
  · exact hdi.frame_le_cap

theorem taskCycle_inv {s t : State} (hi : s.e.Inv s.cfg) (h : execTaskCycle s = .next t) :
    t.e.Inv t.cfg ∧ t.e.phase = s.e.phase := by
  obtain ⟨hp, u, hu, ht⟩ := taskCycle_next h
  rw [hp]
  exact transmitHalf_inv (receiveHalf_inv hi hu) ht

/-- Every instruction keeps the engine's invariant and the phase, in whichever phase it runs: TASK.CYCLE moves through the
phases and is back in IDLE, and no other instruction moves. -/
theorem exec_inv {i : Instr} {s t : State} (hi : s.e.Inv s.cfg) (h : exec i s = .next t) :
    t.e.Inv t.cfg ∧ t.e.phase = s.e.phase := by
  cases exec_completion h with
  | answered ha =>
    obtain ⟨he, -, hc, -⟩ := ha
    rw [he, hc]
    exact ⟨hi, rfl⟩
  | restarted hp => exact ⟨restart_inv (s := s) hi, hp.symm⟩
  | registered id g _ =>
    obtain ⟨reg, r, he⟩ := muxRegister_frame id g s
    exact ⟨muxRegister_inv hi id g, by rw [he]⟩
  | unregistered id _ =>
    obtain ⟨reg, r, he⟩ := muxUnregister_frame id s
    exact ⟨muxUnregister_inv hi id, by rw [he]⟩
  | sent id payload _ => exact ⟨txSend_inv hi id payload, (txSend_phase_response id payload s).1⟩
  | cycled ht => exact taskCycle_inv hi ht
  | received _ ht => exact rxStep_inv hi ht
  | @dispatched u hp hu =>
    rw [hp]
    exact muxDispatch_inv (t := u) hi hp hu
  | drained _ ht => exact txDrain_inv (s := s.respond .none) hi ht

/-- A step that completes had nothing to do, or ran an instruction with the request taken (R215, R8). -/
theorem step_next {s t : State} (h : step s = .next t) : t = s ∨ ∃ i rest, exec i (s.beginOperation rest) = .next t := by
  unfold step at h
  split at h
  next => exact .inl (Host.Outcome.next.inj h).symm
  next rest _ =>
    split at h
    next => cases h
    next i _ => exact .inr ⟨i, rest, h⟩

/-- Settles O55: taking the request leaves E alone, and the instruction keeps the engine's invariant and phase IDLE. -/
theorem everyStepKeepsTheInvariant : Obligations.EveryStepKeepsTheInvariant := by
  intro s t hs h
  obtain rfl | ⟨i, rest, h⟩ := step_next h
  · exact hs
  · obtain ⟨hi, hp⟩ := exec_inv (s := s.beginOperation rest) hs.engine h
    exact ⟨hi, hp.trans hs.idle⟩

/-! ## The configuration (R32) -/

theorem OnlySends.cfg_eq {s t : State} {sends : List Event} (h : OnlySends s t sends) : t.cfg = s.cfg := by rw [h.state]

theorem txSend_cfg (id : Byte) (payload : Bytes) (s : State) : (txSend id payload s).cfg = s.cfg :=
  (txSend_onlySends id payload s).elim fun _ h => h.cfg_eq

theorem muxDispatch_cfg {s t : State} (h : muxDispatch s = .next t) : t.cfg = s.cfg := by
  obtain ⟨_, _, _, -, -, ⟨-, rfl⟩ | ⟨g, -, h⟩⟩ := muxDispatch_next h
  · rfl
  · obtain ⟨_, ht, -⟩ := handlerInvoke_next h
    rw [ht]

theorem txDrain_cfg {s t : State} (h : txDrain s = .next t) : t.cfg = s.cfg := by
  obtain ⟨-, rfl⟩ | ⟨-, -, rfl⟩ | ⟨w, -, -, -, -, rfl⟩ := txDrain_next h <;> rfl

theorem rxDecode_cfg (s : State) (found : SfeResult) (span : Bytes) : (rxDecode s found span).cfg = s.cfg := by
  obtain ⟨-, h⟩ | ⟨out, esc, -, -, h⟩ | ⟨out, esc, -, -, h⟩ := rxDecode_cases s found span <;> rw [h]
  · rfl
  · rfl
  · cases found <;> rfl

theorem rxWork_cfg {s t : State} (h : rxWork s = .next t) : t.cfg = s.cfg := by
  rw [rxWork_eq (rxWork_next h)] at h
  obtain rfl := Host.Outcome.next.inj h
  exact rxDecode_cfg ..

/-- The invariant is no hypothesis here: what RX.STEP refuses or faults on has no next state. -/
theorem rxStep_cfg {s t : State} (h : rxStep s = .next t) : t.cfg = s.cfg := by
  rw [rxStep_eq] at h
  split at h
  next => obtain rfl := Host.Outcome.next.inj h; rfl
  next =>
    split at h
    next => cases h
    next => exact (rxWork_cfg h).trans (afterFetch_frame s).1

theorem verifyAndDispatch_cfg {s t : State} (h : verifyAndDispatch s = .next t) : t.cfg = s.cfg := by
  obtain ⟨-, ⟨-, rfl⟩ | ⟨-, hd⟩⟩ := verifyAndDispatch_next h
  · rfl
  · exact muxDispatch_cfg (s := s.withPhase .dispatch) hd

theorem receiveHalf_cfg {s u : State} (h : receiveHalf s = .next u) : u.cfg = s.cfg := by
  obtain ⟨r, hr, ⟨-, rfl⟩ | ⟨-, v, hv, rfl⟩⟩ := receiveHalf_next h
  · exact rxStep_cfg (s := s.withPhase .rx) hr
  · exact (verifyAndDispatch_cfg hv).trans (rxStep_cfg (s := s.withPhase .rx) hr)

theorem transmitHalf_cfg {s t : State} (h : transmitHalf s = .next t) : t.cfg = s.cfg := by
  obtain ⟨d, hd, rfl⟩ := transmitHalf_next h
  exact txDrain_cfg (s := s.withPhase .drain) (t := d) hd

/-- Settles O57: by how the instruction completed; each operation leaves the configuration as it found it. -/
theorem configurationNeverChanges : Obligations.ConfigurationNeverChanges := by
  intro i s t h
  cases exec_completion h with
  | answered ha =>
    obtain ⟨-, -, hc, -⟩ := ha
    exact hc
  | restarted _ => rfl
  | registered id g _ =>
    obtain ⟨reg, r, he⟩ := muxRegister_frame id g s
    rw [he]
  | unregistered id _ =>
    obtain ⟨reg, r, he⟩ := muxUnregister_frame id s
    rw [he]
  | sent id payload _ => exact txSend_cfg id payload s
  | cycled hc =>
    obtain ⟨-, u, hu, ht⟩ := taskCycle_next hc
    exact (transmitHalf_cfg ht).trans (receiveHalf_cfg hu)
  | received _ ht => exact rxStep_cfg ht
  | @dispatched u _ hu => exact muxDispatch_cfg (t := u) hu
  | drained _ ht => exact txDrain_cfg (s := s.respond .none) ht

/-! ## Requests outside their phase (R27) -/

theorem whenIdle_of_handler {s : State} (h : s.e.phase = .handler) (k : Result) :
    whenIdle s k = .refused .requestInHandler := by
  simp [whenIdle, h]

theorem whenIdle_of_inside {s : State} (hi : s.e.phase ≠ .idle) (hh : s.e.phase ≠ .handler) (k : Result) :
    whenIdle s k = .refused .requestInsideOperation := by
  unfold whenIdle
  split
  next h => exact absurd h hi
  next h => exact absurd h hh
  all_goals rfl

theorem whenIdleOrHandler_of_inside {s : State} (hi : s.e.phase ≠ .idle) (hh : s.e.phase ≠ .handler) (k : Result) :
    whenIdleOrHandler s k = .refused .requestInsideOperation := by
  unfold whenIdleOrHandler
  split
  next h => exact absurd h hi
  next h => exact absurd h hh
  all_goals rfl

theorem whenPhase_of_ne {p : Phase} {s : State} (h : s.e.phase ≠ p) (k : Result) :
    whenPhase p s k = .refused .onlyInsideTaskCycle :=
  if_neg h

/-- The commands that a handler must not make (R135) all begin with the same guard. -/
theorem exec_eq_whenIdle {i : Instr} (s : State)
    (h : i = .engineInit ∨ i = .engineShutdown ∨ (∃ id h, i = .muxRegister id h) ∨ (∃ id, i = .muxUnregister id) ∨
      i = .taskCycle) : ∃ k, exec i s = whenIdle s k := by
  obtain rfl | rfl | ⟨id, g, rfl⟩ | ⟨id, rfl⟩ | rfl := h <;> exact ⟨_, rfl⟩

/-- Settles O50: the guard of each command, in a phase it does not allow. -/
theorem requestsOutsideTheirPhaseAreRefused : Obligations.RequestsOutsideTheirPhaseAreRefused := by
  refine ⟨fun s i h => ?_, fun s id payload hi hh => whenIdleOrHandler_of_inside hi hh _,
    fun s => ⟨fun h => whenPhase_of_ne h _, fun h => whenPhase_of_ne h _, fun h => whenPhase_of_ne h _⟩⟩
  obtain ⟨k, hk⟩ := exec_eq_whenIdle s h
  rw [hk]
  exact ⟨fun hp => whenIdle_of_handler hp k, fun hi hh => whenIdle_of_inside hi hh k⟩

/-! ## The state at reset (R30) -/

/-- Right after reset every engine whose marker values are four meets the invariant: nothing is listed, stored or registered. -/
theorem initial_meets_inv {c : Config} (hc : c.MarkersDistinct) : (State.initial c).Inv where
  idle := rfl
  engine :=
    { markers := hc
      pos_le_len := Nat.le_refl 0
      chunk_le_max := Nat.zero_le _
      frame_le_cap := Nat.zero_le _
      cur_le_len := Nat.le_refl 0
      tx_le_cap := Nat.zero_le _
      idle_is_zero := fun _ => rfl
      chunk_wf := ⟨.nil, fun _ hx => nomatch hx⟩
      frame_wf := ⟨.nil, fun _ hx => nomatch hx⟩
      tx_wf := ⟨.nil, fun _ hx => nomatch hx⟩
      chunk_within := fun _ hx => nomatch hx
      frame_within := fun _ hx => nomatch hx
      tx_within := fun _ hx => nomatch hx
      reg_wf := .nil
      reg_range := fun _ hx => nomatch hx }

/-- Right after reset no byte was taken and no frame is in flight (`20_memory.md` R49). -/
theorem initial_outboundWhole (c : Config) : OutboundWhole (State.initial c) :=
  ⟨[], rfl, fun h => absurd h (Nat.lt_irrefl 0)⟩

/-- Settles O54: reset is the initial state under R10's values, whose markers are four. -/
theorem resetStateMeetsTheInvariant : Obligations.ResetStateMeetsTheInvariant :=
  ⟨initial_meets_inv (by decide), rfl, rfl, rfl, rfl, fun _ => rfl, rfl, rfl, rfl, initial_outboundWhole _,
    rfl, rfl, rfl, rfl, rfl, rfl, rfl, rfl, rfl⟩

end Sys2Proof.Machine

/-! PROOFS, memory (`20_memory.md`). OUTBOUND as whole frames and the part taken of the frame in flight (R49, R50), the inbound
bytes in order and the chunk as the transport answered it (R44, R46, R48), answers outside their contract (R46, R47), the
registry as the next dispatch sees it (R53), and that no access leaves a buffer (R41). -/

namespace Sys2Proof.Machine

/-! ## What RX.STEP leaves alone (R100) -/

/-- From `s` to `t` nothing changes but the receive side of E, the read answers, the response and the events. -/
def OnlyReceives (s t : State) : Prop :=
  t = { s with
    e := { s.e with rxChunk := t.e.rxChunk, rxChunkLen := t.e.rxChunkLen, rxChunkPos := t.e.rxChunkPos,
                    rxBuf := t.e.rxBuf, rxLen := t.e.rxLen, rxEsc := t.e.rxEsc }
    world := { s.world with reads := t.world.reads }, response := t.response, events := t.events }

theorem OnlyReceives.trans {s t u : State} (h : OnlyReceives s t) (h' : OnlyReceives t u) : OnlyReceives s u := by
  unfold OnlyReceives at h h' ⊢
  rw [h] at h'
  exact h'

theorem afterFetch_onlyReceives (s : State) : OnlyReceives s (afterFetch s) := by
  unfold afterFetch
  split <;> rfl

/-- The decode of a span moves neither the chunk nor the surroundings: the span was consumed before it (R104, R105). -/
theorem rxDecode_frame (s : State) (found : SfeResult) (span : Bytes) :
    ∃ buf len esc r evs, rxDecode s found span =
      { s with e := { s.e with rxBuf := buf, rxLen := len, rxEsc := esc }, response := r, events := evs } := by
  obtain ⟨-, h⟩ | ⟨out, esc, -, -, h⟩ | ⟨out, esc, -, -, h⟩ := rxDecode_cases s found span <;> rw [h]
  · exact ⟨_, _, _, _, _, rfl⟩
  · exact ⟨_, _, _, _, _, rfl⟩
  · cases found <;> exact ⟨_, _, _, _, _, rfl⟩

theorem rxWork_onlyReceives {s t : State} (h : rxWork s = .next t) : OnlyReceives s t := by
  rw [rxWork_eq (rxWork_next h)] at h
  obtain rfl := Host.Outcome.next.inj h
  obtain ⟨_, _, _, _, _, hd⟩ := rxDecode_frame (s.withPos _) _ _
  rw [hd]
  rfl

/-- RX.STEP writes the receive side alone, whether or not the state meets the invariant. -/
theorem rxStep_onlyReceives {s t : State} (h : rxStep s = .next t) : OnlyReceives s t := by
  rw [rxStep_eq] at h
  split at h
  next => obtain rfl := Host.Outcome.next.inj h; rfl
  next =>
    split at h
    next => cases h
    next => exact (afterFetch_onlyReceives s).trans (rxWork_onlyReceives h)

/-! ## OUTBOUND is whole frames (R49, R50) -/

/-- `OutboundWhole` speaks of the transmit side and OUTBOUND, none of which RX.STEP writes. -/
theorem OnlyReceives.outboundWhole {s t : State} (h : OnlyReceives s t) (hw : OutboundWhole s) : OutboundWhole t := by
  rw [h]
  exact hw

/-- With no frame in flight the registers are zero, so OUTBOUND is whole frames and a new frame starts with none of it taken. -/
theorem storeFrame_outboundWhole {s : State} (hi : s.e.Inv s.cfg) (hw : OutboundWhole s) (hidle : s.e.txLen ≤ s.e.txCur)
    (f : Bytes) : OutboundWhole (s.storeFrame (slipEnc s.cfg f true true)) := by
  obtain ⟨frames, hout, -⟩ := hw
  have hcur : s.e.txCur = 0 := by
    have heq := Nat.le_antisymm hi.cur_le_len hidle
    rw [heq, hi.idle_is_zero heq]
  rw [hcur] at hout
  exact ⟨frames, hout, fun _ => ⟨f, bytesAt_memWrite_same _ 0 _⟩⟩

theorem txSend_outboundWhole {s : State} (hi : s.e.Inv s.cfg) (hw : OutboundWhole s) (id : Byte) (payload : Bytes) :
    OutboundWhole (txSend id payload s) := by
  obtain ⟨-, h⟩ | ⟨-, -, h⟩ | ⟨-, -, -, h⟩ | ⟨hidle, -, -, h⟩ := txSend_cases id payload s <;> rw [h]
  · exact hw
  · exact hw
  · exact hw
  · exact storeFrame_outboundWhole hi hw hidle _

theorem runBehaviour_outboundWhole {b : Behaviour} {s t : State} (hi : s.e.Inv s.cfg) (hw : OutboundWhole s)
    (h : runBehaviour b s = .next t) : OutboundWhole t := by
  induction b generalizing s with
  | done => obtain rfl := Host.Outcome.next.inj h; exact hw
  | send id payload a r iha ihr =>
    have hi' := txSend_inv hi id payload
    have hw' := txSend_outboundWhole hi hw id payload
    simp only [runBehaviour] at h
    split at h
    · exact iha hi' hw' h
    · exact ihr hi' hw' h
  | barred r => cases h
  | hang => cases h

theorem muxDispatch_outboundWhole {s t : State} (hi : s.e.Inv s.cfg) (hw : OutboundWhole s)
    (h : muxDispatch s = .next t) : OutboundWhole t := by
  obtain ⟨_, payload, _, -, -, ⟨-, rfl⟩ | ⟨g, -, h⟩⟩ := muxDispatch_next h
  · exact hw
  · obtain ⟨u, hu, hk⟩ := andThen_eq_next.1 h
    obtain rfl := Host.Outcome.next.inj hk
    exact runBehaviour_outboundWhole (s := s.enterHandler g payload) (t := u) { hi with } hw hu

/-- Bytes taken from the cursor forward extend the taken part; when they reach its end the frame in flight is one whole frame
more (R49, R152). -/
theorem emit_advanceCursor_outboundWhole {s : State} (hw : OutboundWhole s) {w : Nat} (hlt : s.e.txCur < s.e.txLen) :
    OutboundWhole ((s.emit (bytesAt s.e.txBuf s.e.txCur w)).advanceCursor w) := by
  obtain ⟨frames, hout, hfl⟩ := hw
  obtain ⟨f, hf⟩ := hfl hlt
  have htaken : bytesAt s.e.txBuf 0 s.e.txCur ++ bytesAt s.e.txBuf s.e.txCur w = bytesAt s.e.txBuf 0 (s.e.txCur + w) := by
    rw [bytesAt_add, Nat.zero_add]
  by_cases he : s.e.txCur + w = s.e.txLen
  · have hwhole : bytesAt s.e.txBuf 0 s.e.txLen = slipEnc s.cfg f true true := hf
    exact ⟨frames ++ [f], by simp [he, hout, htaken, hwhole, bytesAt], by simp [he]⟩
  · exact ⟨frames, by simp [he, hout, htaken], by simpa [he, buffered] using fun _ => ⟨f, hf⟩⟩

theorem txDrain_outboundWhole {s t : State} (hw : OutboundWhole s) (h : txDrain s = .next t) : OutboundWhole t := by
  obtain ⟨-, rfl⟩ | ⟨-, -, rfl⟩ | ⟨w, hlt, -, -, -, rfl⟩ := txDrain_next h
  · exact hw
  · exact hw
  · exact emit_advanceCursor_outboundWhole (s := s.dropWrite) hw hlt

theorem verifyAndDispatch_outboundWhole {s t : State} (hi : s.e.Inv s.cfg) (hw : OutboundWhole s)
    (h : verifyAndDispatch s = .next t) : OutboundWhole t := by
  obtain ⟨-, ⟨-, rfl⟩ | ⟨-, hd⟩⟩ := verifyAndDispatch_next h
  · exact hw
  · exact muxDispatch_outboundWhole (withPhase_inv hi .dispatch) hw hd

theorem receiveHalf_outboundWhole {s u : State} (hi : s.e.Inv s.cfg) (hw : OutboundWhole s)
    (h : receiveHalf s = .next u) : OutboundWhole u := by
  obtain ⟨r, hr, hu⟩ := receiveHalf_next h
  have hri : r.e.Inv r.cfg := (rxStep_inv (withPhase_inv hi .rx) hr).1
  have hrw : OutboundWhole r := (rxStep_onlyReceives hr).outboundWhole hw
  obtain ⟨-, rfl⟩ | ⟨-, v, hv, rfl⟩ := hu
  · exact hrw
  · exact verifyAndDispatch_outboundWhole (t := v) hri hrw hv

theorem transmitHalf_outboundWhole {s t : State} (hw : OutboundWhole s) (h : transmitHalf s = .next t) :
    OutboundWhole t := by
  obtain ⟨d, hd, rfl⟩ := transmitHalf_next h
  exact txDrain_outboundWhole (s := s.withPhase .drain) (t := d) hw hd

theorem taskCycle_outboundWhole {s t : State} (hi : s.e.Inv s.cfg) (hw : OutboundWhole s)
    (h : execTaskCycle s = .next t) : OutboundWhole t := by
  obtain ⟨-, u, hu, ht⟩ := taskCycle_next h
  exact transmitHalf_outboundWhole (receiveHalf_outboundWhole hi hw hu) ht

theorem OnlyAnswers.outboundWhole {s t : State} (h : OnlyAnswers s t) (hw : OutboundWhole s) : OutboundWhole t := by
  obtain ⟨he, hworld, hcfg, -⟩ := h
  unfold OutboundWhole at hw ⊢
  rwa [he, hworld, hcfg]

/-- By the instruction, not by `Completion`: ENGINE.INIT and ENGINE.SHUTDOWN are set apart, since they drop a frame of which
OUTBOUND may hold the first bytes (R173, R174). -/
theorem exec_outboundWhole {i : Instr} {s t : State} (hi : s.e.Inv s.cfg) (hw : OutboundWhole s) (h : exec i s = .next t)
    (hinit : i ≠ .engineInit) (hshutdown : i ≠ .engineShutdown) : OutboundWhole t := by
  cases i with
  | wireEnd | wireEsc | wireLiteral | wireEscEnd | wireEscEsc | wireMalformed | stuffEnd | stuffEsc | stuffOther
  | decodedFrame | encodedFrame =>
    exact ((exec_completesPurely_of_format_ne_op (by simp [Instr.format]) s).onlyAnswers h).outboundWhole hw
  | slipEnc | slipSfe | slipDec | ck8Compute | ck8Verify =>
    exact ((next_respond_completesPurely s _).onlyAnswers h).outboundWhole hw
  | reserved6 | reserved7 => cases h
  | engineInit => exact absurd rfl hinit
  | engineShutdown => exact absurd rfl hshutdown
  | muxRegister id g =>
    obtain ⟨-, h⟩ := whenIdle_eq_next.1 h
    obtain rfl := Host.Outcome.next.inj h
    obtain ⟨reg, r, he⟩ := muxRegister_frame id g s
    rw [he]
    exact hw
  | muxUnregister id =>
    obtain ⟨-, h⟩ := whenIdle_eq_next.1 h
    obtain rfl := Host.Outcome.next.inj h
    obtain ⟨reg, r, he⟩ := muxUnregister_frame id s
    rw [he]
    exact hw
  | txSend id payload =>
    obtain ⟨-, h⟩ := whenIdleOrHandler_eq_next.1 h
    obtain rfl := Host.Outcome.next.inj h
    exact txSend_outboundWhole hi hw id payload
  | taskCycle => exact taskCycle_outboundWhole hi hw h
  | rxStep =>
    obtain ⟨-, h⟩ := whenPhase_eq_next.1 h
    exact (rxStep_onlyReceives h).outboundWhole hw
  | muxDispatch =>
    obtain ⟨-, h⟩ := whenPhase_eq_next.1 h
    obtain ⟨u, hu, h⟩ := andThen_eq_next.1 h
    obtain rfl := Host.Outcome.next.inj h
    exact muxDispatch_outboundWhole (t := u) hi hw hu
  | txDrain =>
    obtain ⟨-, h⟩ := whenPhase_eq_next.1 h
    exact txDrain_outboundWhole (s := s.respond .none) hw h

/-- Settles O42: a send starts a frame only when none is in flight, a drain extends the taken part by the bytes it emits, and
no other instruction touches OUTBOUND or the transmit side. -/
theorem outboundStaysWholeFrames : Obligations.OutboundStaysWholeFrames :=
  fun _ _ _ hs hw h hinit hshutdown => exec_outboundWhole hs.engine hw h hinit hshutdown

/-! ## Inbound bytes in order (R44, R46, R48) -/

/-- Settles O24: the answer is written from index 0 over what the chunk buffer held. -/
theorem transportReadIsStored : Obligations.TransportReadIsStored := by
  intro s hp _
  have hfetch : afterFetch s = s.dropRead.storeChunk s.nextRead := if_pos hp
  rw [hfetch]
  refine ⟨rfl, bytesAt_memWrite_same _ 0 _, fun a ha => ?_, rfl⟩
  show (memWrite s.e.rxChunk 0 s.nextRead).read a = s.e.rxChunk.read a
  rw [read_memWrite, dif_neg (by omega)]

/-- The inbound bytes not yet consumed: the remainder of the chunk, then what the transport will answer (R48). -/
def pending (s : State) : Bytes := remainder s.e ++ s.world.reads.flatten

theorem remainder_of_consumed {e : Engine} (h : e.rxChunkPos = e.rxChunkLen) : remainder e = [] := by
  simp [remainder, h, bytesAt]

/-- With no remainder, what is pending is the next answer and then those after it. -/
theorem pending_of_consumed {s : State} (h : s.e.rxChunkPos = s.e.rxChunkLen) :
    pending s = s.nextRead ++ s.world.reads.tail.flatten := by
  unfold pending State.nextRead
  rw [remainder_of_consumed h]
  cases s.world.reads <;> rfl

/-- Step 1 moves the answer from the transport to the chunk, and no byte of it is consumed (R102). -/
theorem pending_afterFetch {s : State} (hw : hasWork s) : pending (afterFetch s) = pending s := by
  obtain hlt | ⟨hp, hne, -⟩ := hw
  · have hfetch : afterFetch s = s := if_neg (Nat.ne_of_lt hlt)
    rw [hfetch]
  · obtain ⟨-, hrem, -, hworld⟩ := transportReadIsStored s hp hne
    rw [pending_of_consumed hp, pending, hrem, hworld]

/-- Bytes consumed from the chunk are the front of what is pending. -/
theorem pending_withPos (s : State) {k : Nat} (hk : k ≤ s.e.rxChunkLen - s.e.rxChunkPos) :
    pending s = bytesAt s.e.rxChunk s.e.rxChunkPos k ++ pending (s.withPos (s.e.rxChunkPos + k)) := by
  have hrem : remainder s.e = bytesAt s.e.rxChunk s.e.rxChunkPos k ++
      remainder (s.withPos (s.e.rxChunkPos + k)).e := by
    simp only [remainder, State.withPos_e]
    rw [← bytesAt_add]
    congr 1
    omega
  simp only [pending, hrem, List.append_assoc, State.withPos_world]

theorem pending_rxDecode (s : State) (found : SfeResult) (span : Bytes) : pending (rxDecode s found span) = pending s := by
  obtain ⟨_, _, _, _, _, h⟩ := rxDecode_frame s found span
  rw [h]
  rfl

theorem length_workBytes_le (s : State) :
    (workBytes s).length ≤ (afterFetch s).e.rxChunkLen - (afterFetch s).e.rxChunkPos := by
  have h : (workBytes s).length ≤ (remainder (afterFetch s).e).length := by
    unfold workBytes
    rw [← drop_skipCount, List.length_drop]
    exact Nat.sub_le ..
  simpa [remainder] using h

/-- The span of bytes to work on is not empty: they begin with END, or with a byte before the first END (R104). -/
theorem length_workSpan_pos {s : State} (h : workBytes s ≠ []) : 0 < (workSpan s).length := by
  unfold workSpan
  cases hw : workBytes s with
  | nil => exact absurd hw h
  | cons b rest =>
    by_cases hb : b = s.cfg.endByte <;> simp [hb]

/-- RX.STEP moves the position forward, by a span or, where the chunk held END bytes alone, to its end (R103, R111). -/
theorem posAfter_gt {s : State} (hw : hasWork s) : (afterFetch s).e.rxChunkPos < posAfter s := by
  have hlt := afterFetch_pos_lt hw
  have hle := length_workBytes_le s
  unfold posAfter
  by_cases hb : workBytes s = []
  · rw [hb]
    simpa using hlt
  · have hspan := length_workSpan_pos hb
    have hbytes := List.length_pos_iff.2 hb
    omega

theorem posAfter_le (s : State) : posAfter s ≤ (afterFetch s).e.rxChunkLen := Nat.sub_le ..

/-- Settles O23: with no data nothing is pending before the answers to come; else what is consumed runs from the position after
step 1 to the position after step 3. -/
theorem inboundBytesAreConsumedInOrder : Obligations.InboundBytesAreConsumedInOrder := by
  intro s t hi h
  obtain ⟨-, h⟩ := whenPhase_eq_next.1 h
  show ∃ consumed, pending s = consumed ++ pending t ∧ (consumed ≠ [] ↔ hasWork s)
  obtain ⟨hp, hnone, rfl⟩ | ⟨hw, rfl⟩ := rxStep_next hi h
  · have hidle : ¬hasWork s := by simp [hp, hnone]
    refine ⟨[], ?_, by simpa using hidle⟩
    rw [pending_of_consumed hp, hnone]
    show s.world.reads.tail.flatten = remainder s.e ++ s.world.reads.tail.flatten
    rw [remainder_of_consumed hp, List.nil_append]
  · have hgt := posAfter_gt hw
    have hle := posAfter_le s
    have hpos : (afterFetch s).e.rxChunkPos + (posAfter s - (afterFetch s).e.rxChunkPos) = posAfter s := by omega
    have hsplit := pending_withPos (afterFetch s) (k := posAfter s - (afterFetch s).e.rxChunkPos) (by omega)
    rw [hpos, pending_afterFetch hw] at hsplit
    refine ⟨_, by rw [pending_rxDecode]; exact hsplit, iff_of_true ?_ hw⟩
    exact List.ne_nil_of_length_pos (by rw [length_bytesAt]; omega)

/-! ## Answers outside their contract (R46, R47) -/

/-- An answer of more bytes than `RX_CHUNK_MAX` is not stored (U4). -/
theorem rxStep_of_readTooLong {s : State} (hp : s.e.rxChunkPos = s.e.rxChunkLen)
    (hl : s.cfg.rxChunkMax < s.nextRead.length) : rxStep s = .refused .readTooLong := by
  have hne : s.nextRead ≠ [] := List.ne_nil_of_length_pos (Nat.zero_lt_of_lt hl)
  rw [rxStep_eq, if_neg fun h => hne h.2, if_pos ⟨hp, hl⟩]

/-- The three ways RX.STEP goes on from its first step: no data, an answer outside its contract, or a span decoded (R102). -/
theorem rxStep_cases {s : State} (hi : s.e.Inv s.cfg) :
    (s.e.rxChunkPos = s.e.rxChunkLen ∧ s.nextRead = [] ∧ rxStep s = .next (noFrame s.dropRead .noData)) ∨
    (s.e.rxChunkPos = s.e.rxChunkLen ∧ s.cfg.rxChunkMax < s.nextRead.length ∧ rxStep s = .refused .readTooLong) ∨
    (hasWork s ∧ rxStep s =
      .next (rxDecode ((afterFetch s).withPos (posAfter s)) (slipSfe s.cfg (workBytes s)) (workSpan s))) := by
  obtain hlt | hp := Nat.lt_or_eq_of_le hi.pos_le_len
  · have hw : hasWork s := .inl hlt
    exact .inr (.inr ⟨hw, rxStep_of_hasWork hi hw⟩)
  by_cases hnone : s.nextRead = []
  · exact .inl ⟨hp, hnone, by rw [rxStep_eq, if_pos ⟨hp, hnone⟩]⟩
  obtain hlong | hkept := Nat.lt_or_ge s.cfg.rxChunkMax s.nextRead.length
  · exact .inr (.inl ⟨hp, hlong, rxStep_of_readTooLong hp hlong⟩)
  · have hw : hasWork s := .inr ⟨hp, hnone, hkept⟩
    exact .inr (.inr ⟨hw, rxStep_of_hasWork hi hw⟩)

/-- A count above the bytes offered is not taken (U5). -/
theorem txAnswer_of_writeTooLong {s : State} {offered : Bytes} {w : Nat} (h : offered.length < w) :
    txAnswer s offered (.accepted w) = .refused .writeTooLong :=
  if_pos h

/-- Settles O40: RX.STEP refuses at its first step, TX.DRAIN on the answer to its offer. -/
theorem answersOutsideTheirContractAreRefused : Obligations.AnswersOutsideTheirContractAreRefused := by
  refine ⟨fun s hph hp hl => ?_, fun s w hi hph hlt hans hw => ?_⟩
  · exact (whenPhase_of_phase hph _).trans (rxStep_of_readTooLong hp hl)
  · have hoffer : (bytesAt s.e.txBuf s.e.txCur (offerSize s)).length < w := by rwa [length_bytesAt]
    refine (whenPhase_of_phase hph _).trans ?_
    rw [txDrain_of_inFlight (s := s.respond .none) hlt hi.tx_le_cap]
    show txAnswer _ (bytesAt s.e.txBuf s.e.txCur (offerSize s)) s.nextWrite = _
    rw [hans, txAnswer_of_writeTooLong hoffer]

/-! ## The registry at the next dispatch (R53) -/

/-- MUX.REGISTER on an empty slot in range (R131). -/
theorem muxRegister_of_empty {s : State} {id : Byte} (hid : id.toNat ≤ s.cfg.protoMax.toNat)
    (hslot : slot s.e.reg id.toNat = none) (h : Handler) :
    muxRegister id h s = { s with e := { s.e with reg := insertAt id.toNat h s.e.reg }, response := .reg .success } := by
  unfold muxRegister
  rw [if_neg (by rw [BitVec.lt_def]; omega), hslot]

/-- MUX.UNREGISTER of an identifier in range, whatever the slot holds (R132). -/
theorem muxUnregister_of_inRange {s : State} {id : Byte} (hid : id.toNat ≤ s.cfg.protoMax.toNat) :
    muxUnregister id s = { s with e := { s.e with reg := removeAt id.toNat s.e.reg }, response := .none } :=
  if_neg (by rw [BitVec.lt_def]; omega)

/-- MUX.DISPATCH of a frame with no route (R133). -/
theorem execMuxDispatch_of_noRoute {s : State} {id : Byte} {payload : Bytes} {checksum : Byte} (hp : s.e.phase = .dispatch)
    (hc : s.e.rxLen ≤ s.cfg.rxFrameCap) (hf : accumulated s.e = id :: (payload ++ [checksum])) (hr : route s id = none) :
    exec .muxDispatch s = .next ((s.raise .noRoute).respond .none) := by
  refine (whenPhase_of_phase hp _).trans ?_
  rw [muxDispatch_of_frame hc hf, hr]
  rfl

/-- MUX.DISPATCH of a frame routed to a handler that returns at once (R133, R202, R204). -/
theorem execMuxDispatch_of_route_of_done {s : State} {id : Byte} {payload : Bytes} {checksum : Byte} {h : Handler}
    (hp : s.e.phase = .dispatch) (hc : s.e.rxLen ≤ s.cfg.rxFrameCap)
    (hf : accumulated s.e = id :: (payload ++ [checksum])) (hr : route s id = some h) (hb : s.nextBehaviour = .done) :
    exec .muxDispatch s = .next ((s.enterHandler h payload).returnFromHandler.respond .none) := by
  refine (whenPhase_of_phase hp _).trans ?_
  rw [muxDispatch_of_frame hc hf, hr]
  simp only [handlerInvoke, hb, runBehaviour, andThen_next_left]

/-- Settles O34: the registered slot is the one the dispatch looks up, and the unregistered slot is empty there. -/
theorem registryUpdatesAreSeenByDispatch : Obligations.RegistryUpdatesAreSeenByDispatch := by
  intro s id payload checksum h hp hc hf hid hb hslot
  refine ⟨_, _, (whenIdle_of_idle hp _).trans (congrArg _ (muxRegister_of_empty hid hslot h)),
    (whenIdle_of_idle hp _).trans (congrArg _ (muxUnregister_of_inRange hid)), ?_, ?_⟩
  · have hroute : slot (insertAt id.toNat h s.e.reg) id.toNat = some h := by rw [slot_insertAt, if_pos rfl]
    exact ⟨_, execMuxDispatch_of_route_of_done rfl hc hf (route_eq_some.2 ⟨hid, hroute⟩) hb, rfl⟩
  · have hroute : slot (removeAt id.toNat (insertAt id.toNat h s.e.reg)) id.toNat = none := by
      rw [slot_removeAt, if_pos rfl]
    exact ⟨_, execMuxDispatch_of_noRoute rfl hc hf (route_eq_none.2 (.inr hroute)), rfl⟩

/-! ## No access beyond a capacity (R41) -/

theorem andThen_ne_outOfBounds {r : Result} {k : State → Result} (hr : r ≠ .fault .outOfBounds)
    (hk : ∀ s, r = .next s → k s ≠ .fault .outOfBounds) : andThen r k ≠ .fault .outOfBounds := fun h => by
  obtain h | ⟨s, hs, h⟩ := andThen_eq_fault.1 h
  · exact hr h
  · exact hk s hs h

theorem whenIdle_ne_outOfBounds {s : State} {k : Result} (hk : k ≠ .fault .outOfBounds) :
    whenIdle s k ≠ .fault .outOfBounds :=
  fun h => hk (whenIdle_eq_fault.1 h).2

theorem whenIdleOrHandler_ne_outOfBounds {s : State} {k : Result} (hk : k ≠ .fault .outOfBounds) :
    whenIdleOrHandler s k ≠ .fault .outOfBounds := by
  unfold whenIdleOrHandler
  split
  · exact hk
  · exact hk
  all_goals exact nofun

theorem whenPhase_ne_outOfBounds {p : Phase} {s : State} {k : Result} (hk : k ≠ .fault .outOfBounds) :
    whenPhase p s k ≠ .fault .outOfBounds := by
  unfold whenPhase
  split
  · exact hk
  · exact nofun

/-- Under the invariant RX.STEP reads inside the chunk: it completes, or refuses an answer it did not store. -/
theorem rxStep_ne_outOfBounds {s : State} (hi : s.e.Inv s.cfg) : rxStep s ≠ .fault .outOfBounds := by
  obtain ⟨-, -, h⟩ | ⟨-, -, h⟩ | ⟨-, h⟩ := rxStep_cases hi <;> rw [h] <;> exact nofun

theorem handlerInvoke_ne_outOfBounds (h : Handler) (payload : Bytes) (s : State) :
    handlerInvoke h payload s ≠ .fault .outOfBounds :=
  andThen_ne_outOfBounds (fun hb => nomatch runBehaviour_fault hb) fun _ _ => nofun

/-- MUX.DISPATCH reads the accumulated frame alone, whatever its length. -/
theorem muxDispatch_ne_outOfBounds {s : State} (hc : s.e.rxLen ≤ s.cfg.rxFrameCap) :
    muxDispatch s ≠ .fault .outOfBounds := by
  unfold muxDispatch
  rw [memRead_eq_some (by omega)]
  dsimp only
  split
  · exact nofun
  · split
    · exact nofun
    · exact handlerInvoke_ne_outOfBounds _ _ s

theorem txAnswer_ne_outOfBounds (s : State) (offered : Bytes) (a : WriteAnswer) :
    txAnswer s offered a ≠ .fault .outOfBounds := by
  cases a with
  | error => exact nofun
  | accepted w =>
    simp only [txAnswer]
    split <;> exact nofun

/-- TX.DRAIN offers bytes of the frame in flight alone. -/
theorem txDrain_ne_outOfBounds {s : State} (hc : s.e.txLen ≤ s.cfg.txBufCap) : txDrain s ≠ .fault .outOfBounds := by
  by_cases hf : s.e.txCur < s.e.txLen
  · rw [txDrain_of_inFlight hf hc]
    exact txAnswer_ne_outOfBounds _ _ _
  · rw [txDrain_of_idle (by omega)]
    exact nofun

theorem verifyAndDispatch_ne_outOfBounds {s : State} (hc : s.e.rxLen ≤ s.cfg.rxFrameCap) :
    verifyAndDispatch s ≠ .fault .outOfBounds := by
  unfold verifyAndDispatch
  rw [memRead_eq_some (by omega)]
  dsimp only
  split
  · exact muxDispatch_ne_outOfBounds (s := (s.withPhase .verify).withPhase .dispatch) hc
  · exact nofun

theorem receiveHalf_ne_outOfBounds {s : State} (hi : s.e.Inv s.cfg) : receiveHalf s ≠ .fault .outOfBounds := by
  refine andThen_ne_outOfBounds (rxStep_ne_outOfBounds (withPhase_inv hi .rx)) fun r hr => ?_
  have hri : r.e.Inv r.cfg := (rxStep_inv (withPhase_inv hi .rx) hr).1
  split
  · exact andThen_ne_outOfBounds (verifyAndDispatch_ne_outOfBounds hri.frame_le_cap) fun _ _ => nofun
  · exact nofun

theorem transmitHalf_ne_outOfBounds {s : State} (hi : s.e.Inv s.cfg) : transmitHalf s ≠ .fault .outOfBounds :=
  andThen_ne_outOfBounds (txDrain_ne_outOfBounds (s := s.withPhase .drain) hi.tx_le_cap) fun _ _ => nofun

theorem CompletesPurely.ne_outOfBounds {r : Result} {s : State} (h : CompletesPurely r s) : r ≠ .fault .outOfBounds := by
  obtain ⟨t, rfl, -⟩ := h
  exact nofun

/-- Only RX.STEP, MUX.DISPATCH, TX.DRAIN and TASK.CYCLE read a buffer, each within the lengths the invariant bounds. -/
theorem exec_ne_outOfBounds {s : State} (hi : s.e.Inv s.cfg) (i : Instr) : exec i s ≠ .fault .outOfBounds := by
  cases i with
  | wireEnd | wireEsc | wireLiteral | wireEscEnd | wireEscEsc | wireMalformed | stuffEnd | stuffEsc | stuffOther
  | decodedFrame | encodedFrame =>
    exact (exec_completesPurely_of_format_ne_op (by simp [Instr.format]) s).ne_outOfBounds
  | slipEnc | slipSfe | slipDec | ck8Compute | ck8Verify => exact (next_respond_completesPurely s _).ne_outOfBounds
  | reserved6 | reserved7 => exact nofun
  | engineInit | engineShutdown | muxRegister | muxUnregister => exact whenIdle_ne_outOfBounds nofun
  | txSend => exact whenIdleOrHandler_ne_outOfBounds nofun
  | taskCycle =>
    exact whenIdle_ne_outOfBounds (andThen_ne_outOfBounds (receiveHalf_ne_outOfBounds hi) fun u hu =>
      transmitHalf_ne_outOfBounds (receiveHalf_inv hi hu))
  | rxStep => exact whenPhase_ne_outOfBounds (rxStep_ne_outOfBounds hi)
  | muxDispatch =>
    exact whenPhase_ne_outOfBounds (andThen_ne_outOfBounds (muxDispatch_ne_outOfBounds hi.frame_le_cap) fun _ _ => nofun)
  | txDrain => exact whenPhase_ne_outOfBounds (txDrain_ne_outOfBounds (s := s.respond .none) hi.tx_le_cap)

theorem step_ne_outOfBounds {s : State} (hi : s.e.Inv s.cfg) : step s ≠ .fault .outOfBounds := by
  unfold step
  split
  · exact nofun
  · split
    · exact nofun
    next rest _ _ i _ => exact exec_ne_outOfBounds (s := s.beginOperation rest) hi i

theorem step_cfg {s t : State} (h : step s = .next t) : t.cfg = s.cfg := by
  obtain rfl | ⟨i, rest, h⟩ := step_next h
  · rfl
  · exact configurationNeverChanges i (s.beginOperation rest) t h

/-- Two contents that list nothing beyond a capacity are the same there. -/
theorem Memory.read_eq_of_within {m m' : Memory} {cap a : Nat} (h : m.within cap) (h' : m'.within cap) (ha : cap ≤ a) :
    m'.read a = m.read a := by
  rw [Memory.read_of_within h ha, Memory.read_of_within h' ha]

/-- Settles O56: reads by what faults each instruction can answer; stores because the invariant, which the step keeps, leaves
nothing listed beyond a capacity before or after. -/
theorem noAccessIsOutOfBounds : Obligations.NoAccessIsOutOfBounds := by
  intro s hs
  refine ⟨step_ne_outOfBounds hs.engine, fun t ht => ?_⟩
  have hi := hs.engine
  have hti := (everyStepKeepsTheInvariant s t hs ht).engine
  rw [step_cfg ht] at hti
  exact ⟨fun _ => Memory.read_eq_of_within hi.chunk_within hti.chunk_within,
    fun _ => Memory.read_eq_of_within hi.frame_within hti.frame_within,
    fun _ => Memory.read_eq_of_within hi.tx_within hti.tx_within⟩

end Sys2Proof.Machine

/-! PROOFS, encoding (`30_encoding.md`). The decoder and the encoder as inverses of each other (R61 to R65, R71), the rows of the
byte tables and of the frame formats as instructions (R61 to R66), and runs of them as the loops of SLIP.DEC and SLIP.ENC
(R86, R82). -/

namespace Sys2Proof.Machine

/-! ## The byte tables (R61, R62, R63) -/

/-- A byte table has two exact rows before its catch-all row: what holds of the three holds of the row of every byte. -/
theorem byteTable_rec {P : Byte → Instr → Prop} {x y : Byte} {i j : Instr} {k : Byte → Instr}
    (first : P x i) (second : x ≠ y → P y j) (other : ∀ b, b ≠ x → b ≠ y → P b (k b)) (b : Byte) :
    P b (if b = x then i else if b = y then j else k b) := by
  by_cases hx : b = x
  · rw [if_pos hx, hx]
    exact first
  rw [if_neg hx]
  by_cases hy : b = y
  · rw [if_pos hy, hy]
    exact second fun h => hx (hy.trans h.symm)
  · rw [if_neg hy]
    exact other b hx hy

theorem decodeWireNormal_rec {c : Config} {P : Byte → Instr → Prop} (first : P c.endByte .wireEnd)
    (second : c.endByte ≠ c.escByte → P c.escByte .wireEsc)
    (other : ∀ b, b ≠ c.endByte → b ≠ c.escByte → P b (.wireLiteral b)) (b : Byte) : P b (decodeWireNormal c b) :=
  byteTable_rec first second other b

theorem decodeWireEscaped_rec {c : Config} {P : Byte → Instr → Prop} (first : P c.escEndByte .wireEscEnd)
    (second : c.escEndByte ≠ c.escEscByte → P c.escEscByte .wireEscEsc)
    (other : ∀ b, b ≠ c.escEndByte → b ≠ c.escEscByte → P b (.wireMalformed b)) (b : Byte) : P b (decodeWireEscaped c b) :=
  byteTable_rec first second other b

theorem decodeStuff_rec {c : Config} {P : Byte → Instr → Prop} (first : P c.endByte .stuffEnd)
    (second : c.endByte ≠ c.escByte → P c.escByte .stuffEsc)
    (other : ∀ d, d ≠ c.endByte → d ≠ c.escByte → P d (.stuffOther d)) (d : Byte) : P d (decodeStuff c d) :=
  byteTable_rec first second other d

theorem decodeOneByte_eq_ok {row : Byte → Instr} {bytes : Bytes} {i : Instr} :
    decodeOneByte row bytes = .ok i ↔ ∃ b, bytes = [b] ∧ row b = i := by
  cases bytes with
  | nil => simp [decodeOneByte]
  | cons b rest => cases rest <;> simp [decodeOneByte]

/-! ## SLIP.SFE and SLIP.DEC of a stuffed body (R63, R84, R86) -/

/-- Where SLIP.SFE finds an END, no END stands before it (R84). -/
theorem slipSfe_found {c : Config} {a : Bytes} {e : Nat} (h : slipSfe c a = .found e) :
    ∃ body rest, a = body ++ c.endByte :: rest ∧ c.endByte ∉ body ∧ body.length = e := by
  by_cases hm : c.endByte ∈ a
  · obtain ⟨body, rest, rfl, hbody⟩ := List.eq_append_cons_of_mem hm
    rw [slipSfe_append_end hbody] at h
    exact ⟨body, rest, rfl, hbody, SfeResult.found.inj h⟩
  · rw [slipSfe_of_notMem hm] at h
    cases h

theorem prependOut_eq_ok {out o : Bytes} {e : Bool} {r : DecResult} :
    prependOut out r = .ok o e ↔ ∃ o', r = .ok o' e ∧ out ++ o' = o := by
  cases r <;> simp [prependOut, and_comm]

/-- SLIP.DEC of bytes without END is undone by stuffing: in the escape state they complete the pair of an ESC before them. -/
theorem stuffed_of_slipDec {c : Config} (hc : c.MarkersDistinct) {e : Bool} {src out : Bytes} (hend : c.endByte ∉ src)
    (h : slipDec c e src = .ok out false) :
    out.flatMap (stuff c) = (if e then [c.escByte] else []) ++ src := by
  obtain ⟨hne, -⟩ := hc
  induction src generalizing e out with
  | nil =>
    obtain ⟨rfl, rfl⟩ := DecResult.ok.inj h
    rfl
  | cons b r ih =>
    have hb : b ≠ c.endByte := (List.ne_of_not_mem_cons hend).symm
    have hr : c.endByte ∉ r := List.not_mem_of_not_mem_cons hend
    cases e with
    | false =>
      by_cases hesc : b = c.escByte
      · subst hesc
        rw [slipDec_esc hne] at h
        exact ih hr h
      · rw [slipDec_literal hb hesc] at h
        obtain ⟨o, ho, rfl⟩ := prependOut_eq_ok.1 h
        simp [stuff_of_ne hb hesc, ih hr ho]
    | true =>
      by_cases h1 : b = c.escEndByte
      · subst h1
        rw [slipDec_escEnd] at h
        obtain ⟨o, ho, rfl⟩ := prependOut_eq_ok.1 h
        simp [ih hr ho]
      by_cases h2 : b = c.escEscByte
      · subst h2
        rw [slipDec_escEsc (Ne.symm h1)] at h
        obtain ⟨o, ho, rfl⟩ := prependOut_eq_ok.1 h
        simp [stuff_escByte hne, ih hr ho]
      · rw [slipDec_bad h1 h2] at h
        cases h

/-! ## The frame formats (R64, R65) -/

theorem decodeDecodedFrame_concat (c : Config) (id : Byte) (payload : Bytes) (checksum : Byte) :
    decodeDecodedFrame c (id :: (payload ++ [checksum])) =
      if payload.length + 2 ≤ c.frameMax then .ok (.decodedFrame id payload checksum) else .error .frameTooLong := by
  simp only [decodeDecodedFrame, List.getLast?_concat, List.dropLast_concat, List.length_append, List.length_singleton]

/-- What DECODED_FRAME accepts is an identifier, a payload and a checksum, within the largest frame. -/
theorem decodeDecodedFrame_ok {c : Config} {bytes : Bytes} {i : Instr} (h : decodeDecodedFrame c bytes = .ok i) :
    ∃ id payload checksum, bytes = id :: (payload ++ [checksum]) ∧ payload.length + 2 ≤ c.frameMax ∧
      i = .decodedFrame id payload checksum := by
  cases bytes with
  | nil => cases h
  | cons id rest =>
    obtain rfl | ⟨payload, checksum, rfl⟩ := List.eq_nil_or_concat' rest
    · cases h
    · rw [decodeDecodedFrame_concat] at h
      split at h
      next hlen => exact ⟨id, payload, checksum, rfl, hlen, (Except.ok.inj h).symm⟩
      next => cases h

theorem encode_encodedFrame (c : Config) (f : Bytes) :
    encode c (.encodedFrame f) = c.endByte :: (f.flatMap (stuff c) ++ [c.endByte]) := rfl

/-- Two markers around the stuffed form of a frame of allowed length are that frame (R64). -/
theorem decodeEncodedFrame_stuffed {c : Config} (hc : c.MarkersDistinct) {f : Bytes} (h2 : 2 ≤ f.length)
    (hmax : f.length ≤ c.frameMax) :
    decodeEncodedFrame c (c.endByte :: (f.flatMap (stuff c) ++ [c.endByte])) = .ok (.encodedFrame f) := by
  simp [decodeEncodedFrame, slipSfe_append_end (endByte_notMem_stuffed hc f), slipDec_stuffed hc f, Nat.not_le.2 h2,
    Nat.not_lt.2 hmax]

/-- What ENCODED_FRAME accepts is two markers around the stuffed form of a frame of allowed length. -/
theorem decodeEncodedFrame_ok {c : Config} (hc : c.MarkersDistinct) {bytes : Bytes} {i : Instr}
    (h : decodeEncodedFrame c bytes = .ok i) :
    ∃ f, bytes = c.endByte :: (f.flatMap (stuff c) ++ [c.endByte]) ∧ 2 ≤ f.length ∧ f.length ≤ c.frameMax ∧
      i = .encodedFrame f := by
  cases bytes with
  | nil => cases h
  | cons b rest =>
    simp only [decodeEncodedFrame] at h
    split at h
    case isFalse => cases h
    case isTrue hb =>
    split at h
    case h_1 => cases h
    case h_2 e he =>
    split at h
    case isFalse => cases h
    case isTrue hlen =>
    obtain ⟨body, tail, rfl, hbody, rfl⟩ := slipSfe_found he
    obtain rfl : tail = [] := by simpa using hlen
    rw [List.take_left] at h
    split at h
    case h_1 => cases h
    case h_2 => cases h
    case h_3 f hf =>
    have hstuffed : f.flatMap (stuff c) = body := stuffed_of_slipDec hc hbody hf
    split at h
    case isTrue => cases h
    case isFalse h2 =>
    split at h
    case isTrue => cases h
    case isFalse hmax =>
    exact ⟨f, by rw [hb, hstuffed], by omega, by omega, (Except.ok.inj h).symm⟩

/-! ## The operands of a request (R71; log entry 11) -/

theorem noOperands_eq_ok {i j : Instr} {bytes : Bytes} : noOperands i bytes = .ok j ↔ bytes = [] ∧ i = j := by
  cases bytes <;> simp [noOperands]

theorem byteOperand_eq_ok {k : Byte → Bytes → Except DecodeError Instr} {bytes : Bytes} {i : Instr} :
    byteOperand k bytes = .ok i ↔ ∃ b rest, bytes = b :: rest ∧ k b rest = .ok i := by
  cases bytes <;> simp [byteOperand]

theorem encFlags_encFlagByte (k : Bool → Bool → Instr) (p a : Bool) : encFlags k (encFlagByte p a) = .ok (k p a) := by
  cases p <;> cases a <;> rfl

/-- The four flag bytes of SLIP.ENC. -/
theorem encFlags_ok {k : Bool → Bool → Instr} {b : Byte} {i : Instr} (h : encFlags k b = .ok i) :
    ∃ p a, b = encFlagByte p a ∧ i = k p a := by
  unfold encFlags at h
  split at h
  case isTrue hb => exact ⟨false, false, hb, (Except.ok.inj h).symm⟩
  split at h
  case isTrue hb => exact ⟨true, false, hb, (Except.ok.inj h).symm⟩
  split at h
  case isTrue hb => exact ⟨false, true, hb, (Except.ok.inj h).symm⟩
  split at h
  case isTrue hb => exact ⟨true, true, hb, (Except.ok.inj h).symm⟩
  case isFalse => cases h

/-- The two flag bytes of SLIP.DEC. -/
theorem escFlag_ok {k : Bool → Instr} {b : Byte} {i : Instr} (h : escFlag k b = .ok i) :
    ∃ e : Bool, b = (if e then 1#8 else 0#8) ∧ i = k e := by
  unfold escFlag at h
  split at h
  case isTrue hb => exact ⟨false, hb, (Except.ok.inj h).symm⟩
  split at h
  case isTrue hb => exact ⟨true, hb, (Except.ok.inj h).symm⟩
  case isFalse => cases h

/-! ## Decoding what was encoded -/

/-- The select code and its operands read back as the operation they were written from. -/
theorem decode_encode_of_op (c : Config) (i : Instr) (h : i.format = .op) : decode c i.format (encode c i) = .ok i := by
  cases i with
  | wireEnd | wireEsc | wireLiteral | wireEscEnd | wireEscEsc | wireMalformed | stuffEnd | stuffEsc | stuffOther
  | decodedFrame | encodedFrame => cases h
  | slipEnc src p a => exact encFlags_encFlagByte (.slipEnc src) p a
  | slipDec e src => cases e <;> rfl
  | _ => rfl

/-- Settles O2: each format has its own inverse; a byte row is reached because the markers are four values, a frame row because
the stuffed body holds no END and decodes to the frame. -/
theorem decodeOfEncodeIsTheInstruction : Obligations.DecodeOfEncodeIsTheInstruction := by
  intro c i hc hwf
  have ⟨hEndEsc, _, _, _, _, hPair⟩ := hc
  cases i with
  | wireEnd | wireEscEnd | stuffEnd => exact congrArg Except.ok (if_pos rfl)
  | wireEsc | stuffEsc => exact congrArg Except.ok ((if_neg hEndEsc.symm).trans (if_pos rfl))
  | wireEscEsc => exact congrArg Except.ok ((if_neg hPair.symm).trans (if_pos rfl))
  | wireLiteral b | wireMalformed b | stuffOther b =>
    simp only [Instr.wf, Bool.and_eq_true, bne_iff_ne] at hwf
    obtain ⟨hx, hy⟩ := hwf
    exact congrArg Except.ok ((if_neg hx).trans (if_neg hy))
  | decodedFrame id payload checksum =>
    exact (decodeDecodedFrame_concat c id payload checksum).trans (if_pos (of_decide_eq_true hwf))
  | encodedFrame f =>
    simp only [Instr.wf, Bool.and_eq_true, decide_eq_true_eq] at hwf
    obtain ⟨h2, hmax⟩ := hwf
    exact decodeEncodedFrame_stuffed hc h2 hmax
  | _ => exact decode_encode_of_op c _ rfl

/-! ## Encoding what was decoded -/

/-- `bytes` is the encoding of the well-formed instruction `i` of format `f`. -/
def Encodes (c : Config) (f : Format) (bytes : Bytes) (i : Instr) : Prop :=
  i.wf c = true ∧ i.format = f ∧ encode c i = bytes

/-- A catch-all row holds neither exact byte of its table (R75). -/
theorem wf_catchAll {b x y : Byte} (hx : b ≠ x) (hy : b ≠ y) : (b != x && b != y) = true := by simp [hx, hy]

theorem decodeWireNormal_encodes (c : Config) (b : Byte) : Encodes c .wireNormal [b] (decodeWireNormal c b) :=
  decodeWireNormal_rec (P := fun b => Encodes c .wireNormal [b]) ⟨rfl, rfl, rfl⟩ (fun _ => ⟨rfl, rfl, rfl⟩)
    (fun _ hx hy => ⟨wf_catchAll hx hy, rfl, rfl⟩) b

theorem decodeWireEscaped_encodes (c : Config) (b : Byte) : Encodes c .wireEscaped [b] (decodeWireEscaped c b) :=
  decodeWireEscaped_rec (P := fun b => Encodes c .wireEscaped [b]) ⟨rfl, rfl, rfl⟩ (fun _ => ⟨rfl, rfl, rfl⟩)
    (fun _ hx hy => ⟨wf_catchAll hx hy, rfl, rfl⟩) b

theorem decodeStuff_encodes (c : Config) (d : Byte) : Encodes c .stuff [d] (decodeStuff c d) :=
  decodeStuff_rec (P := fun d => Encodes c .stuff [d]) ⟨rfl, rfl, rfl⟩ (fun _ => ⟨rfl, rfl, rfl⟩)
    (fun _ hx hy => ⟨wf_catchAll hx hy, rfl, rfl⟩) d

theorem decodeOneByte_encodes {c : Config} {f : Format} {row : Byte → Instr} {bytes : Bytes} {i : Instr}
    (hrow : ∀ b, Encodes c f [b] (row b)) (h : decodeOneByte row bytes = .ok i) : Encodes c f bytes i := by
  obtain ⟨b, rfl, rfl⟩ := decodeOneByte_eq_ok.1 h
  exact hrow b

theorem noOperands_encodes {c : Config} {b : Byte} {rest : Bytes} {i j : Instr} (hi : Encodes c .op [b] i)
    (h : noOperands i rest = .ok j) : Encodes c .op (b :: rest) j := by
  obtain ⟨rfl, rfl⟩ := noOperands_eq_ok.1 h
  exact hi

theorem byteOperand_encodes {c : Config} {b : Byte} {rest : Bytes} {k : Byte → Bytes → Except DecodeError Instr} {j : Instr}
    (hk : ∀ d r, k d r = .ok j → Encodes c .op (b :: d :: r) j) (h : byteOperand k rest = .ok j) :
    Encodes c .op (b :: rest) j := by
  obtain ⟨d, r, rfl, h⟩ := byteOperand_eq_ok.1 h
  exact hk d r h

theorem ok_encodes {c : Config} {bytes : Bytes} {i j : Instr} (hi : Encodes c .op bytes i)
    (h : (.ok i : Except DecodeError Instr) = .ok j) : Encodes c .op bytes j :=
  Except.ok.inj h ▸ hi

/-- An operation accepted after select code `b` is encoded with that code, by the sixteen codes of R71. -/
theorem decodeOperands_encodes (c : Config) {b : Byte} {rest : Bytes} {i : Instr} (h : decodeOperands b rest = .ok i) :
    Encodes c .op (b :: rest) i := by
  have hb : b = BitVec.ofNat 8 b.toNat := by simp
  unfold decodeOperands at h
  generalize b.toNat = code at h hb
  subst hb
  split at h
  case h_1 | h_2 | h_6 | h_7 | h_8 | h_14 | h_15 | h_16 => exact noOperands_encodes ⟨rfl, rfl, rfl⟩ h
  case h_3 | h_5 => exact byteOperand_encodes (fun _ _ => ok_encodes ⟨rfl, rfl, rfl⟩) h
  case h_4 =>
    refine byteOperand_encodes (fun d r hd => ?_) h
    obtain ⟨rfl, rfl⟩ := noOperands_eq_ok.1 hd
    exact ⟨rfl, rfl, rfl⟩
  case h_9 =>
    refine byteOperand_encodes (fun d r hd => ?_) h
    obtain ⟨p, a, rfl, rfl⟩ := encFlags_ok hd
    exact ⟨rfl, rfl, rfl⟩
  case h_10 | h_12 | h_13 => exact ok_encodes ⟨rfl, rfl, rfl⟩ h
  case h_11 =>
    refine byteOperand_encodes (fun d r hd => ?_) h
    obtain ⟨e, rfl, rfl⟩ := escFlag_ok hd
    exact ⟨rfl, rfl, rfl⟩
  case h_17 => cases h

theorem decodeDecodedFrame_encodes {c : Config} {bytes : Bytes} {i : Instr} (h : decodeDecodedFrame c bytes = .ok i) :
    Encodes c .decodedFrame bytes i := by
  obtain ⟨id, payload, checksum, rfl, hlen, rfl⟩ := decodeDecodedFrame_ok h
  exact ⟨decide_eq_true hlen, rfl, rfl⟩

theorem decodeEncodedFrame_encodes {c : Config} (hc : c.MarkersDistinct) {bytes : Bytes} {i : Instr}
    (h : decodeEncodedFrame c bytes = .ok i) : Encodes c .encodedFrame bytes i := by
  obtain ⟨f, rfl, h2, hmax, rfl⟩ := decodeEncodedFrame_ok hc h
  exact ⟨by simp [Instr.wf, h2, hmax], rfl, encode_encodedFrame c f⟩

/-- Settles O3: by the format, with the inversion of each decoder. -/
theorem decodedBytesAreTheOnlyEncoding : Obligations.DecodedBytesAreTheOnlyEncoding := by
  intro c f bytes i hc h
  show Encodes c f bytes i
  cases f with
  | wireNormal => exact decodeOneByte_encodes (decodeWireNormal_encodes c) h
  | wireEscaped => exact decodeOneByte_encodes (decodeWireEscaped_encodes c) h
  | stuff => exact decodeOneByte_encodes (decodeStuff_encodes c) h
  | decodedFrame => exact decodeDecodedFrame_encodes h
  | encodedFrame => exact decodeEncodedFrame_encodes hc h
  | op =>
    cases bytes with
    | nil => cases h
    | cons b rest => exact decodeOperands_encodes c h

/-- Settles O1: each word is the encoding of the row it stands for, which is well formed under R10's values. -/
theorem tableWordsDecodeToTheirRows : Obligations.TableWordsDecodeToTheirRows := by
  have row : ∀ i : Instr, i.wf {} = true → decode {} i.format (encode {} i) = .ok i :=
    fun i => decodeOfEncodeIsTheInstruction {} i (by decide)
  exact ⟨row .wireEnd rfl, row .wireEsc rfl, row (.wireLiteral 0xDC#8) rfl, row .wireEscEnd rfl, row .wireEscEsc rfl,
    row (.wireMalformed 0xC0#8) rfl, row .stuffEnd rfl, row .stuffEsc rfl, row (.stuffOther 0x41#8) rfl,
    row .engineInit rfl, row (.muxRegister 0x47#8 ⟨[0x01#8]⟩) rfl, row (.txSend 0x01#8 [0xC0#8, 0xDB#8]) rfl,
    row .taskCycle rfl, row (.slipEnc [0x41#8] true true) rfl, row .txDrain rfl,
    row (.decodedFrame 0x41#8 [0x42#8, 0x43#8] 0xC6#8) rfl, row (.encodedFrame [0x40#8, 0x80#8, 0xC0#8]) rfl⟩

/-! ## The wire rows as instructions (R61, R62; log entry 9) -/

theorem normalRow_of_noEscape {s : State} (h : s.codec.esc = false) (b : Byte) (a : WireAction) :
    normalRow s b a = .next (wireApply s a) := by
  rw [normalRow, if_neg (by simp [h])]

/-- A row of WIRE_NORMAL met in the escape state does what R62 says of its byte. -/
theorem normalRow_of_escape {s : State} {b : Byte} {a : WireAction} (h : s.codec.esc = true)
    (ha : escapedAction s.cfg b = a) (own : WireAction) : normalRow s b own = .next (wireApply s a) := by
  rw [normalRow, if_pos h, ha]

theorem escapedRow_of_escape {s : State} (h : s.codec.esc = true) (b : Byte) (a : WireAction) :
    escapedRow s b a = .next (wireApply s a) := by
  rw [escapedRow, if_pos h]

/-- A row of WIRE_ESCAPED met outside the escape state does what R61 says of its byte. -/
theorem escapedRow_of_noEscape {s : State} {b : Byte} {a : WireAction} (h : s.codec.esc = false)
    (ha : normalAction s.cfg b = a) (own : WireAction) : escapedRow s b own = .next (wireApply s a) := by
  rw [escapedRow, if_neg (by simp [h]), ha]

/-- Settles O4: outside the escape state a row of WIRE_NORMAL has its own action. -/
theorem wireNormalBytesAct : Obligations.WireNormalBytesAct :=
  ⟨fun _ _ => rfl, fun _ h =>
    ⟨normalRow_of_noEscape h _ _, normalRow_of_noEscape h _ _, fun b _ _ => normalRow_of_noEscape h b _⟩⟩

/-- Settles O5: in the escape state a row of WIRE_ESCAPED has its own action. -/
theorem wireEscapedBytesAct : Obligations.WireEscapedBytesAct :=
  ⟨fun _ _ => rfl, fun _ h =>
    ⟨escapedRow_of_escape h _ _, escapedRow_of_escape h _ _, fun b _ _ => escapedRow_of_escape h b _⟩⟩

/-- Settles O6: a row met in the other escape state applies the action of its byte's class there. -/
theorem wireRowsMetInTheOtherEscapeState : Obligations.WireRowsMetInTheOtherEscapeState := by
  constructor
  · intro s ⟨_, h2, h3, h4, h5, h6⟩ h failed unescapes
    exact ⟨normalRow_of_escape h (escapedAction_of_ne h2 h3) _, normalRow_of_escape h (escapedAction_of_ne h4 h5) _,
      normalRow_of_escape h (escapedAction_escEndByte _) _, normalRow_of_escape h (escapedAction_escEscByte h6) _,
      fun b hb hb' => normalRow_of_escape h (escapedAction_of_ne hb hb') _⟩
  · intro s ⟨h1, h2, h3, h4, h5, _⟩ h outputs
    exact ⟨escapedRow_of_noEscape h (normalAction_of_ne h2.symm h4.symm) _,
      escapedRow_of_noEscape h (normalAction_of_ne h3.symm h5.symm) _,
      escapedRow_of_noEscape h (normalAction_endByte _) _, escapedRow_of_noEscape h (normalAction_escByte h1) _,
      fun b hb hb' => escapedRow_of_noEscape h (normalAction_of_ne hb hb') _⟩

/-! ## The stuffed form (R63, R66) -/

/-- In the stuffed form ESC is followed by ESC_END or ESC_ESC: it opens a pair. -/
theorem stuffed_esc_opens_pair {c : Config} (hc : c.MarkersDistinct) (x : Bytes) {i : Nat}
    (h : (x.flatMap (stuff c))[i]? = some c.escByte) :
    (x.flatMap (stuff c))[i + 1]? = some c.escEndByte ∨ (x.flatMap (stuff c))[i + 1]? = some c.escEscByte := by
  obtain ⟨-, -, -, hEnd, hEsc, -⟩ := hc
  induction x generalizing i with
  | nil => simp at h
  | cons d r ih =>
    rw [List.flatMap_cons] at h ⊢
    obtain ⟨-, e⟩ | ⟨-, -, e⟩ | ⟨-, hd, e⟩ := stuff_cases c d <;> rw [e] at h ⊢
    · match i with
      | 0 => exact .inl rfl
      | 1 => exact absurd (Option.some.inj h).symm hEnd
      | _ + 2 => exact ih h
    · match i with
      | 0 => exact .inr rfl
      | 1 => exact absurd (Option.some.inj h).symm hEsc
      | _ + 2 => exact ih h
    · match i with
      | 0 => exact absurd (Option.some.inj h) hd
      | _ + 1 => exact ih h

/-- In the stuffed form ESC does not follow ESC: it is no second byte of a pair. -/
theorem stuffed_esc_closes_no_pair {c : Config} (hc : c.MarkersDistinct) (x : Bytes) {i : Nat}
    (h : (x.flatMap (stuff c))[i + 1]? = some c.escByte) : (x.flatMap (stuff c))[i]? ≠ some c.escByte := by
  intro hi
  have hnext := stuffed_esc_opens_pair hc x hi
  obtain ⟨-, -, -, hEnd, hEsc, -⟩ := hc
  rw [h] at hnext
  simp [hEnd, hEsc] at hnext

/-- Settles O7: the rows emit what `stuff` answers; an ESC after an ESC would have to be a second byte. -/
theorem stuffedFormHoldsNoMarker : Obligations.StuffedFormHoldsNoMarker := by
  refine ⟨fun _ => ⟨rfl, rfl, fun _ _ _ => rfl⟩, fun _ _ => rfl, fun c x hc => ⟨endByte_notMem_stuffed hc x, fun i h => ?_⟩⟩
  refine ⟨stuffed_esc_opens_pair hc x h, ?_⟩
  cases i with
  | zero => exact .inl rfl
  | succ i => exact .inr (stuffed_esc_closes_no_pair hc x h)

/-- Each END and each ESC of the data is stuffed with one byte more (R66, R83). -/
theorem length_stuffed {c : Config} (hc : c.MarkersDistinct) (x : Bytes) :
    (x.flatMap (stuff c)).length = x.length + (x.count c.endByte + x.count c.escByte) := by
  obtain ⟨hne, -⟩ := hc
  induction x with
  | nil => rfl
  | cons d r ih =>
    rw [List.flatMap_cons, List.length_append, ih]
    obtain ⟨rfl, e⟩ | ⟨-, rfl, e⟩ | ⟨hEnd, hEsc, e⟩ := stuff_cases c d
    · simp [e, hne]
      omega
    · simp [e, hne.symm]
      omega
    · simp [e, hEnd, hEsc]
      omega

/-! ## The frame rows as instructions (R64, R65, R66) -/

/-- CK8.VERIFY of a decoded frame compares its last byte with CK8 of the bytes before it. -/
theorem ck8Verify_decodedFrame (c : Config) (id : Byte) (payload : Bytes) (checksum : Byte) :
    ck8Verify c (id :: payload ++ [checksum]) = decide (ck8 c (id :: payload) = checksum) := by
  unfold ck8Verify
  rw [List.getLast?_concat, List.dropLast_concat]
  simp [Bool.beq_eq_decide_eq]

/-- Settles O10: DECODED_FRAME verifies as CK8.VERIFY does, ENCODED_FRAME adds the two markers to the stuffed bytes. -/
theorem frameRowsSplitAndBuild : Obligations.FrameRowsSplitAndBuild := by
  constructor
  · intro s id payload checksum
    rw [← ck8Verify_decodedFrame]
    rfl
  · refine fun s f => ⟨[s.cfg.endByte] ++ f.flatMap (stuff s.cfg) ++ [s.cfg.endByte], rfl, rfl, fun hc => ?_⟩
    rw [List.length_append, List.length_append, length_stuffed hc]
    simp only [List.length_singleton]
    omega

/-! ## Rows run one request at a time (R86, R82; log entry 9) -/

/-- From `s` to `t` the loop variables of the codec become `k` and the requests `rest`; the engine, the configuration and the
rest of the surroundings stay. -/
def MovesCodec (s : State) (rest : List Request) (k : Codec) (t : State) : Prop :=
  t.codec = k ∧ t.e = s.e ∧ t.cfg = s.cfg ∧ t.world = { s.world with requests := rest }

theorem MovesCodec.trans {s t u : State} {rest rest' : List Request} {k k' : Codec} (h : MovesCodec s rest k t)
    (h' : MovesCodec t rest' k' u) : MovesCodec s rest' k' u := by
  obtain ⟨-, he, hcfg, hworld⟩ := h
  obtain ⟨hk', he', hcfg', hworld'⟩ := h'
  exact ⟨hk', he'.trans he, hcfg'.trans hcfg, by rw [hworld', hworld]⟩

theorem movesCodec_refl {s : State} (h : s.world.requests = []) : MovesCodec s [] s.codec s :=
  ⟨rfl, rfl, rfl, by rw [← h]⟩

/-- A run whose first step completes goes on from there. -/
theorem run_succ_of_step {M : Host.Core} {s t : M.State} (h : M.step s = .next t) (n : Nat) :
    M.run (n + 1) s = M.run n t := by
  rw [Host.Core.run, h]

/-- A run is a first step and a run from where it leads. -/
theorem run_succ_movesCodec {s t : State} {rest : List Request} {k k' : Codec} {n : Nat} (hstep : step s = .next t)
    (ht : MovesCodec s rest k t) (hrun : ∃ u, Host.Core.run core n t = .next u ∧ MovesCodec t [] k' u) :
    ∃ u, Host.Core.run core (n + 1) s = .next u ∧ MovesCodec s [] k' u := by
  obtain ⟨u, hu, hm⟩ := hrun
  exact ⟨u, (run_succ_of_step (M := core) hstep n).trans hu, ht.trans hm⟩

/-- The row a wire byte decodes to in the escape state the decoder is in has the action of the byte's class there (R68). -/
theorem exec_of_wireByte (s : State) (b : Byte) :
    exec (if s.codec.esc then decodeWireEscaped s.cfg b else decodeWireNormal s.cfg b) s =
      .next (wireApply s (wireAction s.cfg s.codec.esc b)) := by
  cases h : s.codec.esc with
  | false =>
    exact decodeWireNormal_rec (P := fun b i => exec i s = .next (wireApply s (normalAction s.cfg b)))
      (by rw [normalAction_endByte]; exact normalRow_of_noEscape h _ _)
      (fun hne => by rw [normalAction_escByte hne]; exact normalRow_of_noEscape h _ _)
      (fun b hx hy => by rw [normalAction_of_ne hx hy]; exact normalRow_of_noEscape h _ _) b
  | true =>
    exact decodeWireEscaped_rec (P := fun b i => exec i s = .next (wireApply s (escapedAction s.cfg b)))
      (by rw [escapedAction_escEndByte]; exact escapedRow_of_escape h _ _)
      (fun hne => by rw [escapedAction_escEscByte hne]; exact escapedRow_of_escape h _ _)
      (fun b hx hy => by rw [escapedAction_of_ne hx hy]; exact escapedRow_of_escape h _ _) b

theorem decodeRequest_wire (s : State) (b : Byte) :
    decodeRequest s ⟨.wire, [b]⟩ =
      .ok (if s.codec.esc then decodeWireEscaped s.cfg b else decodeWireNormal s.cfg b) := by
  unfold decodeRequest
  cases s.codec.esc <;> rfl

/-- An action that does not fail is an iteration of the loop of SLIP.DEC on the decoder's loop variables (R86). -/
theorem wireApply_codec {s : State} {b : Byte} {out : Bytes} {esc : Bool}
    (h : decStep s.cfg (.ok s.codec.out s.codec.esc) b = .ok out esc) :
    (wireApply s (wireAction s.cfg s.codec.esc b)).codec = { s.codec with out := out, esc := esc } := by
  simp only [decStep] at h
  cases ha : wireAction s.cfg s.codec.esc b <;> rw [ha] at h
  case malformed => cases h
  all_goals
    obtain ⟨rfl, rfl⟩ := DecResult.ok.inj h
    rfl

/-- One wire request is one iteration of the loop of SLIP.DEC (R86). -/
theorem step_wire {s : State} {b : Byte} {rest : List Request} {out : Bytes} {esc : Bool}
    (hr : s.world.requests = ⟨.wire, [b]⟩ :: rest)
    (h : decStep s.cfg (.ok s.codec.out s.codec.esc) b = .ok out esc) :
    ∃ t, step s = .next t ∧ MovesCodec s rest { s.codec with out := out, esc := esc } t := by
  obtain ⟨he, hworld, hcfg, -⟩ := wireApply_onlyAnswers (s.beginOperation rest) (wireAction s.cfg s.codec.esc b)
  exact ⟨_, (step_of_decodeRequest hr (decodeRequest_wire s b)).trans (exec_of_wireByte (s.beginOperation rest) b),
    wireApply_codec (s := s.beginOperation rest) h, he, hcfg, hworld⟩

/-- Wire requests run as the loop of SLIP.DEC, started on the decoder's loop variables. -/
theorem run_wire {s : State} {src out : Bytes} {esc : Bool} (hr : s.world.requests = src.map fun b => ⟨.wire, [b]⟩)
    (h : src.foldl (decStep s.cfg) (.ok s.codec.out s.codec.esc) = .ok out esc) :
    ∃ t, Host.Core.run core src.length s = .next t ∧ MovesCodec s [] { s.codec with out := out, esc := esc } t := by
  induction src generalizing s with
  | nil =>
    obtain ⟨rfl, rfl⟩ := DecResult.ok.inj h
    exact ⟨s, rfl, movesCodec_refl hr⟩
  | cons b r ih =>
    rw [List.foldl_cons] at h
    cases hb : decStep s.cfg (.ok s.codec.out s.codec.esc) b with
    | malformed =>
      rw [hb, foldl_decStep_malformed] at h
      cases h
    | ok out' esc' =>
      obtain ⟨t, hstep, ht⟩ := step_wire hr hb
      have ⟨hk, _, hcfg, hworld⟩ := ht
      have hrun := ih (s := t) (by rw [hworld]) (by rw [hcfg, hk, ← hb]; exact h)
      rw [hk] at hrun
      exact run_succ_movesCodec hstep ht hrun

/-- Settles O8: the run is the loop of SLIP.DEC, which started on output already made puts that before its own. -/
theorem wireStepsComputeSlipDec : Obligations.WireStepsComputeSlipDec := fun s src out escOut hr h =>
  run_wire hr (by rw [foldl_decStep, h, prependOut])

/-- The row a data byte decodes to emits the byte's stuffed form (R63). -/
theorem exec_decodeStuff (s : State) (d : Byte) : exec (decodeStuff s.cfg d) s = emitStuffed s (stuff s.cfg d) :=
  decodeStuff_rec (P := fun d i => exec i s = emitStuffed s (stuff s.cfg d))
    (by rw [stuff_endByte]; rfl) (fun hne => by rw [stuff_escByte hne]; rfl)
    (fun d hx hy => by rw [stuff_of_ne hx hy]; rfl) d

/-- One data request is one iteration of the loop of SLIP.ENC (R82). -/
theorem step_stuff {s : State} {d : Byte} {rest : List Request} (hr : s.world.requests = ⟨.stuff, [d]⟩ :: rest) :
    ∃ t, step s = .next t ∧ MovesCodec s rest { s.codec with stuffed := s.codec.stuffed ++ stuff s.cfg d } t :=
  ⟨_, (step_of_decodeRequest hr rfl).trans (exec_decodeStuff (s.beginOperation rest) d), rfl, rfl, rfl, rfl⟩

/-- Settles O9: by induction on the data, one request for each byte. -/
theorem stuffStepsComputeTheStuffedForm : Obligations.StuffStepsComputeTheStuffedForm := by
  intro s x hr
  show ∃ t, Host.Core.run core x.length s = .next t ∧
    MovesCodec s [] { s.codec with stuffed := s.codec.stuffed ++ x.flatMap (stuff s.cfg) } t
  induction x generalizing s with
  | nil => exact ⟨s, rfl, by simpa using movesCodec_refl hr⟩
  | cons d r ih =>
    obtain ⟨t, hstep, ht⟩ := step_stuff hr
    have ⟨hk, _, hcfg, hworld⟩ := ht
    have hrun := ih t (by rw [hworld])
    rw [hk, hcfg] at hrun
    simpa using run_succ_movesCodec hstep ht hrun

/-! ## The reserved select codes (R71) -/

/-- Settles O51: neither code has a meaning in any state (U11). -/
theorem reservedCodesAreRefused : Obligations.ReservedCodesAreRefused := fun _ => ⟨rfl, rfl⟩

end Sys2Proof.Machine

/-! PROOFS, codec (`40_slip_codec.md`). What SLIP.ENC answers and how long it is (R82, R83), where SLIP.SFE stops (R84, R85), the
recursion and the laws of SLIP.DEC (R86, R87), and the three against each other (R88, R89). -/

namespace Sys2Proof.Machine

/-! ## SLIP.ENC (R82, R83) -/

/-- A byte is stuffed with one or two bytes, whatever the marker values are. -/
theorem length_stuff_bounds (c : Config) (d : Byte) : 1 ≤ (stuff c d).length ∧ (stuff c d).length ≤ 2 := by
  obtain ⟨-, e⟩ | ⟨-, -, e⟩ | ⟨-, -, e⟩ := stuff_cases c d <;> simp [e]

theorem length_stuffed_bounds (c : Config) (x : Bytes) :
    x.length ≤ (x.flatMap (stuff c)).length ∧ (x.flatMap (stuff c)).length ≤ 2 * x.length := by
  induction x with
  | nil => exact ⟨le_rfl, le_rfl⟩
  | cons d r ih =>
    have hd := length_stuff_bounds c d
    rw [List.flatMap_cons, List.length_append, List.length_cons]
    omega

@[simp] theorem length_marker (c : Config) (present : Bool) : (marker c present).length = present.toNat := by
  cases present <;> rfl

theorem length_slipEnc (c : Config) (src : Bytes) (p a : Bool) :
    (slipEnc c src p a).length = p.toNat + (src.flatMap (stuff c)).length + a.toNat := by
  simp only [slipEnc, List.length_append, length_marker]

/-- Settles O11: each byte is stuffed with one or two bytes, and under distinct markers only END and ESC with two. -/
theorem slipEncStuffsAndDelimits : Obligations.SlipEncStuffsAndDelimits := by
  intro s src p a
  have hlen := length_slipEnc s.cfg src p a
  have hbounds := length_stuffed_bounds s.cfg src
  have hp := Bool.toNat_le p
  have ha := Bool.toNat_le a
  refine ⟨slipEnc s.cfg src p a, rfl, rfl, by omega, by omega, fun hc => ?_⟩
  have hexact := length_stuffed hc src
  omega

/-! ## SLIP.SFE (R84, R85) -/

/-- Only one index can be the least that holds END, and the index after a body without END is one (R84). -/
theorem getElem?_append_end_iff {c : Config} {body : Bytes} (h : c.endByte ∉ body) (rest : Bytes) (i : Nat) :
    ((body ++ c.endByte :: rest)[i]? = some c.endByte ∧ ∀ j < i, (body ++ c.endByte :: rest)[j]? ≠ some c.endByte) ↔
      body.length = i := by
  have before : ∀ j < body.length, (body ++ c.endByte :: rest)[j]? ≠ some c.endByte := fun j hj e =>
    h (List.mem_of_getElem? ((List.getElem?_append_left hj).symm.trans e))
  have here : (body ++ c.endByte :: rest)[body.length]? = some c.endByte := by simp
  constructor
  · rintro ⟨hi, hleast⟩
    obtain hlt | heq | hgt := Nat.lt_trichotomy i body.length
    · exact absurd hi (before i hlt)
    · exact heq.symm
    · exact absurd here (hleast _ hgt)
  · rintro rfl
    exact ⟨here, before⟩

theorem slipSfe_eq_found_iff {c : Config} {a : Bytes} {i : Nat} :
    slipSfe c a = .found i ↔ a[i]? = some c.endByte ∧ ∀ j < i, a[j]? ≠ some c.endByte := by
  by_cases hm : c.endByte ∈ a
  · obtain ⟨body, rest, rfl, hbody⟩ := List.eq_append_cons_of_mem hm
    rw [slipSfe_append_end hbody, getElem?_append_end_iff hbody, SfeResult.found.injEq]
  · rw [slipSfe_of_notMem hm]
    exact ⟨nofun, fun ⟨hi, _⟩ => absurd (List.mem_of_getElem? hi) hm⟩

theorem slipSfe_eq_notFound_iff {c : Config} {a : Bytes} : slipSfe c a = .notFound ↔ c.endByte ∉ a := by
  refine ⟨fun h hm => ?_, slipSfe_of_notMem⟩
  obtain ⟨body, rest, rfl, hbody⟩ := List.eq_append_cons_of_mem hm
  rw [slipSfe_append_end hbody] at h
  cases h

/-- Settles O12: with an END in the buffer the bytes before the first one hold none; without one there is nothing to find. -/
theorem slipSfeFindsTheLeastEnd : Obligations.SlipSfeFindsTheLeastEnd := fun s buf =>
  ⟨slipSfe s.cfg buf, rfl, fun _ => slipSfe_eq_found_iff, slipSfe_eq_notFound_iff.trans List.count_eq_zero.symm⟩

/-! ## SLIP.DEC (R86, R87) -/

/-- Settles O13: the two byte tables, one case for each class of the first byte (R61, R62). -/
theorem slipDecReadsByteByByte : Obligations.SlipDecReadsByteByByte := by
  refine ⟨fun _ _ _ => rfl, fun c ⟨hEndEsc, _, _, _, _, hPair⟩ => ⟨slipDec_nil c, fun b src => ?_, fun b src => ?_⟩⟩
  · by_cases h1 : b = c.escEndByte
    · rw [if_pos h1, h1, slipDec_escEnd]
      rfl
    rw [if_neg h1]
    by_cases h2 : b = c.escEscByte
    · rw [if_pos h2, h2, slipDec_escEsc hPair]
      rfl
    · rw [if_neg h2, slipDec_bad h1 h2]
  · by_cases h1 : b = c.escByte
    · rw [if_pos h1, h1, slipDec_esc hEndEsc]
    rw [if_neg h1]
    by_cases h2 : b = c.endByte
    · rw [if_pos h2, h2, slipDec_end]
    · rw [if_neg h2, slipDec_literal h2 h1]
      rfl

/-- The markers counted by the length law are the bytes on which the decoder outputs nothing: END and ESC outside the escape
state (R61). -/
theorem markersMet_cons (c : Config) (e : Bool) (b : Byte) (r : Bytes) :
    markersMet c e (b :: r) = match wireAction c e b with
      | .boundary => markersMet c e r + 1
      | .enterEscape => markersMet c true r + 1
      | .output _ => markersMet c e r
      | .unescape _ | .malformed => markersMet c false r := by
  cases e with
  | true =>
    rw [wireAction_true, markersMet, escapedAction]
    split_ifs <;> rfl
  | false =>
    rw [wireAction_false, markersMet, normalAction]
    split_ifs <;> rfl

/-- The length law (R87 item 1): each byte gives one byte of output or is counted, never both. -/
theorem length_add_markersMet {c : Config} {e e' : Bool} {src out : Bytes} (h : slipDec c e src = .ok out e') :
    out.length + markersMet c e src = src.length := by
  induction src generalizing e out with
  | nil =>
    obtain ⟨rfl, rfl⟩ := DecResult.ok.inj h
    rfl
  | cons b r ih =>
    rw [slipDec_cons] at h
    rw [markersMet_cons, List.length_cons]
    cases ha : wireAction c e b <;> simp only [ha] at h ⊢
    case boundary | enterEscape =>
      rw [← ih h]
      omega
    case output | unescape =>
      obtain ⟨o, ho, rfl⟩ := prependOut_eq_ok.1 h
      rw [← ih ho, List.length_append, List.length_singleton]
      omega
    case malformed => cases h

/-- Settles O14: the length law by induction on the input, the other two by what decoding an append and a stuffed byte give. -/
theorem slipDecLaws : Obligations.SlipDecLaws := by
  refine fun c => ⟨fun e e' src out h => ?_, fun e e1 a b o1 h => ?_, fun e a b h => ?_, slipDec_stuff⟩
  · have hlen := length_add_markersMet h
    exact ⟨by omega, hlen⟩
  · have happend : slipDec c e (a ++ b) = prependOut o1 (slipDec c e1 b) := by rw [slipDec_append, h]
    exact ⟨fun hb => by rw [happend, hb, prependOut], fun o2 e2 hb => by rw [happend, hb, prependOut]⟩
  · rw [slipDec_append, h]

/-! ## SLIP.DEC and SLIP.SFE of what SLIP.ENC answers (R88, R89) -/

/-- A marker at either end of a frame is dropped. -/
theorem slipDec_marker (c : Config) (present : Bool) : slipDec c false (marker c present) = .ok [] false := by
  cases present with
  | false => rfl
  | true => exact slipDec_end []

theorem slipDec_slipEnc {c : Config} (hc : c.MarkersDistinct) (x : Bytes) (p a : Bool) :
    slipDec c false (slipEnc c x p a) = .ok x false := by
  simp only [slipEnc, slipDec_append, slipDec_marker, slipDec_stuffed hc, prependOut, List.nil_append, List.append_nil]

/-- Settles O15: the markers are dropped, and stuffing is undone byte for byte. -/
theorem codecRoundTrip : Obligations.CodecRoundTrip := fun s x p a hc =>
  ⟨slipEnc s.cfg x p a, rfl, by rw [← slipDec_slipEnc hc x p a]; rfl⟩

/-- Both markers around the stuffed body (R64, R82). -/
theorem slipEnc_true_true (c : Config) (x : Bytes) :
    slipEnc c x true true = c.endByte :: (x.flatMap (stuff c) ++ [c.endByte]) := rfl

/-- Settles O16: the stuffed body holds no END, so the search stops at the marker before it and at the one after it. -/
theorem encodedFrameBoundaries : Obligations.EncodedFrameBoundaries := by
  intro c x rest hc
  have hbody := endByte_notMem_stuffed hc x
  refine ⟨x.flatMap (stuff c), slipEnc_true_true c x, hbody, ?_, ?_⟩
  · exact slipSfe_append_end List.not_mem_nil _
  · rw [slipEnc_true_true, List.tail_cons, List.append_assoc, List.singleton_append, slipSfe_append_end hbody]
    simp

end Sys2Proof.Machine

/-! PROOFS, receive reassembler (`41_rx_reassembler.md`). How one RX.STEP ends and what it leaves (R100 to R111), and that the
frames reported do not depend on where the transport cuts the stream (R112, R113). -/

namespace Sys2Proof.Machine

/-! ## The parts of RX.STEP (R102 to R110) -/

@[simp] theorem afterFetch_cfg (s : State) : (afterFetch s).cfg = s.cfg := (afterFetch_frame s).1

@[simp] theorem afterFetch_events (s : State) : (afterFetch s).events = s.events := by
  obtain ⟨-, -, h, -⟩ := afterFetch_frame s
  exact h

@[simp] theorem afterFetch_rxBuf (s : State) : (afterFetch s).e.rxBuf = s.e.rxBuf := by
  obtain ⟨-, -, -, -, h, -⟩ := afterFetch_frame s
  exact h

@[simp] theorem afterFetch_rxLen (s : State) : (afterFetch s).e.rxLen = s.e.rxLen := by
  obtain ⟨-, -, -, -, -, h, -⟩ := afterFetch_frame s
  exact h

@[simp] theorem afterFetch_rxEsc (s : State) : (afterFetch s).e.rxEsc = s.e.rxEsc := by
  obtain ⟨-, -, -, -, -, -, h, -⟩ := afterFetch_frame s
  exact h

/-- One answer is used when there is no remainder, and none otherwise (R102). -/
theorem afterFetch_reads (s : State) : (afterFetch s).world.reads =
    if s.e.rxChunkPos = s.e.rxChunkLen then s.world.reads.tail else s.world.reads := by
  unfold afterFetch
  split <;> rfl

/-- The state in which the span is decoded: it is consumed before it is looked at (R104). -/
def afterSpan (s : State) : State := (afterFetch s).withPos (posAfter s)

theorem execRxStep_of_hasWork {s : State} (hi : s.e.Inv s.cfg) (hp : s.e.phase = .rx) (hw : hasWork s) :
    exec .rxStep s = .next (rxDecode (afterSpan s) (slipSfe s.cfg (workBytes s)) (workSpan s)) :=
  (whenPhase_of_phase hp _).trans (rxStep_of_hasWork hi hw)

/-- RX.STEP decodes the span from the carried escape state (R105). -/
theorem slipDec_afterSpan (s : State) :
    slipDec (afterSpan s).cfg (afterSpan s).e.rxEsc (workSpan s) = slipDec s.cfg s.e.rxEsc (workSpan s) := by
  simp [afterSpan]

theorem rxDecode_of_malformed {s : State} {span : Bytes} (h : slipDec s.cfg s.e.rxEsc span = .malformed)
    (found : SfeResult) : rxDecode s found span = noFrame s.discardFrame .malformed := by
  simp only [rxDecode, h]

theorem rxDecode_of_oversize {s : State} {span out : Bytes} {esc : Bool} (h : slipDec s.cfg s.e.rxEsc span = .ok out esc)
    (hl : s.cfg.rxFrameCap < s.e.rxLen + out.length) (found : SfeResult) :
    rxDecode s found span = noFrame s.discardFrame .oversize := by
  simp only [rxDecode, h, if_pos hl]

theorem rxDecode_of_fits {s : State} {span out : Bytes} {esc : Bool} (h : slipDec s.cfg s.e.rxEsc span = .ok out esc)
    (hl : s.e.rxLen + out.length ≤ s.cfg.rxFrameCap) (found : SfeResult) :
    rxDecode s found span = rxReport (s.appendFrame out esc) found := by
  simp only [rxDecode, h, if_neg (Nat.not_lt.2 hl)]

/-- The report (R109, R110): a frame complete exactly with an END among the bytes searched. -/
theorem rxReport_slipSfe (s : State) (c : Config) (w : Bytes) :
    rxReport s (slipSfe c w) = { s with
      response := .rx (if c.endByte ∈ w then .frameComplete else .noFrame)
      events := s.events ++ (if c.endByte ∈ w then [] else [.incomplete]) } := by
  by_cases h : c.endByte ∈ w
  · obtain ⟨x, y, rfl, hx⟩ := split_at_end h
    rw [slipSfe_append_end hx]
    simp [rxReport, State.respond]
  · rw [slipSfe_of_notMem h]
    simp [rxReport, noFrame, State.raise, State.respond, h]

/-! ## How RX.STEP ends (R101 to R108) -/

/-- Settles O19: the empty answer is used up, and nothing is done with it. -/
theorem rxStepWithoutData : Obligations.RxStepWithoutData := by
  intro s hp hc hr
  have hexec : exec .rxStep s = rxStep s := whenPhase_of_phase hp _
  rw [hexec, rxStep_eq, if_pos ⟨hc, hr⟩]
  rfl

/-- A discard (R107, R108) as a state: the span consumed, no frame begun, the escape state cleared. -/
theorem noFrame_discardFrame_afterSpan (s : State) (ev : Event) :
    noFrame (afterSpan s).discardFrame ev = { afterFetch s with
      e := { (afterFetch s).e with rxChunkPos := posAfter s, rxLen := 0, rxEsc := false }
      response := .rx .noFrame, events := s.events ++ [ev] } := by
  rw [← afterFetch_events s]
  rfl

/-- Settles O20: the decode fails before the capacity is looked at. -/
theorem rxStepOnMalformedPair : Obligations.RxStepOnMalformedPair := by
  intro s hi hp hw hdec
  rw [execRxStep_of_hasWork hi hp hw, rxDecode_of_malformed ((slipDec_afterSpan s).trans hdec),
    noFrame_discardFrame_afterSpan]

/-- Settles O21: the capacity is tested before the report looks for an END. -/
theorem rxStepOnOversizeFrame : Obligations.RxStepOnOversizeFrame := by
  intro s out escOut hi hp hw hdec hlong
  have hlong' : (afterSpan s).cfg.rxFrameCap < (afterSpan s).e.rxLen + out.length := by simpa [afterSpan] using hlong
  rw [execRxStep_of_hasWork hi hp hw, rxDecode_of_oversize ((slipDec_afterSpan s).trans hdec) hlong',
    noFrame_discardFrame_afterSpan]

/-- The state after a span that decodes and fits (R109, R110). -/
def afterAppend (s : State) (out : Bytes) (esc : Bool) : State :=
  { (afterSpan s).appendFrame out esc with
    response := .rx (if s.cfg.endByte ∈ workBytes s then .frameComplete else .noFrame)
    events := s.events ++ (if s.cfg.endByte ∈ workBytes s then [] else [.incomplete]) }

theorem rxDecode_afterSpan_of_fits {s : State} {out : Bytes} {esc : Bool}
    (hdec : slipDec s.cfg s.e.rxEsc (workSpan s) = .ok out esc) (hfit : s.e.rxLen + out.length ≤ s.cfg.rxFrameCap) :
    rxDecode (afterSpan s) (slipSfe s.cfg (workBytes s)) (workSpan s) = afterAppend s out esc := by
  have hfit' : (afterSpan s).e.rxLen + out.length ≤ (afterSpan s).cfg.rxFrameCap := by simpa [afterSpan] using hfit
  rw [rxDecode_of_fits ((slipDec_afterSpan s).trans hdec) hfit', rxReport_slipSfe, afterAppend, ← afterFetch_events s]
  rfl

theorem accumulated_afterAppend (s : State) (out : Bytes) (esc : Bool) :
    accumulated (afterAppend s out esc).e = accumulated s.e ++ out := by
  simp [accumulated, afterAppend, afterSpan, bytesAt_append]

/-- The span is all there is to work on, when that holds no END (R104). -/
theorem workSpan_of_notMem {s : State} (h : s.cfg.endByte ∉ workBytes s) : workSpan s = workBytes s :=
  (spanOf_eq ..).symm.trans (spanOf_of_notMem h)

/-- The span goes through the first END (R104). -/
theorem workSpan_of_split {s : State} {x y : Bytes} (h : workBytes s = x ++ s.cfg.endByte :: y) (hx : s.cfg.endByte ∉ x) :
    workSpan s = x ++ [s.cfg.endByte] := by
  have hspan : workSpan s = spanOf s.cfg (workBytes s) := (spanOf_eq ..).symm
  rw [hspan, h, spanOf_append_end hx]

/-- Without an END the whole chunk is consumed (R109). -/
theorem posAfter_of_notMem {s : State} (h : s.cfg.endByte ∉ workBytes s) : posAfter s = (afterFetch s).e.rxChunkLen := by
  rw [posAfter, workSpan_of_notMem h, Nat.sub_self, Nat.sub_zero]

/-- Settles O22: the append writes the decoded bytes at the end of the accumulated frame and nowhere else. -/
theorem rxStepAppendsTheSpan : Obligations.RxStepAppendsTheSpan := by
  intro s out escOut hi hp hw hdec hfit
  refine ⟨afterAppend s out escOut, ?_, ?_, accumulated_afterAppend s out escOut, fun a ha => ?_, posAfter_of_notMem⟩
  · rw [execRxStep_of_hasWork hi hp hw, rxDecode_afterSpan_of_fits hdec hfit]
  · rw [← afterFetch_rxLen s]
    rfl
  · show (memWrite (afterFetch s).e.rxBuf (afterFetch s).e.rxLen out).read a = _
    rw [afterFetch_rxBuf, afterFetch_rxLen, read_memWrite, dif_neg (by omega)]

/-! ## Every RX.STEP (R100, R101, R111) -/

/-- The five ways RX.STEP answers a next state. -/
theorem execRxStep_next {s t : State} (hi : s.e.Inv s.cfg) (h : exec .rxStep s = .next t) :
    (s.e.rxChunkPos = s.e.rxChunkLen ∧ s.nextRead = [] ∧ t = noFrame s.dropRead .noData) ∨
    (hasWork s ∧
      (t = noFrame (afterSpan s).discardFrame .malformed ∨ t = noFrame (afterSpan s).discardFrame .oversize ∨
       ∃ out esc, slipDec s.cfg s.e.rxEsc (workSpan s) = .ok out esc ∧ t = afterAppend s out esc)) := by
  obtain ⟨-, h⟩ := whenPhase_eq_next.1 h
  obtain hnone | ⟨hw, ht⟩ := rxStep_next hi h
  · exact .inl hnone
  · have ht' : t = rxDecode (afterSpan s) (slipSfe s.cfg (workBytes s)) (workSpan s) := ht
    refine .inr ⟨hw, ?_⟩
    obtain ⟨-, hd⟩ | ⟨out, esc, -, -, hd⟩ | ⟨out, esc, hdec, hfit, -⟩ :=
      rxDecode_cases (afterSpan s) (slipSfe s.cfg (workBytes s)) (workSpan s)
    · exact .inl (ht'.trans hd)
    · exact .inr (.inl (ht'.trans hd))
    · rw [slipDec_afterSpan] at hdec
      have hfit' : s.e.rxLen + out.length ≤ s.cfg.rxFrameCap := by simpa [afterSpan] using hfit
      exact .inr (.inr ⟨out, esc, hdec, ht'.trans (rxDecode_afterSpan_of_fits hdec hfit')⟩)

/-- RX.STEP in its phase answers a next state, unless the transport breaks its contract (R101, R46). -/
theorem execRxStep_completes {s : State} (hi : s.e.Inv s.cfg) (hp : s.e.phase = .rx)
    (hk : s.e.rxChunkPos = s.e.rxChunkLen → s.readKept) : ∃ t, exec .rxStep s = .next t := by
  have hexec : exec .rxStep s = rxStep s := whenPhase_of_phase hp _
  obtain ⟨-, -, h⟩ | ⟨hc, hlong, -⟩ | ⟨-, h⟩ := rxStep_cases hi
  · exact ⟨_, hexec.trans h⟩
  · exact absurd (hk hc) (Nat.not_le.2 hlong)
  · exact ⟨_, hexec.trans h⟩

/-- Settles O25: each of the five ways has one outcome, the append with or without an END. -/
theorem rxStepCompletesWithOneOutcome : Obligations.RxStepCompletesWithOneOutcome := by
  intro s hi hp hk
  obtain ⟨t, ht⟩ := execRxStep_completes hi hp hk
  obtain ⟨hinv, hphase⟩ := rxStep_inv hi (whenPhase_eq_next.1 ht).2
  refine ⟨t, ht, hinv, hphase.trans hp, ?_⟩
  obtain ⟨-, -, rfl⟩ | ⟨-, rfl | rfl | ⟨out, esc, -, rfl⟩⟩ := execRxStep_next hi ht
  · exact .inr ⟨rfl, .noData, by simp, rfl⟩
  · exact .inr ⟨rfl, .malformed, by simp, by simp [noFrame, afterSpan]⟩
  · exact .inr ⟨rfl, .oversize, by simp, by simp [noFrame, afterSpan]⟩
  · by_cases hend : s.cfg.endByte ∈ workBytes s
    · exact .inl ⟨by simp [afterAppend, hend], by simp [afterAppend, hend]⟩
    · exact .inr ⟨by simp [afterAppend, hend], .incomplete, by simp, by simp [afterAppend, hend]⟩

/-- Settles O27: the phase and the contracts of the surroundings play no part. -/
theorem rxStepFrame : Obligations.RxStepFrame := by
  intro s t h
  have honly : OnlyReceives s t := rxStep_onlyReceives (whenPhase_eq_next.1 h).2
  unfold OnlyReceives at honly
  exact ⟨by rw [honly], by rw [honly], by rw [honly], by rw [honly]⟩

/-- An END ends a decode only outside the escape state: in it the pair is malformed (R62, R106). -/
theorem slipDec_append_end_eq_ok {c : Config} (hc : c.MarkersDistinct) {e e' : Bool} {x out : Bytes} :
    slipDec c e (x ++ [c.endByte]) = .ok out e' ↔ slipDec c e x = .ok out false ∧ e' = false := by
  obtain ⟨-, h2, h3, -⟩ := hc
  rw [slipDec_append]
  cases slipDec c e x with
  | malformed => simp
  | ok o e1 =>
    cases e1 with
    | false => simp [slipDec_end, prependOut, eq_comm]
    | true => simp [slipDec_bad h2 h3, prependOut]

/-- A decode that ends outside the escape state gives a byte, if it had a byte or a pair begun (R87). -/
theorem ne_nil_of_slipDec {c : Config} (hc : c.MarkersDistinct) {e : Bool} {src out : Bytes} (hend : c.endByte ∉ src)
    (h : slipDec c e src = .ok out false) (hstart : src ≠ [] ∨ e = true) : out ≠ [] := by
  rintro rfl
  have hstuffed := stuffed_of_slipDec hc hend h
  obtain hsrc | rfl := hstart
  · simp_all
  · simp at hstuffed

/-- At the start of a frame the bytes to work on do not begin with END (R103). -/
theorem workBytes_ne_end_cons {s : State} (h0 : s.e.rxLen = 0) (he : s.e.rxEsc = false) (y : Bytes) :
    workBytes s ≠ s.cfg.endByte :: y := by
  intro hw
  rw [workBytes, afterSkip, if_pos ⟨h0, he⟩] at hw
  have hhead := List.head?_dropWhile_not (· == s.cfg.endByte) (remainder (afterFetch s).e)
  simp [hw] at hhead

/-- A complete frame has a byte, and no pair is left open (R111 item 1). -/
theorem rxLen_pos_of_end {s : State} (hi : s.e.Inv s.cfg) {out : Bytes} {esc : Bool}
    (hdec : slipDec s.cfg s.e.rxEsc (workSpan s) = .ok out esc) (hend : s.cfg.endByte ∈ workBytes s) :
    1 ≤ s.e.rxLen + out.length ∧ esc = false := by
  obtain ⟨x, y, hxy, hx⟩ := split_at_end hend
  rw [workSpan_of_split hxy hx] at hdec
  obtain ⟨hdec, hesc⟩ := (slipDec_append_end_eq_ok hi.markers).1 hdec
  refine ⟨?_, hesc⟩
  by_cases h0 : s.e.rxLen = 0
  · have hstart : x ≠ [] ∨ s.e.rxEsc = true := by
      by_contra hcon
      obtain ⟨rfl, he⟩ : x = [] ∧ s.e.rxEsc = false := by simpa using hcon
      exact workBytes_ne_end_cons h0 he y hxy
    have hout := List.length_pos_iff.2 (ne_nil_of_slipDec hi.markers hx hdec hstart)
    omega
  · omega

/-- With bytes to work on, RX.STEP leaves the chunk and the read answers as steps 1 to 3 do (R104). -/
theorem execRxStep_chunk {s t : State} (hi : s.e.Inv s.cfg) (hw : hasWork s) (h : exec .rxStep s = .next t) :
    t.e.rxChunkPos = posAfter s ∧ t.world.reads = (afterFetch s).world.reads := by
  obtain ⟨hp, -⟩ := whenPhase_eq_next.1 h
  rw [execRxStep_of_hasWork hi hp hw] at h
  obtain ⟨_, _, _, _, _, hd⟩ := rxDecode_frame (afterSpan s) (slipSfe s.cfg (workBytes s)) (workSpan s)
  rw [← Host.Outcome.next.inj h, hd]
  exact ⟨rfl, rfl⟩

/-- A frame reported complete has a byte, and no escape is pending (R111 item 1). -/
theorem execRxStep_frameComplete {s t : State} (hi : s.e.Inv s.cfg) (h : exec .rxStep s = .next t)
    (hr : t.response = .rx .frameComplete) : 1 ≤ t.e.rxLen ∧ t.e.rxEsc = false := by
  obtain ⟨-, -, rfl⟩ | ⟨-, rfl | rfl | ⟨out, esc, hdec, rfl⟩⟩ := execRxStep_next hi h
  · cases hr
  · cases hr
  · cases hr
  · have hend : s.cfg.endByte ∈ workBytes s := by
      by_contra hend
      simp [afterAppend, hend] at hr
    simpa [afterAppend, afterSpan] using rxLen_pos_of_end hi hdec hend

/-- One answer is used when there is no remainder, and none otherwise (R111 item 3). -/
theorem execRxStep_reads {s t : State} (hi : s.e.Inv s.cfg) (h : exec .rxStep s = .next t) :
    t.world.reads = if s.e.rxChunkPos < s.e.rxChunkLen then s.world.reads else s.world.reads.tail := by
  obtain ⟨hp, -, rfl⟩ | ⟨hw, -⟩ := execRxStep_next hi h
  · exact (if_neg (Nat.not_lt.2 hp.ge)).symm
  · obtain ⟨-, hreads⟩ := execRxStep_chunk hi hw h
    rw [hreads, afterFetch_reads]
    obtain hlt | heq := Nat.lt_or_eq_of_le hi.pos_le_len
    · rw [if_neg (Nat.ne_of_lt hlt), if_pos hlt]
    · rw [if_pos heq, if_neg (Nat.not_lt.2 heq.ge)]

/-- Settles O26: the span consumed is never empty, whether the chunk was there or has just been read. -/
theorem rxStepFacts : Obligations.RxStepFacts := by
  intro s t hi h
  obtain ⟨hinv, -⟩ := rxStep_inv hi (whenPhase_eq_next.1 h).2
  refine ⟨execRxStep_frameComplete hi h, fun hlt => ?_, fun hp hne => ?_, execRxStep_reads hi h, hinv.frame_le_cap⟩
  · have hw : hasWork s := .inl hlt
    have hfetch : afterFetch s = s := if_neg (Nat.ne_of_lt hlt)
    obtain ⟨hpos, -⟩ := execRxStep_chunk hi hw h
    simpa [hpos, hfetch] using posAfter_gt hw
  · obtain ⟨-, hnone, -⟩ | ⟨hw, -⟩ := execRxStep_next hi h
    · exact absurd hnone hne
    · obtain ⟨hpos, -⟩ := execRxStep_chunk hi hw h
      exact hpos ▸ Nat.zero_lt_of_lt (posAfter_gt hw)

/-! ## Frames read from a stream (R112, R113) -/

section
variable {c : Config}

theorem FrameStream.eq_end_of_cons {b : Byte} {r : Bytes} {frames : List Bytes} (h : FrameStream c (b :: r) frames) :
    b = c.endByte := by
  generalize hbytes : b :: r = bytes at h
  cases h with
  | empty => cases hbytes
  | extraEnd => exact (List.cons.inj hbytes).1
  | frame => exact (List.cons.inj hbytes).1

theorem FrameStream.frames_of_nil {frames : List Bytes} (h : FrameStream c [] frames) : frames = [] := by
  generalize hbytes : [] = bytes at h
  cases h with
  | empty => rfl
  | extraEnd => cases hbytes
  | frame => cases hbytes

/-- The bytes to come carry `frames`, for a receiver that has accumulated `acc` and stands in escape state `esc`: it is between
frames, or the bytes begin with the rest of a frame's stuffed body and its end marker. -/
def Carries (c : Config) (acc : Bytes) (esc : Bool) (bytes : Bytes) (frames : List Bytes) : Prop :=
  (acc = [] ∧ esc = false ∧ FrameStream c bytes frames) ∨
  ∃ body rest stream later, bytes = body ++ c.endByte :: stream ∧ c.endByte ∉ body ∧
    slipDec c esc body = .ok rest false ∧ frames = (acc ++ rest) :: later ∧ FrameStream c stream later

/-- No bytes to come, no frame to come: a frame begun still has its end marker to come. -/
theorem Carries.frames_of_nil {acc : Bytes} {esc : Bool} {frames : List Bytes} (h : Carries c acc esc [] frames) :
    frames = [] := by
  obtain ⟨-, -, hs⟩ | ⟨body, rest, stream, later, hb, -⟩ := h
  · exact hs.frames_of_nil
  · simp at hb

/-- Where no frame has begun an END changes nothing: it is extra, or the start marker of the next frame (R103). -/
theorem Carries.of_end_cons (hc : c.MarkersDistinct) {bytes : Bytes} {frames : List Bytes} (hne : [] ∉ frames)
    (h : Carries c [] false (c.endByte :: bytes) frames) : Carries c [] false bytes frames := by
  obtain ⟨-, -, hs⟩ | ⟨body, rest, stream, later, hb, hbody, hdec, rfl, -⟩ := h
  · generalize hbytes : c.endByte :: bytes = all at hs
    cases hs with
    | empty => cases hbytes
    | extraEnd stream frames hs => exact .inl ⟨rfl, rfl, (List.cons.inj hbytes).2 ▸ hs⟩
    | frame f stream frames hs =>
      rw [slipEnc_true_true] at hbytes
      refine .inr ⟨f.flatMap (stuff c), f, stream, frames, ?_, endByte_notMem_stuffed hc f, slipDec_stuffed hc f, rfl, hs⟩
      simpa using hbytes
  · cases body with
    | nil =>
      obtain ⟨rfl, -⟩ := DecResult.ok.inj hdec
      exact absurd List.mem_cons_self hne
    | cons b body =>
      obtain ⟨rfl, -⟩ := List.cons.inj hb
      exact absurd List.mem_cons_self hbody

theorem Carries.dropWhile_end (hc : c.MarkersDistinct) {chunk more : Bytes} {frames : List Bytes} (hne : [] ∉ frames)
    (h : Carries c [] false (chunk ++ more) frames) :
    Carries c [] false (chunk.dropWhile (· == c.endByte) ++ more) frames := by
  induction chunk with
  | nil => exact h
  | cons b r ih =>
    by_cases hb : b = c.endByte
    · subst hb
      simpa using ih (h.of_end_cons hc hne)
    · simpa [List.dropWhile_cons, hb] using h

/-- Step 2 keeps what the bytes to come carry (R103). -/
theorem Carries.afterSkip (hc : c.MarkersDistinct) {e : Engine} {chunk more : Bytes} {frames : List Bytes}
    (hne : [] ∉ frames) (h : Carries c (accumulated e) e.rxEsc (chunk ++ more) frames) :
    Carries c (accumulated e) e.rxEsc (afterSkip c e chunk ++ more) frames := by
  unfold Machine.afterSkip
  split
  next hstart =>
    have hacc : accumulated e = [] := by simp [accumulated, hstart.1, bytesAt]
    rw [hacc, hstart.2] at h ⊢
    exact h.dropWhile_end hc hne
  next => exact h

/-- Bytes before an END and after it are found in only one way. -/
theorem append_end_inj {x x' y y' : Bytes} (hx : c.endByte ∉ x) (hx' : c.endByte ∉ x')
    (h : x ++ c.endByte :: y = x' ++ c.endByte :: y') : x = x' ∧ y = y' := by
  have hfront : x = x' := by rw [← takeWhile_of_notMem hx y, h, takeWhile_of_notMem hx' y']
  subst hfront
  simpa using h

/-- A span through an END completes the first frame the bytes carry, and the bytes after it carry the others (R110). -/
theorem Carries.complete {acc x more : Bytes} {esc : Bool} {frames : List Bytes}
    (h : Carries c acc esc (x ++ c.endByte :: more) frames) (hx : c.endByte ∉ x)
    (hstart : ¬(acc = [] ∧ esc = false ∧ x = [])) :
    ∃ rest later, slipDec c esc (x ++ [c.endByte]) = .ok rest false ∧ frames = (acc ++ rest) :: later ∧
      FrameStream c more later := by
  obtain ⟨hacc, hesc, hs⟩ | ⟨body, rest, stream, later, hb, hbody, hdec, hframes, hs⟩ := h
  · cases x with
    | nil => exact absurd ⟨hacc, hesc, rfl⟩ hstart
    | cons b x => exact absurd (hs.eq_end_of_cons ▸ List.mem_cons_self) hx
  · obtain ⟨rfl, rfl⟩ := append_end_inj hx hbody hb
    refine ⟨rest, later, ?_, hframes, hs⟩
    rw [slipDec_append, hdec]
    simp [slipDec_end, prependOut]

/-- A span without END is part of a frame's body, or empty: it decodes, and the bytes after it carry the same frames (R109). -/
theorem Carries.incomplete {acc w more : Bytes} {esc : Bool} {frames : List Bytes}
    (h : Carries c acc esc (w ++ more) frames) (hw : c.endByte ∉ w) :
    ∃ out esc', slipDec c esc w = .ok out esc' ∧ Carries c (acc ++ out) esc' more frames ∧
      (out = [] ∨ ∃ f ∈ frames, (acc ++ out).length ≤ f.length) := by
  obtain ⟨rfl, rfl, hs⟩ | ⟨body, rest, stream, later, hb, hbody, hdec, rfl, hs⟩ := h
  · cases w with
    | nil => exact ⟨[], false, rfl, .inl ⟨rfl, rfl, hs⟩, .inl rfl⟩
    | cons b w => exact absurd (hs.eq_end_of_cons ▸ List.mem_cons_self) hw
  · obtain ⟨body', rfl, hmore⟩ : ∃ body', body = w ++ body' ∧ more = body' ++ c.endByte :: stream := by
      obtain ⟨body', h1, h2⟩ | ⟨x, h1, h2⟩ := List.append_eq_append_iff.1 hb
      · exact ⟨body', h1, h2⟩
      · cases x with
        | nil => exact ⟨[], by simpa using h1.symm, by simpa using h2.symm⟩
        | cons b x =>
          obtain ⟨rfl, -⟩ := List.cons.inj h2
          exact absurd (h1 ▸ by simp) hw
    rw [slipDec_append] at hdec
    cases hfirst : slipDec c esc w with
    | malformed => rw [hfirst] at hdec; cases hdec
    | ok out esc' =>
      rw [hfirst] at hdec
      obtain ⟨rest', hrest, rfl⟩ := prependOut_eq_ok.1 hdec
      refine ⟨out, esc', rfl, .inr ⟨body', rest', stream, later, hmore, ?_, hrest, by rw [List.append_assoc], hs⟩, .inr ?_⟩
      · exact fun hmem => hbody (List.mem_append_right _ hmem)
      · exact ⟨_, List.mem_cons_self, by simp⟩

end

/-! ## One cycle of a receiver of valid frames -/

theorem length_workSpan_le (s : State) : (workSpan s).length ≤ (workBytes s).length := by
  rw [workSpan, ← spanOf_eq]
  exact length_spanOf_le ..

theorem remainder_withPos (s : State) {k : Nat} (hk : k ≤ s.e.rxChunkLen - s.e.rxChunkPos) :
    remainder (s.withPos (s.e.rxChunkPos + k)).e = (remainder s.e).drop k := by
  have hlen : s.e.rxChunkLen - s.e.rxChunkPos = k + (s.e.rxChunkLen - (s.e.rxChunkPos + k)) := by omega
  have hsplit : remainder s.e =
      bytesAt s.e.rxChunk s.e.rxChunkPos k ++ remainder (s.withPos (s.e.rxChunkPos + k)).e := by
    rw [remainder, hlen, bytesAt_add]
    rfl
  rw [hsplit, List.drop_left' (length_bytesAt ..)]

/-- After the span is consumed, what remains of the chunk is what step 3 left of its bytes (R104). -/
theorem remainder_afterSpan {s : State} (hw : hasWork s) :
    remainder (afterSpan s).e = (workBytes s).drop (workSpan s).length := by
  have hlt := afterFetch_pos_lt hw
  have hchunk : (remainder (afterFetch s).e).length = (afterFetch s).e.rxChunkLen - (afterFetch s).e.rxChunkPos :=
    length_bytesAt ..
  have hskip := skipCount_le s.cfg s.e (remainder (afterFetch s).e)
  have hwork : workBytes s = (remainder (afterFetch s).e).drop (skipCount s.cfg s.e (remainder (afterFetch s).e)) :=
    (drop_skipCount ..).symm
  have hspan := length_workSpan_le s
  have hbytes : (workBytes s).length = (remainder (afterFetch s).e).length -
      skipCount s.cfg s.e (remainder (afterFetch s).e) := by
    rw [hwork, List.length_drop]
  have hpos : posAfter s = (afterFetch s).e.rxChunkPos +
      (skipCount s.cfg s.e (remainder (afterFetch s).e) + (workSpan s).length) := by
    unfold posAfter
    omega
  rw [afterSpan, hpos, remainder_withPos _ (by omega), hwork, List.drop_drop]

/-- What is pending before RX.STEP: the chunk it works on, then the answers after it. -/
theorem pending_of_hasWork {s : State} (hw : hasWork s) :
    pending s = remainder (afterFetch s).e ++ (afterFetch s).world.reads.flatten := (pending_afterFetch hw).symm

theorem pending_afterAppend {s : State} (hw : hasWork s) (out : Bytes) (esc : Bool) :
    pending (afterAppend s out esc) =
      (workBytes s).drop (workSpan s).length ++ (afterFetch s).world.reads.flatten := by
  rw [← remainder_afterSpan hw]
  rfl

/-- A receiver inside its invariant whose pending bytes carry `frames`, each of a length that R112 allows. -/
structure Receiving (s : State) (frames : List Bytes) : Prop where
  inv     : s.e.Inv s.cfg
  kept    : ∀ chunk ∈ s.world.reads, chunk.length ≤ s.cfg.rxChunkMax
  bounds  : ∀ f ∈ frames, 1 ≤ f.length ∧ f.length ≤ s.cfg.rxFrameCap
  carries : Carries s.cfg (accumulated s.e) s.e.rxEsc (pending s) frames

theorem Receiving.nil_notMem {s : State} {frames : List Bytes} (h : Receiving s frames) : [] ∉ frames := fun hmem =>
  absurd (h.bounds [] hmem).1 (by simp)

theorem Receiving.frames_of_pending_nil {s : State} {frames : List Bytes} (h : Receiving s frames)
    (hno : pending s = []) : frames = [] := by
  have hcarries := h.carries
  rw [hno] at hcarries
  exact hcarries.frames_of_nil

/-- Every answer to come is within the contract of R46. -/
theorem Receiving.readKept {s : State} {frames : List Bytes} (h : Receiving s frames) : s.readKept := by
  have hkept := h.kept
  unfold State.readKept State.nextRead
  cases hr : s.world.reads with
  | nil => exact Nat.zero_le _
  | cons chunk rest => exact hkept chunk (hr ▸ List.mem_cons_self)

/-- The chunks that hold bytes yet to be consumed: the one being worked on, and those the transport has yet to answer. -/
def chunksLeft (s : State) : Nat := s.world.reads.length + if s.e.rxChunkPos < s.e.rxChunkLen then 1 else 0

theorem chunksLeft_of_consumed {s : State} (hp : s.e.rxChunkPos = s.e.rxChunkLen) :
    chunksLeft s = s.world.reads.length := by
  rw [chunksLeft, if_neg (Nat.not_lt.2 hp.ge), Nat.add_zero]

/-- Step 1 takes up one of the chunks left. -/
theorem length_reads_afterFetch {s : State} (hw : hasWork s) :
    (afterFetch s).world.reads.length + 1 = chunksLeft s := by
  rw [afterFetch_reads, chunksLeft]
  obtain hlt | ⟨hp, hne, -⟩ := hw
  · rw [if_neg (Nat.ne_of_lt hlt), if_pos hlt]
  · have hreads : s.world.reads ≠ [] := fun hnil => hne (by simp [State.nextRead, hnil])
    have hlen := List.length_pos_iff.2 hreads
    rw [if_pos hp, if_neg (Nat.not_lt.2 hp.ge), List.length_tail]
    omega

theorem chunksLeft_afterAppend_le {s : State} (hw : hasWork s) (out : Bytes) (esc : Bool) :
    chunksLeft (afterAppend s out esc) ≤ chunksLeft s := by
  rw [← length_reads_afterFetch hw]
  show (afterFetch s).world.reads.length + _ ≤ _
  split <;> omega

/-- Without an END the chunk is consumed, so one fewer is left. -/
theorem chunksLeft_afterAppend_of_notMem {s : State} (hw : hasWork s) (hend : s.cfg.endByte ∉ workBytes s) (out : Bytes)
    (esc : Bool) : chunksLeft (afterAppend s out esc) + 1 = chunksLeft s := by
  rw [← length_reads_afterFetch hw]
  show (afterFetch s).world.reads.length + (if posAfter s < (afterFetch s).e.rxChunkLen then 1 else 0) + 1 = _
  rw [posAfter_of_notMem hend, if_neg (Nat.lt_irrefl _), Nat.add_zero]

/-- From `s` with `frames` to come to `t` with `later` to come: no frame is lost, a chunk or a frame fewer is left to work
through unless none was, and no event tells of a bad frame. -/
structure Advances (s : State) (frames : List Bytes) (t : State) (later : List Bytes) : Prop where
  receiving : Receiving t later
  fewer     : chunksLeft t + later.length ≤ chunksLeft s + frames.length - 1
  events    : ∃ evs, t.events = s.events ++ evs ∧ Event.malformed ∉ evs ∧ Event.oversize ∉ evs

/-- The outcomes of RX.STEP on a valid stream (R112): no frame and the same frames to come, or the first of them complete, the
others to come after the end-of-cycle reset. -/
def ReportsNext (s : State) (frames : List Bytes) (t : State) : Prop :=
  (t.response ≠ .rx .frameComplete ∧ Advances s frames t frames) ∨
  (t.response = .rx .frameComplete ∧ ∃ later, frames = accumulated t.e :: later ∧ Advances s frames t.clearFrame later)

/-- With no data, nothing was pending before the answers after the empty one. -/
theorem Receiving.noData {s : State} {frames : List Bytes} (h : Receiving s frames)
    (hp : s.e.rxChunkPos = s.e.rxChunkLen) (hnone : s.nextRead = []) :
    ReportsNext s frames (noFrame s.dropRead .noData) := by
  have hpending : pending s = pending (noFrame s.dropRead .noData) := by
    rw [pending_of_consumed hp, hnone]
    show _ = remainder s.e ++ s.world.reads.tail.flatten
    rw [remainder_of_consumed hp]
  have hcarries := h.carries
  rw [hpending] at hcarries
  have hleft : chunksLeft (noFrame s.dropRead .noData) + frames.length ≤ chunksLeft s + frames.length - 1 := by
    have hafter : chunksLeft (noFrame s.dropRead .noData) = s.world.reads.tail.length := chunksLeft_of_consumed hp
    rw [hafter, chunksLeft_of_consumed hp]
    cases hr : s.world.reads with
    | nil =>
      have hframes := h.frames_of_pending_nil (by rw [pending_of_consumed hp, hnone, hr]; rfl)
      simp [hframes]
    | cons chunk rest =>
      simp only [List.tail_cons, List.length_cons]
      omega
  refine .inl ⟨nofun, ⟨h.inv, fun chunk hmem => h.kept chunk (List.mem_of_mem_tail hmem), h.bounds, hcarries⟩, hleft,
    [.noData], rfl, by simp, by simp⟩

section
variable {s : State} {frames : List Bytes}

/-- The bytes step 3 works on, with the answers after them, carry the frames to come. -/
theorem Receiving.carries_workBytes (h : Receiving s frames) (hw : hasWork s) :
    Carries s.cfg (accumulated s.e) s.e.rxEsc (workBytes s ++ (afterFetch s).world.reads.flatten) frames := by
  have hcarries := h.carries
  rw [pending_of_hasWork hw] at hcarries
  exact hcarries.afterSkip h.inv.markers h.nil_notMem

/-- Step 1 leaves answers within the contract of R46. -/
theorem Receiving.kept_afterFetch (h : Receiving s frames) :
    ∀ chunk ∈ (afterFetch s).world.reads, chunk.length ≤ s.cfg.rxChunkMax := by
  rw [afterFetch_reads]
  split
  · exact fun chunk hmem => h.kept chunk (List.mem_of_mem_tail hmem)
  · exact h.kept

/-- An append that fits keeps the invariant. -/
theorem afterAppend_inv (hi : s.e.Inv s.cfg) (hw : hasWork s) {out : Bytes} {esc : Bool}
    (hdec : slipDec s.cfg s.e.rxEsc (workSpan s) = .ok out esc) (hfit : s.e.rxLen + out.length ≤ s.cfg.rxFrameCap) :
    (afterAppend s out esc).e.Inv (afterAppend s out esc).cfg := by
  have hstep := rxStep_of_hasWork hi hw
  rw [← rxDecode_afterSpan_of_fits hdec hfit]
  exact (rxStep_inv hi hstep).1

/-- No END among the bytes to work on: the frame goes on, or has not begun (R109). -/
theorem Receiving.incomplete (h : Receiving s frames) (hp : s.e.phase = .rx) (hw : hasWork s)
    (hend : s.cfg.endByte ∉ workBytes s) : ∃ t, exec .rxStep s = .next t ∧ ReportsNext s frames t := by
  obtain ⟨out, esc, hdec, hcarries, hlen⟩ := (h.carries_workBytes hw).incomplete hend
  rw [← workSpan_of_notMem hend] at hdec
  have hfit : s.e.rxLen + out.length ≤ s.cfg.rxFrameCap := by
    obtain rfl | ⟨f, hf, hle⟩ := hlen
    · exact h.inv.frame_le_cap
    · have hcap := (h.bounds f hf).2
      simp only [accumulated, List.length_append, length_bytesAt] at hle
      omega
  have hleft := chunksLeft_afterAppend_of_notMem hw hend out esc
  refine ⟨afterAppend s out esc, ?_, .inl ⟨by simp [afterAppend, hend], ?_, by omega, [.incomplete], ?_, by simp, by simp⟩⟩
  · rw [execRxStep_of_hasWork h.inv hp hw, rxDecode_afterSpan_of_fits hdec hfit]
  · have hcfg : (afterAppend s out esc).cfg = s.cfg := afterFetch_cfg s
    refine ⟨afterAppend_inv h.inv hw hdec hfit, hcfg ▸ h.kept_afterFetch, hcfg ▸ h.bounds, ?_⟩
    rw [accumulated_afterAppend, pending_afterAppend hw, workSpan_of_notMem hend, List.drop_length, hcfg]
    exact hcarries
  · simp [afterAppend, hend]

/-- An END among the bytes to work on: the first frame to come is complete (R110, R113). -/
theorem Receiving.complete (h : Receiving s frames) (hp : s.e.phase = .rx) (hw : hasWork s)
    (hend : s.cfg.endByte ∈ workBytes s) : ∃ t, exec .rxStep s = .next t ∧ ReportsNext s frames t := by
  obtain ⟨x, y, hxy, hx⟩ := split_at_end hend
  have hspan := workSpan_of_split hxy hx
  have hcarries := h.carries_workBytes hw
  rw [hxy, List.append_assoc, List.cons_append] at hcarries
  have hstart : ¬(accumulated s.e = [] ∧ s.e.rxEsc = false ∧ x = []) := by
    rintro ⟨hacc, hesc, rfl⟩
    have h0 : s.e.rxLen = 0 := by simpa [accumulated] using congrArg List.length hacc
    exact workBytes_ne_end_cons h0 hesc y hxy
  obtain ⟨rest, later, hdec, rfl, hs⟩ := hcarries.complete hx hstart
  rw [← hspan] at hdec
  have hfit : s.e.rxLen + rest.length ≤ s.cfg.rxFrameCap := by
    simpa [accumulated] using (h.bounds _ List.mem_cons_self).2
  have hleft := chunksLeft_afterAppend_le hw rest false
  have hcfg : (afterAppend s rest false).cfg = s.cfg := afterFetch_cfg s
  refine ⟨afterAppend s rest false, ?_, .inr ⟨by simp [afterAppend, hend], later, ?_, ?_, ?_, [], ?_, by simp, by simp⟩⟩
  · rw [execRxStep_of_hasWork h.inv hp hw, rxDecode_afterSpan_of_fits hdec hfit]
  · rw [accumulated_afterAppend]
  · have hinv := afterAppend_inv h.inv hw hdec hfit
    refine ⟨{ hinv with frame_le_cap := Nat.zero_le _ }, hcfg ▸ h.kept_afterFetch,
      hcfg ▸ fun f hf => h.bounds f (List.mem_cons_of_mem _ hf), .inl ⟨rfl, rfl, ?_⟩⟩
    show FrameStream (afterAppend s rest false).cfg (pending (afterAppend s rest false)) later
    rw [pending_afterAppend hw, hspan, hxy, hcfg]
    simpa using hs
  · show chunksLeft (afterAppend s rest false) + _ ≤ _
    simp only [List.length_cons]
    omega
  · simp [afterAppend, hend]

theorem Receiving.rxStep (h : Receiving s frames) (hp : s.e.phase = .rx) :
    ∃ t, exec .rxStep s = .next t ∧ ReportsNext s frames t := by
  obtain ⟨hc, hnone, hstep⟩ | ⟨-, hlong, -⟩ | ⟨hw, -⟩ := rxStep_cases h.inv
  · exact ⟨_, (whenPhase_of_phase hp _).trans hstep, h.noData hc hnone⟩
  · exact absurd h.readKept (Nat.not_le.2 hlong)
  · by_cases hend : s.cfg.endByte ∈ workBytes s
    · exact h.complete hp hw hend
    · exact h.incomplete hp hw hend

end

/-! ## Cycle after cycle (R112) -/

theorem Receiving.withPhase {s : State} {frames : List Bytes} (h : Receiving s frames) (p : Phase) :
    Receiving (s.withPhase p) frames :=
  ⟨{ h.inv with }, h.kept, h.bounds, h.carries⟩

/-- One cycle reports the frames that are no longer to come. -/
theorem Receiving.rxCycle {s : State} {frames : List Bytes} (h : Receiving s frames) :
    ∃ t reported later, rxCycle s = some (t, reported) ∧ frames = reported ++ later ∧ Advances s frames t later := by
  obtain ⟨t, hexec, ⟨hresp, hadv⟩ | ⟨hresp, later, hframes, hadv⟩⟩ := (h.withPhase .rx).rxStep rfl
  · exact ⟨t, [], frames, by simp [Machine.rxCycle, hexec, hresp], rfl, hadv.receiving, hadv.fewer, hadv.events⟩
  · exact ⟨t.clearFrame, [accumulated t.e], later, by simp [Machine.rxCycle, hexec, hresp], hframes,
      hadv.receiving, hadv.fewer, hadv.events⟩

/-- Cycles enough for every chunk and every frame report exactly the frames to come. -/
theorem Receiving.rxCycles {s : State} {frames : List Bytes} {n : Nat} (h : Receiving s frames)
    (hn : chunksLeft s + frames.length ≤ n) :
    ∃ t evs, rxCycles n s = some (t, frames) ∧ t.events = s.events ++ evs ∧
      Event.malformed ∉ evs ∧ Event.oversize ∉ evs := by
  induction n generalizing s frames with
  | zero =>
    have hframes : frames = [] := List.length_eq_zero_iff.1 (by omega)
    exact ⟨s, [], by rw [hframes]; rfl, by simp, by simp, by simp⟩
  | succ n ih =>
    obtain ⟨t, reported, later, hcycle, rfl, hadv⟩ := h.rxCycle
    obtain ⟨evs, hevs, hm, ho⟩ := hadv.events
    have hfewer := hadv.fewer
    obtain ⟨u, more, hrun, hmore, hm', ho'⟩ := ih hadv.receiving (by omega)
    refine ⟨u, evs ++ more, by simp [Machine.rxCycles, hcycle, hrun], by rw [hmore, hevs, List.append_assoc], ?_, ?_⟩
    · simp [hm, hm']
    · simp [ho, ho']

/-- Settles O28: what is pending carries the frames to come, wherever the cuts are; each cycle reports the first of them or keeps
them all, and works off a chunk or a frame. -/
theorem reassemblyIsIndependentOfChunkCuts : Obligations.ReassemblyIsIndependentOfChunkCuts := by
  intro s stream frames n hi h0 hesc hp hstream hbounds hreads hkept hn
  have hacc : accumulated s.e = [] := by rw [accumulated, h0]; rfl
  have hpending : pending s = stream := by rw [pending, remainder_of_consumed hp, List.nil_append, hreads]
  have hcarries : Carries s.cfg (accumulated s.e) s.e.rxEsc (pending s) frames := .inl ⟨hacc, hesc, hpending ▸ hstream⟩
  exact Receiving.rxCycles ⟨hi, hkept, hbounds, hcarries⟩ (by rw [chunksLeft_of_consumed hp]; exact hn)

end Sys2Proof.Machine

/-! PROOFS, integrity checker (`42_integrity.md`). CK8.COMPUTE, CK8.VERIFY and the default checksum (R121 to R123), the
single-bit property of verification (R126), and that a handler is called only with the payload of a verified and routed frame
(R122, R133, R171). -/

namespace Sys2Proof.Machine

/-! ## The checksum and its verification (R121 to R123) -/

theorem ck8_of_sum {c : Config} (h : c.ck8 = .sum) (data : Bytes) : ck8 c data = ck8Sum data := by simp only [ck8, h]

theorem ck8Sum_toNat (data : Bytes) : (ck8Sum data).toNat = (data.map (·.toNat)).sum % 256 := by
  induction data with
  | nil => rfl
  | cons b rest ih => simp [ck8Sum, ih]

/-- CK8.VERIFY passes exactly on 2 bytes or more of which the last is CK8 of the rest. -/
theorem ck8Verify_eq_true_iff (c : Config) (f : Bytes) :
    ck8Verify c f = true ↔ 2 ≤ f.length ∧ f.getLast? = some (ck8 c f.dropLast) := by
  unfold ck8Verify
  cases f.getLast? with
  | none => simp
  | some checksum => simp [eq_comm (a := checksum)]

/-- Settles O17: the operations answer with the functions of R121 and R122, and the default sum is taken byte by byte. -/
theorem checksumComputesAndVerifies : Obligations.ChecksumComputesAndVerifies :=
  ⟨fun _ _ => rfl, fun _ data hc => by rw [ck8_of_sum hc, ck8Sum_toNat],
    fun s f => ⟨ck8Verify s.cfg f, rfl, ck8Verify_eq_true_iff s.cfg f⟩⟩

/-! ## One flipped bit (R126) -/

/-- A frame whose last byte is set apart passes exactly when there are bytes before it and it is their CK8. -/
theorem ck8Verify_concat (c : Config) (f : Bytes) (checksum : Byte) :
    ck8Verify c (f ++ [checksum]) = true ↔ f ≠ [] ∧ checksum = ck8 c f := by
  simp [ck8Verify_eq_true_iff, Nat.one_le_iff_ne_zero]

/-- Settles O18: the flipped bit is in the checksum byte, which then differs from the CK8 of the unchanged rest, or in the
rest, whose CK8 then differs from the unchanged checksum byte. -/
theorem singleBitFlipsAreCaught : Obligations.SingleBitFlipsAreCaught := by
  intro c hsensitive before after b j hj hpass
  rw [← Bool.not_eq_true]
  intro hflip
  obtain rfl | ⟨mid, checksum, rfl⟩ := List.eq_nil_or_concat' after
  · obtain ⟨-, hb⟩ := (ck8Verify_concat c before b).1 hpass
    obtain ⟨-, hb'⟩ := (ck8Verify_concat c before _).1 hflip
    exact xor_bit_ne hj b (hb'.trans hb.symm)
  · rw [← List.cons_append, ← List.append_assoc, ck8Verify_concat] at hpass hflip
    exact hsensitive before mid b j hj (hflip.2.symm.trans hpass.2)

/-! ## What a cycle raises (R133, R152, R171) -/

/-- RX.STEP raises nothing with FRAME_COMPLETE, and one of its four events otherwise (R101). -/
theorem execRxStep_events {s t : State} (hi : s.e.Inv s.cfg) (h : exec .rxStep s = .next t) :
    (t.response = .rx .frameComplete ∧ t.events = s.events) ∨
    (t.response ≠ .rx .frameComplete ∧
      ∃ ev ∈ [Event.noData, .malformed, .oversize, .incomplete], t.events = s.events ++ [ev]) := by
  have hkept : s.e.rxChunkPos = s.e.rxChunkLen → s.readKept := fun hc => by
    obtain ⟨-, hnone, -⟩ | ⟨hlt | ⟨-, -, hk⟩, -⟩ := execRxStep_next hi h
    · simp [State.readKept, hnone]
    · omega
    · exact hk
  obtain ⟨u, hu, -, -, hcase⟩ := rxStepCompletesWithOneOutcome s hi (whenPhase_eq_next.1 h).1 hkept
  obtain rfl := Host.Outcome.next.inj (hu.symm.trans h)
  exact hcase.imp_right fun ⟨hr, hev⟩ => ⟨by simp [hr], hev⟩

/-- The frame accumulated in `s` verifies, and its identifier names a slot that holds `g`; `payload` is what stands between its
identifier and its checksum. -/
def VerifiedRouted (s : State) (g : Handler) (payload : Bytes) : Prop :=
  ∃ id checksum, accumulated s.e = id :: payload ++ [checksum] ∧ ck8 s.cfg (id :: payload) = checksum ∧
    id.toNat ≤ s.cfg.protoMax.toNat ∧ slot s.e.reg id.toNat = some g

/-- A completed frame is dropped with one event, or goes to the handler it is verified and routed for (R122, R133). -/
theorem verifyAndDispatch_events {s t : State} (h : verifyAndDispatch s = .next t) :
    (∃ ev ∈ [Event.badSum, .noRoute], t.events = s.events ++ [ev]) ∨
    ∃ g payload sends, VerifiedRouted s g payload ∧ t.events = s.events ++ .call g payload :: sends ∧
      ∀ ev ∈ sends, ev ∈ [Event.txBusy, .txLen, .txCap] := by
  obtain ⟨-, ⟨-, rfl⟩ | ⟨hpass, hd⟩⟩ := verifyAndDispatch_next h
  · exact .inl ⟨.badSum, by simp, rfl⟩
  obtain ⟨id, payload, checksum, hf, -, ⟨-, rfl⟩ | ⟨g, hroute, hg⟩⟩ := muxDispatch_next hd
  · exact .inl ⟨.noRoute, by simp, rfl⟩
  · have hf : accumulated s.e = id :: payload ++ [checksum] := hf
    rw [hf, ck8Verify_decodedFrame, decide_eq_true_eq] at hpass
    obtain ⟨sends, ht, hsends⟩ := handlerInvoke_next hg
    exact .inr ⟨g, payload, sends, ⟨id, checksum, hf, hpass, route_eq_some.1 hroute⟩, by rw [ht]; rfl, hsends⟩

/-- The receive half raises one event, or calls the handler for which RX.STEP's frame is verified and routed (R171). -/
theorem receiveHalf_events {s u : State} (hi : s.e.Inv s.cfg) (h : receiveHalf s = .next u) :
    (∃ ev ∈ [Event.noData, .malformed, .oversize, .incomplete, .badSum, .noRoute], u.events = s.events ++ [ev]) ∨
    ∃ r g payload sends, rxStep (s.withPhase .rx) = .next r ∧ r.response = .rx .frameComplete ∧
      VerifiedRouted r g payload ∧ u.events = s.events ++ .call g payload :: sends ∧
      ∀ ev ∈ sends, ev ∈ [Event.txBusy, .txLen, .txCap] := by
  obtain ⟨r, hr, hcase⟩ := receiveHalf_next h
  obtain ⟨hc, hevs⟩ | ⟨hc, ev, hev, hevs⟩ := execRxStep_events (withPhase_inv hi .rx) hr
  · obtain ⟨hc', -⟩ | ⟨-, v, hv, rfl⟩ := hcase
    · exact absurd hc hc'
    rw [State.withPhase_events] at hevs
    rw [State.respond_events, ← hevs]
    obtain ⟨ev, hev, hvevs⟩ | ⟨g, payload, sends, hvr, hvevs, hsends⟩ := verifyAndDispatch_events hv
    · exact .inl ⟨ev, List.mem_append_right [Event.noData, .malformed, .oversize, .incomplete] hev, hvevs⟩
    · exact .inr ⟨r, g, payload, sends, hr, hc, hvr, hvevs, hsends⟩
  · obtain ⟨-, rfl⟩ | ⟨hc', -⟩ := hcase
    · exact .inl ⟨ev, List.mem_append_left [Event.badSum, .noRoute] hev, hevs⟩
    · exact absurd hc' hc

/-- TX.DRAIN raises at most one event (R152). -/
theorem txDrain_events {s t : State} (h : txDrain s = .next t) :
    ∃ drain ∈ [[], [Event.txPartial], [.txStall]], t.events = s.events ++ drain := by
  obtain ⟨-, rfl⟩ | ⟨-, -, rfl⟩ | ⟨w, -, -, -, -, rfl⟩ := txDrain_next h
  · exact ⟨[], by simp, by simp⟩
  · exact ⟨[.txStall], by simp, rfl⟩
  · exact ⟨if w < offerSize s then [.txPartial] else [], by split <;> simp, rfl⟩

theorem transmitHalf_events {s t : State} (h : transmitHalf s = .next t) :
    ∃ drain ∈ [[], [Event.txPartial], [.txStall]], t.events = s.events ++ drain := by
  obtain ⟨d, hd, rfl⟩ := transmitHalf_next h
  exact txDrain_events (s := s.withPhase .drain) (t := d) hd

/-! ## A handler's call (P4 item 3 of `95_test_vectors.md`) -/

/-- RX.STEP changes neither the registry nor the configuration, so the route it leaves is the one there was before it. -/
theorem OnlyReceives.verifiedRouted {s t : State} (h : OnlyReceives s t) {g : Handler} {payload : Bytes}
    (hv : VerifiedRouted t g payload) :
    ∃ id checksum, accumulated t.e = id :: payload ++ [checksum] ∧ ck8 s.cfg (id :: payload) = checksum ∧
      id.toNat ≤ s.cfg.protoMax.toNat ∧ slot s.e.reg id.toNat = some g := by
  have hcfg : t.cfg = s.cfg := by rw [h]
  have hreg : t.e.reg = s.e.reg := by rw [h]
  rwa [VerifiedRouted, hcfg, hreg] at hv

/-- Settles O46: of what a cycle raises only the receive half's dispatch of a verified and routed frame is a call. -/
theorem handlersSeeOnlyVerifiedRoutedFrames : Obligations.HandlersSeeOnlyVerifiedRoutedFrames := by
  intro s t h payload hs hnone hcycle hcall
  obtain ⟨-, u, hu, ht⟩ := taskCycle_next hcycle
  obtain ⟨drain, hdrain, htevs⟩ := transmitHalf_events ht
  have hnotDrain : Event.call h payload ∉ drain := by
    simp only [List.mem_cons, List.not_mem_nil, or_false] at hdrain
    obtain rfl | rfl | rfl := hdrain <;> simp
  obtain ⟨ev, hev, huevs⟩ | ⟨r, g, payload', sends, hr, hc, hvr, huevs, hsends⟩ := receiveHalf_events hs.engine hu
  · rw [htevs, huevs, hnone] at hcall
    have hcall : Event.call h payload = ev := by simpa [hnotDrain] using hcall
    rw [← hcall] at hev
    simp at hev
  · have hnotSends : Event.call h payload ∉ sends := fun hm => by simpa using hsends _ hm
    rw [htevs, huevs, hnone] at hcall ⊢
    obtain ⟨rfl, rfl⟩ : h = g ∧ payload = payload' := by simpa [hnotDrain, hnotSends] using hcall
    obtain ⟨id, checksum, hf, hck, hid, hslot⟩ := (rxStep_onlyReceives hr).verifiedRouted hvr
    refine ⟨r, id, checksum, hr, hc, hf, hck, hid, hslot, ?_⟩
    simp [List.count_eq_zero_of_not_mem hnotDrain, List.count_eq_zero_of_not_mem hnotSends]

end Sys2Proof.Machine

/-! PROOFS, multiplexer (`43_multiplexer.md`). What MUX.REGISTER and MUX.UNREGISTER make of the slots (R131, R132), which frames
MUX.DISPATCH drops and where a handler's moves take it otherwise (R133 to R135, R204), and that no other operation changes the
registry (R136). -/

namespace Sys2Proof.Machine

/-! ## The registry operations (R131, R132) -/

/-- MUX.REGISTER of an identifier above the range (R131). -/
theorem muxRegister_of_outOfRange {s : State} {id : Byte} (hid : s.cfg.protoMax.toNat < id.toNat) (h : Handler) :
    muxRegister id h s = s.respond (.reg .invalidId) :=
  if_pos (BitVec.lt_def.2 hid)

/-- MUX.REGISTER on an occupied slot (R131). -/
theorem muxRegister_of_occupied {s : State} {id : Byte} {g : Handler} (hid : id.toNat ≤ s.cfg.protoMax.toNat)
    (hslot : slot s.e.reg id.toNat = some g) (h : Handler) : muxRegister id h s = s.respond (.reg .alreadyRegistered) := by
  unfold muxRegister
  rw [if_neg (by rw [BitVec.lt_def]; omega), hslot]

/-- MUX.UNREGISTER of an identifier above the range (R132). -/
theorem muxUnregister_of_outOfRange {s : State} {id : Byte} (hid : s.cfg.protoMax.toNat < id.toNat) :
    muxUnregister id s = s.respond .none :=
  if_pos (BitVec.lt_def.2 hid)

theorem execMuxRegister_of_idle {s : State} (hp : s.e.phase = .idle) (id : Byte) (h : Handler) :
    exec (.muxRegister id h) s = .next (muxRegister id h s) :=
  whenIdle_of_idle hp _

theorem execMuxUnregister_of_idle {s : State} (hp : s.e.phase = .idle) (id : Byte) :
    exec (.muxUnregister id) s = .next (muxUnregister id s) :=
  whenIdle_of_idle hp _

/-- Settles O29: the three ways of `muxRegister`; the slots after an insertion are those of `slot_insertAt`. -/
theorem registerFillsAnEmptySlot : Obligations.RegisterFillsAnEmptySlot := by
  intro s id h hp
  rw [execMuxRegister_of_idle hp]
  refine ⟨fun hid => ?_, fun g hid hslot => ?_, fun hid hslot => ⟨_, rfl, ?_⟩⟩
  · rw [muxRegister_of_outOfRange hid]; rfl
  · rw [muxRegister_of_occupied hid hslot]; rfl
  · rw [muxRegister_of_empty hid hslot]
    exact ⟨rfl, slot_insertAt s.e.reg id.toNat h⟩

/-- Settles O30: the removal is unconditional; the slots after it are those of `slot_removeAt`. -/
theorem unregisterEmptiesTheSlot : Obligations.UnregisterEmptiesTheSlot := by
  intro s id hp
  rw [execMuxUnregister_of_idle hp]
  refine ⟨fun hid => ?_, fun hid => ⟨_, rfl, ?_⟩⟩
  · rw [muxUnregister_of_outOfRange hid]; rfl
  · rw [muxUnregister_of_inRange hid]
    exact ⟨rfl, slot_removeAt s.e.reg id.toNat⟩

/-! ## MUX.DISPATCH as an instruction (R133) -/

/-- Settles O31: out of range and an empty slot are the two ways to have no route. -/
theorem dispatchDropsUnroutedFrames : Obligations.DispatchDropsUnroutedFrames :=
  fun _ _ _ _ hp hc hf hr => execMuxDispatch_of_noRoute hp hc hf (route_eq_none.2 hr)

/-- MUX.DISPATCH of a routed frame: entry, the handler's run, return to phase DISPATCH with no response (R133, R202, R204). -/
theorem execMuxDispatch_of_route {s : State} {id : Byte} {payload : Bytes} {checksum : Byte} {h : Handler}
    (hp : s.e.phase = .dispatch) (hc : s.e.rxLen ≤ s.cfg.rxFrameCap)
    (hf : accumulated s.e = id :: (payload ++ [checksum])) (hr : route s id = some h) :
    exec .muxDispatch s = andThen (runBehaviour s.nextBehaviour (s.enterHandler h payload)) fun u =>
      .next (u.returnFromHandler.respond .none) := by
  refine (whenPhase_of_phase hp _).trans ?_
  rw [muxDispatch_of_frame hc hf, hr]
  exact andThen_assoc ..

/-- Settles O33: the run from the handler's entry ends as the move it comes to ends; conversely a run with a next state has come
to a return. -/
theorem handlerThatDoesNotReturnStops : Obligations.HandlerThatDoesNotReturnStops := by
  intro s id payload checksum h hp hc hf hid hslot
  rw [execMuxDispatch_of_route hp hc hf (route_eq_some.2 ⟨hid, hslot⟩)]
  refine ⟨fun r u hu => ?_, fun u hu => ?_, fun u hu => ?_, fun t ht => ?_⟩
  · rw [hu.runBehaviour_eq]; rfl
  · rw [hu.runBehaviour_eq]; rfl
  · rw [hu.runBehaviour_eq]; rfl
  · obtain ⟨u, hu, -⟩ := andThen_eq_next.1 ht
    exact ⟨u, handlerReaches_of_runBehaviour rfl hu⟩

/-! ## What a handler's sends leave of the engine (R135, R151) -/

/-- TX.SEND with a frame in flight (R151). -/
theorem txSend_of_inFlight {s : State} (hfl : s.e.txCur < s.e.txLen) (id : Byte) (payload : Bytes) :
    txSend id payload s = rejectSend s .txBusy :=
  if_pos ((inFlight_eq_true _).2 hfl)

/-- TX.SEND with nothing in flight and a frame that fits (R151). -/
theorem txSend_of_fits {s : State} {id : Byte} {payload : Bytes} (hidle : s.e.txLen ≤ s.e.txCur)
    (hlen : payload.length ≤ s.cfg.txPayloadMax) (hcap : (encodedFrameOf s.cfg id payload).length ≤ s.cfg.txBufCap) :
    txSend id payload s = (s.storeFrame (encodedFrameOf s.cfg id payload)).respond (.send .accepted) := by
  obtain ⟨h, -⟩ | ⟨-, h, -⟩ | ⟨-, -, h, -⟩ | ⟨-, -, -, h⟩ := txSend_cases id payload s
  · omega
  · omega
  · omega
  · exact h

/-- A handler answered ACCEPTED goes on with its first branch (R135). -/
theorem runBehaviour_send_of_accepted {s : State} {id : Byte} {payload : Bytes} {a r : Behaviour}
    (h : (txSend id payload s).response = .send .accepted) :
    runBehaviour (.send id payload a r) s = runBehaviour a (txSend id payload s) :=
  if_pos h

/-- A handler answered REJECTED goes on with its second branch (R135). -/
theorem runBehaviour_send_of_rejected {s : State} {id : Byte} {payload : Bytes} {a r : Behaviour}
    (h : (txSend id payload s).response = .send .rejected) :
    runBehaviour (.send id payload a r) s = runBehaviour r (txSend id payload s) :=
  if_neg (by simp [h])

/-- A handler that finds a frame in flight is answered REJECTED at every send, and leaves E as it is. -/
theorem runBehaviour_e_of_inFlight {b : Behaviour} {s t : State} (hfl : s.e.txCur < s.e.txLen)
    (h : runBehaviour b s = .next t) : t.e = s.e := by
  induction b generalizing s with
  | done => obtain rfl := Host.Outcome.next.inj h; rfl
  | send id payload a r _ ihr =>
    have hbusy := txSend_of_inFlight hfl id payload
    rw [runBehaviour_send_of_rejected (by rw [hbusy]; rfl), hbusy] at h
    exact ihr (s := rejectSend s .txBusy) hfl h
  | barred r => cases h
  | hang => cases h

/-- After a send that stored its frame the frame is in flight, so whatever the handler does next leaves E as the store left it. -/
theorem runBehaviour_send_e_of_stored {s t : State} {id : Byte} {payload : Bytes} {a r : Behaviour}
    (hstored : txSend id payload s = (s.storeFrame (encodedFrameOf s.cfg id payload)).respond (.send .accepted))
    (h : runBehaviour (.send id payload a r) s = .next t) : t.e = (s.storeFrame (encodedFrameOf s.cfg id payload)).e := by
  rw [runBehaviour_send_of_accepted (by rw [hstored]; rfl), hstored] at h
  have hpos : 0 < (encodedFrameOf s.cfg id payload).length :=
    Nat.lt_of_lt_of_le (by decide) (four_le_length_encodedFrameOf s.cfg id payload)
  exact runBehaviour_e_of_inFlight (s := (s.storeFrame _).respond (.send .accepted)) hpos h

/-- TX.SEND is answered REJECTED and leaves E as it is, or stores its frame (R151). -/
theorem txSend_rejected_or_stored (id : Byte) (payload : Bytes) (s : State) :
    ((txSend id payload s).response = .send .rejected ∧ (txSend id payload s).e = s.e) ∨
    txSend id payload s = (s.storeFrame (encodedFrameOf s.cfg id payload)).respond (.send .accepted) := by
  obtain ⟨-, h⟩ | ⟨-, -, h⟩ | ⟨-, -, -, h⟩ | ⟨-, -, -, h⟩ := txSend_cases id payload s
  · exact .inl (by rw [h]; exact ⟨rfl, rfl⟩)
  · exact .inl (by rw [h]; exact ⟨rfl, rfl⟩)
  · exact .inl (by rw [h]; exact ⟨rfl, rfl⟩)
  · exact .inr h

/-- A handler's run stores one frame at most, and changes nothing else of E. -/
theorem runBehaviour_e {b : Behaviour} {s t : State} (h : runBehaviour b s = .next t) :
    t.e = s.e ∨
    ∃ enc, t.e = { s.e with txBuf := memWrite s.e.txBuf 0 enc, txLen := enc.length, txCur := 0 } := by
  induction b generalizing s with
  | done => obtain rfl := Host.Outcome.next.inj h; exact .inl rfl
  | send id payload a r _ ihr =>
    obtain ⟨hrejected, he⟩ | hstored := txSend_rejected_or_stored id payload s
    · rw [runBehaviour_send_of_rejected hrejected] at h
      rw [← he]
      exact ihr h
    · exact .inr ⟨_, runBehaviour_send_e_of_stored hstored h⟩
  | barred r => cases h
  | hang => cases h

/-- The one frame a handler's run may store is all it changes of TXFRAME. -/
theorem runBehaviour_read_txBuf {b : Behaviour} {s t : State} (h : runBehaviour b s = .next t) {a : Nat}
    (ha : t.e.txLen ≤ a) : t.e.txBuf.read a = s.e.txBuf.read a := by
  obtain he | ⟨enc, he⟩ := runBehaviour_e h
  · rw [he]
  · rw [he] at ha ⊢
    have hbeyond : ¬(0 ≤ a ∧ a < 0 + enc.length) := by simpa using ha
    rw [read_memWrite, dif_neg hbeyond]

/-! ## MUX.DISPATCH to a handler that returns (R133, R204) -/

/-- Entry and return change the phase there and back: E is as before when the run between them left it alone. -/
theorem returnFromHandler_e_of_enterHandler {s u : State} {h : Handler} {payload : Bytes} (hp : s.e.phase = .dispatch)
    (hu : u.e = (s.enterHandler h payload).e) : u.returnFromHandler.e = s.e := by
  rw [State.returnFromHandler_e, hu, ← hp]
  rfl

/-- Settles O32: between the entry and the return the handler's run makes its sends, of which one at most stores a frame. -/
theorem dispatchInvokesTheHandlerOnce : Obligations.DispatchInvokesTheHandlerOnce := by
  intro s id payload checksum h hp hc hf hid hslot hreturns
  obtain ⟨u, hu⟩ := runBehaviour_returns hreturns (s.enterHandler h payload)
  obtain ⟨sends, hs, hsends⟩ := runBehaviour_onlySends hu
  refine ⟨u.returnFromHandler.respond .none, sends, ?_, ?_, hsends, ?_, fun a ha => runBehaviour_read_txBuf hu ha, ?_, ?_⟩
  · rw [execMuxDispatch_of_route hp hc hf (route_eq_some.2 ⟨hid, hslot⟩), hu]
    rfl
  · rw [hs]
    simp [hp, State.returnFromHandler, State.withPhase, State.respond]
  · rintro replyId reply a r enc hb hidle hlen rfl hcap
    rw [hb] at hu
    have he := runBehaviour_send_e_of_stored (s := s.enterHandler h payload) (txSend_of_fits hidle hlen hcap) hu
    rw [State.respond_e, State.returnFromHandler_e, he]
    exact ⟨bytesAt_memWrite_same s.e.txBuf 0 _, rfl, rfl⟩
  · exact fun hfl => returnFromHandler_e_of_enterHandler hp
      (runBehaviour_e_of_inFlight (s := s.enterHandler h payload) hfl hu)
  · intro hb
    rw [hb] at hu
    obtain rfl := Host.Outcome.next.inj hu
    exact ⟨returnFromHandler_e_of_enterHandler hp rfl, by simpa using congrArg State.events hs⟩

/-! ## What leaves the registry alone (R136) -/

theorem OnlySends.reg_eq {s t : State} {sends : List Event} (h : OnlySends s t sends) : t.e.reg = s.e.reg := by rw [h.state]

theorem OnlyReceives.reg_eq {s t : State} (h : OnlyReceives s t) : t.e.reg = s.e.reg := by rw [h]

theorem txSend_reg (id : Byte) (payload : Bytes) (s : State) : (txSend id payload s).e.reg = s.e.reg :=
  (txSend_onlySends id payload s).elim fun _ h => h.reg_eq

theorem muxDispatch_reg {s t : State} (h : muxDispatch s = .next t) : t.e.reg = s.e.reg := by
  obtain ⟨_, _, _, -, -, ⟨-, rfl⟩ | ⟨g, -, h⟩⟩ := muxDispatch_next h
  · rfl
  · obtain ⟨_, ht, -⟩ := handlerInvoke_next h
    rw [ht]

theorem txDrain_reg {s t : State} (h : txDrain s = .next t) : t.e.reg = s.e.reg := by
  obtain ⟨-, rfl⟩ | ⟨-, -, rfl⟩ | ⟨w, -, -, -, -, rfl⟩ := txDrain_next h
  · rfl
  · rfl
  · rw [State.advanceCursor_e]
    split <;> rfl

theorem verifyAndDispatch_reg {s t : State} (h : verifyAndDispatch s = .next t) : t.e.reg = s.e.reg := by
  obtain ⟨-, ⟨-, rfl⟩ | ⟨-, hd⟩⟩ := verifyAndDispatch_next h
  · rfl
  · exact muxDispatch_reg (s := s.withPhase .dispatch) hd

theorem receiveHalf_reg {s u : State} (h : receiveHalf s = .next u) : u.e.reg = s.e.reg := by
  obtain ⟨r, hr, hu⟩ := receiveHalf_next h
  have hrreg : r.e.reg = s.e.reg := (rxStep_onlyReceives hr).reg_eq
  obtain ⟨-, rfl⟩ | ⟨-, v, hv, rfl⟩ := hu
  · exact hrreg
  · exact (verifyAndDispatch_reg hv).trans hrreg

theorem transmitHalf_reg {s t : State} (h : transmitHalf s = .next t) : t.e.reg = s.e.reg := by
  obtain ⟨d, hd, rfl⟩ := transmitHalf_next h
  exact txDrain_reg (s := s.withPhase .drain) (t := d) hd

/-- A cycle's two halves, a dispatch among them, look slots up and fill or empty none. -/
theorem taskCycle_reg {s t : State} (h : execTaskCycle s = .next t) : t.e.reg = s.e.reg := by
  obtain ⟨-, u, hu, ht⟩ := taskCycle_next h
  exact (transmitHalf_reg ht).trans (receiveHalf_reg hu)

/-- Settles O35: by the instruction; the four the statement names are its other cases. -/
theorem onlyRegistryOperationsChangeTheRegistry : Obligations.OnlyRegistryOperationsChangeTheRegistry := by
  intro i s t h
  cases i with
  | muxRegister id g => exact .inr (.inl ⟨id, g, rfl⟩)
  | muxUnregister id => exact .inr (.inr (.inl ⟨id, rfl⟩))
  | engineInit => exact .inr (.inr (.inr (.inl rfl)))
  | engineShutdown => exact .inr (.inr (.inr (.inr rfl)))
  | reserved6 | reserved7 => cases h
  | wireEnd | wireEsc | wireLiteral | wireEscEnd | wireEscEsc | wireMalformed | stuffEnd | stuffEsc | stuffOther
  | decodedFrame | encodedFrame =>
    obtain ⟨he, -⟩ := (exec_completesPurely_of_format_ne_op (by simp [Instr.format]) s).onlyAnswers h
    exact .inl (by rw [he])
  | slipEnc | slipSfe | slipDec | ck8Compute | ck8Verify =>
    obtain ⟨he, -⟩ := (next_respond_completesPurely s _).onlyAnswers h
    exact .inl (by rw [he])
  | txSend id payload =>
    obtain ⟨-, h⟩ := whenIdleOrHandler_eq_next.1 h
    obtain rfl := Host.Outcome.next.inj h
    exact .inl (txSend_reg id payload s)
  | taskCycle => exact .inl (taskCycle_reg h)
  | rxStep =>
    obtain ⟨-, h⟩ := whenPhase_eq_next.1 h
    exact .inl (rxStep_onlyReceives h).reg_eq
  | muxDispatch =>
    obtain ⟨-, h⟩ := whenPhase_eq_next.1 h
    obtain ⟨u, hu, h⟩ := andThen_eq_next.1 h
    obtain rfl := Host.Outcome.next.inj h
    exact .inl (muxDispatch_reg (t := u) hu)
  | txDrain =>
    obtain ⟨-, h⟩ := whenPhase_eq_next.1 h
    exact .inl (txDrain_reg (s := s.respond .none) h)

end Sys2Proof.Machine

/-! PROOFS, transmit path (`44_transmit.md`). The rejections of TX.SEND and what an accepted one stores (R151), how long the frame
of an allowed payload can be (R154), what TX.DRAIN offers and takes (R152), and that a frame in flight is kept until a cycle has
drained it (R153, R156). -/

namespace Sys2Proof.Machine

/-! ## TX.SEND (R151) -/

theorem execTxSend_of_phase {s : State} (hp : s.e.phase = .idle ∨ s.e.phase = .handler) (id : Byte) (payload : Bytes) :
    exec (.txSend id payload) s = .next (txSend id payload s) :=
  whenIdleOrHandler_eq_next.2 ⟨hp, rfl⟩

/-- TX.SEND of a payload above the limit, with nothing in flight. -/
theorem txSend_of_payloadTooLong {s : State} {payload : Bytes} (hidle : s.e.txLen ≤ s.e.txCur)
    (hlen : s.cfg.txPayloadMax < payload.length) (id : Byte) : txSend id payload s = rejectSend s .txLen := by
  obtain ⟨h, -⟩ | ⟨-, -, h⟩ | ⟨-, h, -⟩ | ⟨-, h, -⟩ := txSend_cases id payload s
  · omega
  · exact h
  · omega
  · omega

/-- TX.SEND of an allowed payload whose encoding the buffer cannot hold, with nothing in flight. -/
theorem txSend_of_frameTooLong {s : State} {id : Byte} {payload : Bytes} (hidle : s.e.txLen ≤ s.e.txCur)
    (hlen : payload.length ≤ s.cfg.txPayloadMax) (hcap : s.cfg.txBufCap < (encodedFrameOf s.cfg id payload).length) :
    txSend id payload s = rejectSend s .txCap := by
  obtain ⟨h, -⟩ | ⟨-, h, -⟩ | ⟨-, -, -, h⟩ | ⟨-, -, h, -⟩ := txSend_cases id payload s
  · omega
  · omega
  · exact h
  · omega

/-- Settles O36: each rejection is a `rejectSend`, which leaves E as it is. -/
theorem rejectedSendChangesNothing : Obligations.RejectedSendChangesNothing := by
  intro s id payload hp
  rw [execTxSend_of_phase hp]
  refine ⟨fun hfl => ?_, fun hidle hlen => ?_, fun hidle hlen hcap => ?_⟩
  · rw [txSend_of_inFlight hfl]; rfl
  · rw [txSend_of_payloadTooLong hidle hlen]; rfl
  · rw [txSend_of_frameTooLong hidle hlen hcap]; rfl

/-- A store of a run leaves every byte beyond the run as it was. -/
theorem read_memWrite_of_beyond (m : Memory) {a i : Nat} {v : Bytes} (h : a + v.length ≤ i) :
    (memWrite m a v).read i = m.read i := by
  rw [read_memWrite, dif_neg (by omega)]

/-- Settles O37: what `storeFrame` writes from index 0 is what the buffered frame reads. -/
theorem acceptedSendStoresTheFrame : Obligations.AcceptedSendStoresTheFrame := by
  rintro s id payload _ hp hidle hlen rfl hcap
  rw [execTxSend_of_phase hp, txSend_of_fits hidle hlen hcap]
  exact ⟨_, rfl, rfl, bytesAt_memWrite_same s.e.txBuf 0 _, four_le_length_encodedFrameOf s.cfg id payload,
    fun a ha => read_memWrite_of_beyond s.e.txBuf (by rwa [Nat.zero_add])⟩

/-! ## The length of an encoded frame (R154) -/

/-- A frame holds no more END and ESC bytes than it has bytes: stuffing adds one byte for each and at most doubles the length. -/
theorem count_markers_le_length {c : Config} (hc : c.MarkersDistinct) (f : Bytes) :
    f.count c.endByte + f.count c.escByte ≤ f.length := by
  have hexact := length_stuffed hc f
  have hbounds := length_stuffed_bounds c f
  omega

/-- Settles O38: 260 is 130 frame bytes, 128 pairs' second bytes and 2 markers. -/
theorem capacityRejectionIsRare : Obligations.CapacityRejectionIsRare := by
  intro c id payload f hc hpayload hf
  have hflen : f.length = payload.length + 2 := by simp [hf]
  have hlen : (slipEnc c f true true).length = payload.length + 2 + (f.count c.endByte + f.count c.escByte) + 2 := by
    rw [length_slipEnc, length_stuffed hc, hflen, Bool.toNat_true]
    omega
  have hcount := count_markers_le_length hc f
  exact ⟨hlen, by omega⟩

/-! ## TX.DRAIN (R152) -/

theorem take_bytesAt (m : Memory) (a : Nat) {w n : Nat} (h : w ≤ n) : (bytesAt m a n).take w = bytesAt m a w := by
  obtain ⟨k, rfl⟩ := Nat.exists_eq_add_of_le h
  rw [bytesAt_add, List.take_left' (length_bytesAt ..)]

/-- The cursor's advance, register by register: at the length both return to 0 (D26). -/
theorem State.advanceCursor_eq (s : State) (w : Nat) :
    s.advanceCursor w = { s with e := { s.e with
      txLen := if s.e.txCur + w = s.e.txLen then 0 else s.e.txLen,
      txCur := if s.e.txCur + w = s.e.txLen then 0 else s.e.txCur + w } } := by
  unfold State.advanceCursor
  split <;> rfl

/-- The transport took a count within what was offered (R47). -/
theorem txAnswer_of_fits {s : State} {offered : Bytes} {w : Nat} (h : w ≤ offered.length) :
    txAnswer s offered (.accepted w) = .next { (s.emit (offered.take w)).advanceCursor w with
      events := s.events ++ if w < offered.length then [.txPartial] else [] } := by
  refine (if_neg (Nat.not_lt.2 h)).trans ?_
  split
  · rfl
  · rw [List.append_nil]; rfl

/-- TX.DRAIN as an instruction with a frame in flight: the transport answers the offer from the cursor forward. -/
theorem execTxDrain_of_inFlight {s : State} (hi : s.e.Inv s.cfg) (hp : s.e.phase = .drain) (hfl : s.e.txCur < s.e.txLen) :
    exec .txDrain s =
      txAnswer (s.respond .none).dropWrite (bytesAt s.e.txBuf s.e.txCur (offerSize s)) s.nextWrite :=
  (whenPhase_of_phase hp _).trans (txDrain_of_inFlight (s := s.respond .none) hfl hi.tx_le_cap)

/-- Settles O39: the bytes taken of the offer are the first of the undrained ones, since the offer is. -/
theorem drainOffersFromTheCursor : Obligations.DrainOffersFromTheCursor := by
  refine fun s hi hp => ⟨fun hidle => ?_, fun hfl herror => ?_, ?_⟩
  · exact (whenPhase_of_phase hp _).trans (txDrain_of_idle (s := s.respond .none) hidle)
  · rw [execTxDrain_of_inFlight hi hp hfl, herror]
    rfl
  · intro w n hn hfl hans hw
    obtain rfl : n = offerSize s := hn
    have hoffer : w ≤ (bytesAt s.e.txBuf s.e.txCur (offerSize s)).length := by rwa [length_bytesAt]
    have htaken : (bytesAt s.e.txBuf s.e.txCur (offerSize s)).take w = (undrained s.e).take w := by
      rw [take_bytesAt _ _ hw, undrained, take_bytesAt _ _ (hw.trans (Nat.min_le_right ..))]
    rw [execTxDrain_of_inFlight hi hp hfl, hans, txAnswer_of_fits hoffer, htaken, length_bytesAt, State.advanceCursor_eq]
    rfl

/-! ## A frame in flight (R153, R156) -/

/-- The transmit side of E: the buffer, the length and the cursor (R26). -/
def txSide (e : Engine) : Memory × Nat × Nat := (e.txBuf, e.txLen, e.txCur)

theorem txSide_eq_iff {e e' : Engine} :
    txSide e = txSide e' ↔ e.txBuf = e'.txBuf ∧ e.txLen = e'.txLen ∧ e.txCur = e'.txCur := by
  simp [txSide]

theorem OnlyReceives.txSide_eq {s t : State} (h : OnlyReceives s t) : txSide t.e = txSide s.e :=
  congrArg (fun u => txSide u.e) h

/-- A dispatch during which a frame is in flight finds no room for a reply (R151). -/
theorem muxDispatch_txSide {s t : State} (hfl : s.e.txCur < s.e.txLen) (h : muxDispatch s = .next t) :
    txSide t.e = txSide s.e := by
  obtain ⟨_, payload, _, -, -, ⟨-, rfl⟩ | ⟨g, -, h⟩⟩ := muxDispatch_next h
  · rfl
  · obtain ⟨u, hu, hk⟩ := andThen_eq_next.1 h
    obtain rfl := Host.Outcome.next.inj hk
    have he : u.e = (s.enterHandler g payload).e := runBehaviour_e_of_inFlight hfl hu
    rw [State.returnFromHandler_e, he]
    rfl

theorem verifyAndDispatch_txSide {s t : State} (hfl : s.e.txCur < s.e.txLen) (h : verifyAndDispatch s = .next t) :
    txSide t.e = txSide s.e := by
  obtain ⟨-, ⟨-, rfl⟩ | ⟨-, hd⟩⟩ := verifyAndDispatch_next h
  · rfl
  · exact muxDispatch_txSide (s := s.withPhase .dispatch) hfl hd

theorem receiveHalf_txSide {s u : State} (hfl : s.e.txCur < s.e.txLen) (h : receiveHalf s = .next u) :
    txSide u.e = txSide s.e := by
  obtain ⟨r, hr, hu⟩ := receiveHalf_next h
  have hrs : txSide r.e = txSide s.e := (rxStep_onlyReceives hr).txSide_eq
  obtain ⟨-, rfl⟩ | ⟨-, v, hv, rfl⟩ := hu
  · exact hrs
  · obtain ⟨-, hlen, hcur⟩ := txSide_eq_iff.1 hrs
    exact (verifyAndDispatch_txSide (by rwa [hlen, hcur]) hv).trans hrs

/-- From `s` to `t` the frame in flight stays in the buffer, and its cursor goes forward below its length or it is drained. -/
def DrainsForward (s t : State) : Prop :=
  t.e.txBuf = s.e.txBuf ∧
  ((t.e.txLen = s.e.txLen ∧ s.e.txCur ≤ t.e.txCur ∧ t.e.txCur < t.e.txLen) ∨ (t.e.txLen = 0 ∧ t.e.txCur = 0))

/-- `error` moves nothing; a count taken moves the cursor by at most what is left (R152). -/
theorem txDrain_drainsForward {s t : State} (hfl : s.e.txCur < s.e.txLen) (h : txDrain s = .next t) : DrainsForward s t := by
  obtain ⟨hidle, -⟩ | ⟨-, -, rfl⟩ | ⟨w, -, -, hw, -, rfl⟩ := txDrain_next h
  · omega
  · exact ⟨rfl, .inl ⟨rfl, le_rfl, hfl⟩⟩
  · have hle : w ≤ s.e.txLen - s.e.txCur := hw.trans (Nat.min_le_right ..)
    by_cases hend : s.e.txCur + w = s.e.txLen
    · simp [DrainsForward, hend]
    · have hlt : s.e.txCur + w < s.e.txLen := by omega
      simp [DrainsForward, hend, hlt]

theorem transmitHalf_drainsForward {s t : State} (hfl : s.e.txCur < s.e.txLen) (h : transmitHalf s = .next t) :
    DrainsForward s t := by
  obtain ⟨d, hd, rfl⟩ := transmitHalf_next h
  exact txDrain_drainsForward (s := s.withPhase .drain) (t := d) hfl hd

/-- In a cycle the receive half leaves the transmit side alone, and the transmit half drains it (R171). -/
theorem taskCycle_drainsForward {s t : State} (hfl : s.e.txCur < s.e.txLen) (h : execTaskCycle s = .next t) :
    DrainsForward s t := by
  obtain ⟨-, u, hu, ht⟩ := taskCycle_next h
  obtain ⟨hbuf, hlen, hcur⟩ := txSide_eq_iff.1 (receiveHalf_txSide hfl hu)
  have hd := transmitHalf_drainsForward (by rwa [hlen, hcur]) ht
  rwa [DrainsForward, hbuf, hlen, hcur] at hd

/-- Between cycles TX.SEND alone could write the transmit side, and it is busy. -/
theorem exec_txSide {i : Instr} {s t : State} (hs : s.Inv) (hfl : s.e.txCur < s.e.txLen) (h : exec i s = .next t)
    (hinit : i ≠ .engineInit) (hshutdown : i ≠ .engineShutdown) (hcycle : i ≠ .taskCycle) : txSide t.e = txSide s.e := by
  cases i with
  | engineInit => exact absurd rfl hinit
  | engineShutdown => exact absurd rfl hshutdown
  | taskCycle => exact absurd rfl hcycle
  | wireEnd | wireEsc | wireLiteral | wireEscEnd | wireEscEsc | wireMalformed | stuffEnd | stuffEsc | stuffOther
  | decodedFrame | encodedFrame =>
    exact congrArg txSide ((exec_completesPurely_of_format_ne_op (by simp [Instr.format]) s).onlyAnswers h).1
  | slipEnc | slipSfe | slipDec | ck8Compute | ck8Verify =>
    exact congrArg txSide ((next_respond_completesPurely s _).onlyAnswers h).1
  | reserved6 | reserved7 => cases h
  | muxRegister id g =>
    obtain rfl := Host.Outcome.next.inj (whenIdle_eq_next.1 h).2
    obtain ⟨reg, r, he⟩ := muxRegister_frame id g s
    rw [he]
    rfl
  | muxUnregister id =>
    obtain rfl := Host.Outcome.next.inj (whenIdle_eq_next.1 h).2
    obtain ⟨reg, r, he⟩ := muxUnregister_frame id s
    rw [he]
    rfl
  | txSend id payload =>
    obtain rfl := Host.Outcome.next.inj (whenIdleOrHandler_eq_next.1 h).2
    rw [txSend_of_inFlight hfl]
    rfl
  | rxStep | muxDispatch | txDrain =>
    have hp := (whenPhase_eq_next.1 h).1
    rw [hs.idle] at hp
    cases hp

/-- Settles O41: a cycle drains the frame forward, and any other instruction leaves the whole transmit side as it is. -/
theorem frameInFlightIsKeptUntilDrained : Obligations.FrameInFlightIsKeptUntilDrained := by
  intro i s t hs hfl h hinit hshutdown
  have hsend : ∀ id payload, i = .txSend id payload → t.response = .send .rejected := by
    rintro id payload rfl
    rw [execTxSend_of_phase (.inl hs.idle), txSend_of_inFlight hfl] at h
    obtain rfl := Host.Outcome.next.inj h
    rfl
  refine ⟨hsend, ?_⟩
  by_cases hcycle : i = .taskCycle
  · subst hcycle
    obtain ⟨hbuf, hmoves⟩ := taskCycle_drainsForward hfl h
    exact ⟨hbuf, fun hne => absurd rfl hne, hmoves.imp_right fun hdrained => ⟨rfl, hdrained⟩⟩
  · obtain ⟨hbuf, hlen, hcur⟩ := txSide_eq_iff.1 (exec_txSide hs hfl h hinit hshutdown hcycle)
    exact ⟨hbuf, fun _ => ⟨hlen, hcur⟩, .inl ⟨hlen, hcur.ge, by rwa [hlen, hcur]⟩⟩

end Sys2Proof.Machine

/-! PROOFS, task loop (`45_task_loop.md`). ENGINE.INIT and ENGINE.SHUTDOWN (R173, R174), TASK.CYCLE as its operations in order
(R171, R172), that a cycle completes (R175) and how it ends (R178), the drain and the reply within a cycle (R176), and the
end-to-end scenario (R177). -/

namespace Sys2Proof.Machine

/-! ## ENGINE.INIT and ENGINE.SHUTDOWN (R173, R174) -/

/-- Settles O48: in phase IDLE the guard lets the restart through, and the empty registry has no slot filled. -/
theorem initEmptiesTheEngine : Obligations.InitEmptiesTheEngine :=
  fun _ hp => ⟨whenIdle_of_idle hp _, fun _ => rfl⟩

/-- Settles O49: the same restart behind the same guard. -/
theorem shutdownActsAsInit : Obligations.ShutdownActsAsInit :=
  fun _ hp => ⟨whenIdle_of_idle hp _, rfl⟩

/-! ## The operations of a cycle in their phases (R171) -/

theorem exec_rxStep_withPhase (s : State) : exec .rxStep (s.withPhase .rx) = rxStep (s.withPhase .rx) :=
  whenPhase_of_phase (s := s.withPhase .rx) rfl _

theorem exec_muxDispatch_withPhase (s : State) :
    exec .muxDispatch (s.withPhase .dispatch) =
      andThen (muxDispatch (s.withPhase .dispatch)) fun t => .next (t.respond .none) :=
  whenPhase_of_phase (s := s.withPhase .dispatch) rfl _

theorem exec_txDrain_withPhase (s : State) :
    exec .txDrain (s.withPhase .drain) = txDrain ((s.withPhase .drain).respond .none) :=
  whenPhase_of_phase (s := s.withPhase .drain) rfl _

theorem execTaskCycle_of_idle {s : State} (hp : s.e.phase = .idle) :
    exec .taskCycle s = andThen (receiveHalf s) transmitHalf := whenIdle_of_idle hp _

theorem execTaskCycle_of_halves {s u t : State} (hp : s.e.phase = .idle) (hu : receiveHalf s = .next u)
    (ht : transmitHalf u = .next t) : exec .taskCycle s = .next t := by
  rw [execTaskCycle_of_idle hp, hu, andThen_next_left, ht]

/-! ## What does not depend on the response -/

/-- What goes on from a state in the same way whatever the latest operation answered (R28: responses are not stored). -/
def IgnoresResponse (k : State → Result) : Prop := ∀ t a, k (t.respond a) = k t

theorem andThen_congr {r : Result} {k l : State → Result} (h : ∀ s, r = .next s → k s = l s) :
    andThen r k = andThen r l := by
  cases r with
  | next s => exact h s rfl
  | fault => rfl
  | refused => rfl

/-- A handler's first send answers before anything looks at the response. -/
theorem runBehaviour_respond {k : State → Result} (hk : IgnoresResponse k) (b : Behaviour) (s : State) (a : Response) :
    andThen (runBehaviour b (s.respond a)) k = andThen (runBehaviour b s) k := by
  cases b with
  | done => exact hk s a
  | send | barred | hang => rfl

/-- The lookup does not read the response, and no way out of it does (R133). -/
theorem muxDispatch_respond {k : State → Result} (hk : IgnoresResponse k) (s : State) (a : Response) :
    andThen (muxDispatch (s.respond a)) k = andThen (muxDispatch s) k := by
  simp only [muxDispatch, State.respond_e, State.respond_cfg]
  split
  · rfl
  · split
    · rfl
    · next id payload _ _ =>
      have hroute : route (s.respond a) id = route s id := rfl
      rw [hroute]
      split
      · exact hk (s.raise .noRoute) a
      · next h _ =>
        simp only [handlerInvoke, andThen_assoc]
        exact runBehaviour_respond (fun t a => hk t.returnFromHandler a) s.nextBehaviour (s.enterHandler h payload) a

theorem txAnswer_respond (s : State) (offered : Bytes) (ans : WriteAnswer) (a : Response) :
    txAnswer (s.respond a) offered ans = andThen (txAnswer s offered ans) fun t => .next (t.respond a) := by
  cases ans with
  | error => rfl
  | accepted w =>
    simp only [txAnswer]
    split
    · rfl
    · split <;> rfl

/-- TX.DRAIN with a frame in flight and an offer inside the buffer. -/
theorem txDrain_of_offer {s : State} (hfl : s.e.txCur < s.e.txLen) (hcap : s.e.txCur + offerSize s ≤ s.cfg.txBufCap) :
    txDrain s = txAnswer s.dropWrite (bytesAt s.e.txBuf s.e.txCur (offerSize s)) s.nextWrite := by
  unfold txDrain
  rw [if_pos ((inFlight_eq_true _).2 hfl), memRead_eq_some hcap]

/-- TX.DRAIN with an offer that passes the buffer (R41; log entry 18). -/
theorem txDrain_of_outOfBounds {s : State} (hfl : s.e.txCur < s.e.txLen)
    (hcap : s.cfg.txBufCap < s.e.txCur + offerSize s) : txDrain s = .fault .outOfBounds := by
  unfold txDrain memRead
  rw [if_pos ((inFlight_eq_true _).2 hfl), if_neg (Nat.not_le.2 hcap)]

/-- TX.DRAIN hands on the response it finds. -/
theorem txDrain_respond (s : State) (a : Response) :
    txDrain (s.respond a) = andThen (txDrain s) fun t => .next (t.respond a) := by
  obtain hfl | hidle := Nat.lt_or_ge s.e.txCur s.e.txLen
  · obtain hcap | hcap := Nat.lt_or_ge s.cfg.txBufCap (s.e.txCur + offerSize s)
    · rw [txDrain_of_outOfBounds hfl hcap, txDrain_of_outOfBounds (s := s.respond a) hfl hcap]
      rfl
    · rw [txDrain_of_offer hfl hcap, txDrain_of_offer (s := s.respond a) hfl hcap]
      exact txAnswer_respond s.dropWrite _ s.nextWrite a
  · rw [txDrain_of_idle hidle, txDrain_of_idle (s := s.respond a) hidle]
    rfl

/-! ## TASK.CYCLE as its operations in order (R171, R172) -/

/-- CLEAN and IDLE: the end-of-cycle reset on FRAME_COMPLETE, phase IDLE, no response (R172). -/
def cleanUp (report : Response) (d : State) : State :=
  { d with
    e := { d.e with phase := .idle, rxLen := if report = .rx .frameComplete then 0 else d.e.rxLen }
    response := .none }

/-- What TASK.CYCLE does after its receive side with the report of RX.STEP (R171). -/
def drainAndClean (report : Response) (u : State) : Result :=
  andThen (exec .txDrain (u.withPhase .drain)) fun d => .next (cleanUp report d)

theorem drainAndClean_ignoresResponse (report : Response) : IgnoresResponse (drainAndClean report) := fun _ _ => rfl

/-- The transmit half reads the report of RX.STEP in the response. -/
theorem transmitHalf_eq (u : State) : transmitHalf u = drainAndClean u.response u := by
  have hdrain := txDrain_respond ((u.withPhase .drain).respond .none) u.response
  rw [transmitHalf, drainAndClean, exec_txDrain_withPhase]
  refine (congrArg (andThen · _) hdrain).trans ((andThen_assoc ..).trans (andThen_congr fun d _ => ?_))
  by_cases hc : u.response = .rx .frameComplete <;> simp [hc, cleanUp, State.clearFrame, State.withPhase, State.respond]

/-- VERIFY and DISPATCH of a frame inside the buffer (R171). -/
theorem verifyAndDispatch_of_le {s : State} (hc : s.e.rxLen ≤ s.cfg.rxFrameCap) :
    verifyAndDispatch s =
      if ck8Verify s.cfg (accumulated s.e) then muxDispatch (s.withPhase .dispatch)
      else .next ((s.withPhase .verify).raise .badSum) := by
  unfold verifyAndDispatch
  rw [memRead_eq_some (by omega)]
  rfl

/-- RX.STEP reports only a frame that fits (R108), whether or not the state meets the invariant. -/
theorem rxStep_rxLen_le {s r : State} (h : rxStep s = .next r) (hr : r.response = .rx .frameComplete) :
    r.e.rxLen ≤ r.cfg.rxFrameCap := by
  rw [rxStep_eq] at h
  split at h
  · obtain rfl := Host.Outcome.next.inj h
    cases hr
  split at h
  · cases h
  rw [rxWork_eq (rxWork_next h)] at h
  obtain rfl := Host.Outcome.next.inj h
  obtain ⟨-, hd⟩ | ⟨_, _, -, -, hd⟩ | ⟨_, _, -, hfit, hd⟩ := rxDecode_cases ((afterFetch s).withPos _) _ _ <;>
    rw [hd] at hr ⊢
  · cases hr
  · cases hr
  · rw [rxReport_slipSfe]
    exact hfit

/-- VERIFY and DISPATCH are CK8.VERIFY and MUX.DISPATCH as instructions, up to the response. -/
theorem verifyAndDispatch_eq_exec {s : State} {k : State → Result} (hk : IgnoresResponse k)
    (hc : s.e.rxLen ≤ s.cfg.rxFrameCap) :
    andThen (verifyAndDispatch s) k =
      andThen (andThen (exec (.ck8Verify (accumulated s.e)) (s.withPhase .verify)) fun v =>
        if v.response = .bit true then exec .muxDispatch (v.withPhase .dispatch) else .next (v.raise .badSum)) k := by
  have hverify : exec (.ck8Verify (accumulated s.e)) (s.withPhase .verify) =
      .next ((s.withPhase .verify).respond (.bit (ck8Verify s.cfg (accumulated s.e)))) := rfl
  rw [verifyAndDispatch_of_le hc, hverify, andThen_next_left]
  by_cases hpass : ck8Verify s.cfg (accumulated s.e) = true
  · rw [if_pos hpass, hpass, State.respond_response, if_pos rfl, exec_muxDispatch_withPhase, andThen_assoc]
    simp only [andThen_next_left, hk _ Response.none]
    exact (muxDispatch_respond hk (s.withPhase .dispatch) (.bit true)).symm
  · rw [if_neg hpass, State.respond_response, if_neg (by simpa using hpass)]
    exact (hk ((s.withPhase .verify).raise .badSum) _).symm

/-- Settles O43: the two halves of the cycle, taken apart by what RX.STEP reported. -/
theorem taskCycleRunsItsOperationsInOrder : Obligations.TaskCycleRunsItsOperationsInOrder := by
  intro s hp
  rw [execTaskCycle_of_idle hp, exec_rxStep_withPhase, receiveHalf, andThen_assoc]
  refine andThen_congr fun r hr => ?_
  by_cases hc : r.response = .rx .frameComplete
  · rw [if_pos hc, if_pos hc, andThen_assoc, hc]
    simp only [andThen_next_left, transmitHalf_eq, State.respond_response]
    exact verifyAndDispatch_eq_exec (drainAndClean_ignoresResponse (.rx .frameComplete)) (rxStep_rxLen_le hr hc)
  · rw [if_neg hc, if_neg hc, andThen_next_left, andThen_next_left, transmitHalf_eq]
    rfl

/-! ## A cycle completes (R175) -/

/-- A frame that passes has an identifier and a checksum (R122). -/
theorem eq_frame_of_ck8Verify {c : Config} {f : Bytes} (h : ck8Verify c f = true) :
    ∃ id payload checksum, f = id :: (payload ++ [checksum]) := by
  obtain ⟨hlen, -⟩ := (ck8Verify_eq_true_iff c f).1 h
  match f, hlen with
  | id :: b :: rest, _ =>
    exact ⟨id, (b :: rest).dropLast, _, by rw [List.dropLast_concat_getLast (List.cons_ne_nil b rest)]⟩

theorem handlerInvoke_completes {s : State} (hb : s.nextBehaviour.returns = true) (h : Handler) (payload : Bytes) :
    ∃ t, handlerInvoke h payload s = .next t := by
  obtain ⟨u, hu⟩ := runBehaviour_returns hb (s.enterHandler h payload)
  exact ⟨u.returnFromHandler, by rw [handlerInvoke, hu]; rfl⟩

/-- A dispatch ends without a route, or when the handler returns (R133). -/
theorem muxDispatch_completes {s : State} {id : Byte} {payload : Bytes} {checksum : Byte}
    (hc : s.e.rxLen ≤ s.cfg.rxFrameCap) (hf : accumulated s.e = id :: (payload ++ [checksum]))
    (hb : s.nextBehaviour.returns = true) : ∃ t, muxDispatch s = .next t := by
  rw [muxDispatch_of_frame hc hf]
  split
  · exact ⟨_, rfl⟩
  · exact handlerInvoke_completes hb _ payload

theorem verifyAndDispatch_completes {s : State} (hc : s.e.rxLen ≤ s.cfg.rxFrameCap)
    (hb : s.nextBehaviour.returns = true) : ∃ t, verifyAndDispatch s = .next t := by
  rw [verifyAndDispatch_of_le hc]
  split
  · next hpass =>
    obtain ⟨id, payload, checksum, hf⟩ := eq_frame_of_ck8Verify hpass
    exact muxDispatch_completes (s := s.withPhase .dispatch) hc hf hb
  · exact ⟨_, rfl⟩

theorem OnlyReceives.nextBehaviour_eq {s t : State} (h : OnlyReceives s t) : t.nextBehaviour = s.nextBehaviour := by
  rw [h]
  rfl

theorem receiveHalf_completes {s : State} (hi : s.e.Inv s.cfg) (hk : s.e.rxChunkPos = s.e.rxChunkLen → s.readKept)
    (hb : s.nextBehaviour.returns = true) : ∃ u, receiveHalf s = .next u := by
  obtain ⟨r, hr⟩ := execRxStep_completes (withPhase_inv hi .rx) rfl hk
  rw [exec_rxStep_withPhase] at hr
  rw [receiveHalf, hr, andThen_next_left]
  by_cases hc : r.response = .rx .frameComplete
  · have hbr : r.nextBehaviour.returns = true := by rw [(rxStep_onlyReceives hr).nextBehaviour_eq]; exact hb
    obtain ⟨v, hv⟩ := verifyAndDispatch_completes (rxStep_rxLen_le hr hc) hbr
    rw [if_pos hc, hv]
    exact ⟨_, rfl⟩
  · rw [if_neg hc]
    exact ⟨_, rfl⟩

/-- A drain ends when its write is answered within the contract (R152, R47). -/
theorem txDrain_completes {s : State} (hcap : s.e.txLen ≤ s.cfg.txBufCap)
    (hk : s.e.txCur < s.e.txLen → s.writeKept (offerSize s)) : ∃ t, txDrain s = .next t := by
  obtain hfl | hidle := Nat.lt_or_ge s.e.txCur s.e.txLen
  · rw [txDrain_of_inFlight hfl hcap]
    have hkept := hk hfl
    unfold State.writeKept at hkept
    cases hans : s.nextWrite with
    | error => exact ⟨_, rfl⟩
    | accepted w =>
      rw [hans] at hkept
      exact ⟨_, txAnswer_of_fits (by rwa [length_bytesAt])⟩
  · exact ⟨s, txDrain_of_idle hidle⟩

theorem transmitHalf_completes {u : State} (hcap : u.e.txLen ≤ u.cfg.txBufCap)
    (hk : inFlight u.e = true → u.writeKept (offerSize u)) : ∃ t, transmitHalf u = .next t := by
  obtain ⟨d, hd⟩ := txDrain_completes (s := u.withPhase .drain) hcap fun hfl => hk ((inFlight_eq_true _).2 hfl)
  rw [transmitHalf, hd]
  exact ⟨_, rfl⟩

/-! ## What a cycle leaves to the owner -/

/-- What no operation inside a cycle touches beside the configuration and the registry: the loop variables of the codec and
the owner's requests yet to come. -/
def ownerSide (s : State) : Codec × List Request := (s.codec, s.world.requests)

theorem muxDispatch_ownerSide {s t : State} (h : muxDispatch s = .next t) : ownerSide t = ownerSide s := by
  obtain ⟨_, _, _, -, -, ⟨-, rfl⟩ | ⟨g, -, h⟩⟩ := muxDispatch_next h
  · rfl
  · obtain ⟨_, ht, -⟩ := handlerInvoke_next h
    rw [ht]
    rfl

theorem verifyAndDispatch_ownerSide {s t : State} (h : verifyAndDispatch s = .next t) : ownerSide t = ownerSide s := by
  obtain ⟨-, ⟨-, rfl⟩ | ⟨-, hd⟩⟩ := verifyAndDispatch_next h
  · rfl
  · exact muxDispatch_ownerSide (s := s.withPhase .dispatch) hd

theorem OnlyReceives.ownerSide_eq {s t : State} (h : OnlyReceives s t) : ownerSide t = ownerSide s := by
  rw [h]
  rfl

theorem receiveHalf_ownerSide {s u : State} (h : receiveHalf s = .next u) : ownerSide u = ownerSide s := by
  obtain ⟨r, hr, hu⟩ := receiveHalf_next h
  have hrs : ownerSide r = ownerSide s := (rxStep_onlyReceives hr).ownerSide_eq
  obtain ⟨-, rfl⟩ | ⟨-, v, hv, rfl⟩ := hu
  · exact hrs
  · exact (verifyAndDispatch_ownerSide hv).trans hrs

theorem txDrain_ownerSide {s t : State} (h : txDrain s = .next t) : ownerSide t = ownerSide s := by
  obtain ⟨-, rfl⟩ | ⟨-, -, rfl⟩ | ⟨w, -, -, -, -, rfl⟩ := txDrain_next h <;> rfl

theorem transmitHalf_ownerSide {s t : State} (h : transmitHalf s = .next t) :
    ownerSide t = ownerSide s ∧ t.response = .none := by
  obtain ⟨d, hd, rfl⟩ := transmitHalf_next h
  exact ⟨txDrain_ownerSide (s := s.withPhase .drain) (t := d) hd, rfl⟩

/-- Settles O44: each half completes under the contracts it needs, and a completed cycle keeps the rest. -/
theorem taskCycleCompletes : Obligations.TaskCycleCompletes := by
  intro s hs hread hb hwrite
  obtain ⟨u, hu⟩ := receiveHalf_completes hs.engine hread hb
  obtain ⟨t, ht⟩ := transmitHalf_completes (receiveHalf_inv hs.engine hu).tx_le_cap (hwrite u hu)
  have hcycle : exec .taskCycle s = .next t := execTaskCycle_of_halves hs.idle hu ht
  obtain ⟨hinv, hphase⟩ := taskCycle_inv hs.engine hcycle
  obtain ⟨howner, hresp⟩ := transmitHalf_ownerSide ht
  obtain ⟨hcodec, hrequests⟩ := Prod.mk.inj (howner.trans (receiveHalf_ownerSide hu))
  exact ⟨t, hcycle, ⟨hinv, hphase.trans hs.idle⟩, configurationNeverChanges _ s t hcycle, taskCycle_reg hcycle, hcodec,
    hrequests, hresp⟩

/-! ## How a cycle ends (R178) -/

/-- The table of R178: the events of the receive side, with the length of the frame before the cycle and after it. -/
def OutcomeTable (before : Nat) (receive : List Event) (after : Nat) : Prop :=
  (receive = [.noData] ∧ after = before) ∨
  (receive = [.incomplete] ∧ before ≤ after) ∨
  (receive ∈ [[Event.malformed], [.oversize], [.badSum], [.noRoute]] ∧ after = 0) ∨
  (∃ h payload sends, receive = .call h payload :: sends ∧ (∀ ev ∈ sends, ev ∈ [Event.txBusy, .txLen, .txCap]) ∧
    after = 0)

/-- RX.STEP raises nothing with FRAME_COMPLETE; otherwise its event and the length it leaves stand in the table. -/
theorem execRxStep_outcome {s r : State} (hi : s.e.Inv s.cfg) (h : exec .rxStep s = .next r) :
    (r.response = .rx .frameComplete ∧ r.events = s.events) ∨
    (r.response ≠ .rx .frameComplete ∧
      ∃ receive, r.events = s.events ++ receive ∧ OutcomeTable s.e.rxLen receive r.e.rxLen) := by
  obtain ⟨-, -, rfl⟩ | ⟨-, rfl | rfl | ⟨out, esc, -, rfl⟩⟩ := execRxStep_next hi h
  · exact .inr ⟨nofun, [.noData], rfl, .inl ⟨rfl, rfl⟩⟩
  · exact .inr ⟨nofun, [.malformed], by simp [noFrame, afterSpan], .inr (.inr (.inl ⟨by simp, rfl⟩))⟩
  · exact .inr ⟨nofun, [.oversize], by simp [noFrame, afterSpan], .inr (.inr (.inl ⟨by simp, rfl⟩))⟩
  · by_cases hend : s.cfg.endByte ∈ workBytes s
    · exact .inl ⟨by simp [afterAppend, hend], by simp [afterAppend, hend]⟩
    · have hlen : (afterAppend s out esc).e.rxLen = s.e.rxLen + out.length := by simp [afterAppend, afterSpan]
      exact .inr ⟨by simp [afterAppend, hend], [.incomplete], by simp [afterAppend, hend], .inr (.inl ⟨rfl, by omega⟩)⟩

/-- After FRAME_COMPLETE the end-of-cycle reset makes the length 0, whichever way the frame went (R172). -/
theorem verifyAndDispatch_outcome {s t : State} (h : verifyAndDispatch s = .next t) (before : Nat) :
    ∃ receive, t.events = s.events ++ receive ∧ OutcomeTable before receive 0 := by
  obtain ⟨ev, hev, hevs⟩ | ⟨g, payload, sends, -, hevs, hsends⟩ := verifyAndDispatch_events h
  · have hrow : [ev] ∈ [[Event.malformed], [.oversize], [.badSum], [.noRoute]] := by
      simp only [List.mem_cons, List.not_mem_nil, or_false] at hev
      obtain rfl | rfl := hev <;> simp
    exact ⟨[ev], hevs, .inr (.inr (.inl ⟨hrow, rfl⟩))⟩
  · exact ⟨_, hevs, .inr (.inr (.inr ⟨g, payload, sends, rfl, hsends, rfl⟩))⟩

theorem receiveHalf_outcome {s u : State} (hi : s.e.Inv s.cfg) (h : receiveHalf s = .next u) :
    ∃ receive, u.events = s.events ++ receive ∧
      OutcomeTable s.e.rxLen receive (if u.response = .rx .frameComplete then 0 else u.e.rxLen) := by
  obtain ⟨r, hr, hcase⟩ := receiveHalf_next h
  obtain ⟨hc, hevs⟩ | ⟨hc, hout⟩ := execRxStep_outcome (withPhase_inv hi .rx) hr
  · obtain ⟨hc', -⟩ | ⟨-, v, hv, rfl⟩ := hcase
    · exact absurd hc hc'
    rw [State.respond_response, if_pos rfl, State.respond_events]
    rw [State.withPhase_events] at hevs
    rw [← hevs]
    exact verifyAndDispatch_outcome hv s.e.rxLen
  · obtain ⟨-, rfl⟩ | ⟨hc', -⟩ := hcase
    · rw [if_neg hc]
      exact hout
    · exact absurd hc' hc

theorem txDrain_rxLen {s t : State} (h : txDrain s = .next t) : t.e.rxLen = s.e.rxLen := by
  obtain ⟨-, rfl⟩ | ⟨-, -, rfl⟩ | ⟨w, -, -, -, -, rfl⟩ := txDrain_next h
  · rfl
  · rfl
  · rw [State.advanceCursor_e]
    split <;> rfl

/-- The drain leaves the frame alone, so its length is as the end-of-cycle reset says (R172). -/
theorem transmitHalf_rxLen {u t : State} (h : transmitHalf u = .next t) :
    t.e.rxLen = if u.response = .rx .frameComplete then 0 else u.e.rxLen := by
  rw [transmitHalf_eq, drainAndClean, exec_txDrain_withPhase] at h
  obtain ⟨d, hd, hk⟩ := andThen_eq_next.1 h
  obtain rfl := Host.Outcome.next.inj hk
  have hlen : d.e.rxLen = u.e.rxLen := txDrain_rxLen (s := (u.withPhase .drain).respond .none) hd
  rw [← hlen]
  rfl

/-- Settles O45: the receive half's outcome stands in the table once the transmit half has cleaned up. -/
theorem cycleOutcomes : Obligations.CycleOutcomes := by
  intro s t hs h
  obtain ⟨-, u, hu, ht⟩ := taskCycle_next h
  obtain ⟨receive, hreceive, hout⟩ := receiveHalf_outcome hs.engine hu
  obtain ⟨drain, hdrain, hevs⟩ := transmitHalf_events ht
  rw [← transmitHalf_rxLen ht] at hout
  exact ⟨receive, drain, by rw [hevs, hreceive], hdrain, hout⟩

/-! ## The drain of a cycle (R176) -/

/-- The answer to an offer acts on the transmit registers and OUTBOUND alone (R152). -/
theorem txAnswer_of_registers_eq {s t s' : State} {offered : Bytes} {ans : WriteAnswer} (hlen : s.e.txLen = t.e.txLen)
    (hcur : s.e.txCur = t.e.txCur) (h : txAnswer s offered ans = .next s') :
    ∃ t' taken, txAnswer t offered ans = .next t' ∧ t'.e.txLen = s'.e.txLen ∧ t'.e.txCur = s'.e.txCur ∧
      s'.world.outbound = s.world.outbound ++ taken ∧ t'.world.outbound = t.world.outbound ++ taken := by
  cases ans with
  | error =>
    obtain rfl := Host.Outcome.next.inj h
    exact ⟨_, [], rfl, hlen.symm, hcur.symm, (List.append_nil _).symm, (List.append_nil _).symm⟩
  | accepted w =>
    obtain hlong | hfits := Nat.lt_or_ge offered.length w
    · rw [txAnswer_of_writeTooLong hlong] at h
      cases h
    · rw [txAnswer_of_fits hfits] at h
      obtain rfl := Host.Outcome.next.inj h
      refine ⟨_, offered.take w, txAnswer_of_fits hfits, ?_⟩
      by_cases hend : t.e.txCur + w = t.e.txLen <;> simp [hlen, hcur, hend]

/-- A drain that answers a next state with a frame in flight made its offer inside the buffer. -/
theorem offer_le_of_txDrain {s t : State} (hfl : s.e.txCur < s.e.txLen) (h : txDrain s = .next t) :
    s.e.txCur + offerSize s ≤ s.cfg.txBufCap := by
  by_contra hcap
  rw [txDrain_of_outOfBounds hfl (Nat.lt_of_not_le hcap)] at h
  cases h

/-- The drain reads the transmit side, the write answers and the configuration, and nothing else (R152). -/
theorem txDrain_of_transmitSide_eq {s t s' : State} (hcfg : s.cfg = t.cfg) (hbuf : s.e.txBuf = t.e.txBuf)
    (hlen : s.e.txLen = t.e.txLen) (hcur : s.e.txCur = t.e.txCur) (hwrites : s.world.writes = t.world.writes)
    (h : txDrain s = .next s') :
    ∃ t' taken, txDrain t = .next t' ∧ t'.e.txLen = s'.e.txLen ∧ t'.e.txCur = s'.e.txCur ∧
      s'.world.outbound = s.world.outbound ++ taken ∧ t'.world.outbound = t.world.outbound ++ taken := by
  obtain hfl | hidle := Nat.lt_or_ge s.e.txCur s.e.txLen
  · have hsize : offerSize s = offerSize t := by rw [offerSize, offerSize, hcfg, hlen, hcur]
    have hans : s.nextWrite = t.nextWrite := by rw [State.nextWrite, State.nextWrite, hwrites]
    have hcap := offer_le_of_txDrain hfl h
    rw [txDrain_of_offer hfl hcap, hbuf, hcur, hsize, hans] at h
    rw [hcur, hsize, hcfg] at hcap
    rw [hcur, hlen] at hfl
    rw [txDrain_of_offer hfl hcap]
    exact txAnswer_of_registers_eq (s := s.dropWrite) hlen hcur h
  · rw [txDrain_of_idle hidle] at h
    obtain rfl := Host.Outcome.next.inj h
    have hidle' : t.e.txLen ≤ t.e.txCur := by rwa [← hlen, ← hcur]
    exact ⟨t, [], txDrain_of_idle hidle', hlen.symm, hcur.symm, (List.append_nil _).symm, (List.append_nil _).symm⟩

/-- Settles O59: the same offer gets the same answer, whatever the receive side holds. -/
theorem drainIgnoresTheReceiveSide : Obligations.DrainIgnoresTheReceiveSide := by
  intro s t s' hcfg hphase hbuf hlen hcur hwrites h
  obtain ⟨hp, h⟩ := whenPhase_eq_next.1 h
  have hexec : exec .txDrain t = txDrain (t.respond .none) := whenPhase_of_phase (hphase.symm.trans hp) _
  rw [hexec]
  exact txDrain_of_transmitSide_eq (s := s.respond .none) (t := t.respond .none) hcfg hbuf hlen hcur hwrites h

/-! ## The reply in the cycle of its request (R176, R50) -/

/-- A call in the receive half is the invocation after RX.STEP's frame; every other way through it raises another event. -/
theorem receiveHalf_of_call {s u : State} {h : Handler} {request : Bytes} (hi : s.e.Inv s.cfg) (hnone : s.events = [])
    (hu : receiveHalf s = .next u) (hcall : Event.call h request ∈ u.events) :
    ∃ r g payload v, rxStep (s.withPhase .rx) = .next r ∧ handlerInvoke g payload (r.withPhase .dispatch) = .next v ∧
      u = v.respond (.rx .frameComplete) := by
  obtain ⟨r, hr, hcase⟩ := receiveHalf_next hu
  obtain ⟨hc, hevs⟩ | ⟨hc, ev, hev, hevs⟩ := execRxStep_events (withPhase_inv hi .rx) hr <;>
    rw [State.withPhase_events, hnone] at hevs
  · obtain ⟨hc', -⟩ | ⟨-, v, hv, rfl⟩ := hcase
    · exact absurd hc hc'
    obtain ⟨-, ⟨-, rfl⟩ | ⟨-, hd⟩⟩ := verifyAndDispatch_next hv
    · simp [hevs] at hcall
    obtain ⟨_, payload, _, -, -, ⟨-, rfl⟩ | ⟨g, -, hg⟩⟩ := muxDispatch_next hd
    · simp [hevs] at hcall
    · exact ⟨r, g, payload, v, hr, hg, rfl⟩
  · obtain ⟨-, rfl⟩ | ⟨hc', -⟩ := hcase
    · rw [hevs] at hcall
      obtain rfl : Event.call h request = ev := by simpa using hcall
      simp at hev
    · exact absurd hc' hc

/-- A handler that sends one frame, which fits, leaves it stored (R135, R151). -/
theorem handlerInvoke_of_send {s : State} {id : Byte} {payload : Bytes} (h : Handler) (request : Bytes)
    (hb : s.nextBehaviour = .send id payload .done .done) (hidle : s.e.txLen ≤ s.e.txCur)
    (hlen : payload.length ≤ s.cfg.txPayloadMax) (hcap : (encodedFrameOf s.cfg id payload).length ≤ s.cfg.txBufCap) :
    handlerInvoke h request s =
      .next (((s.enterHandler h request).storeFrame (encodedFrameOf s.cfg id payload)).respond
        (.send .accepted)).returnFromHandler := by
  have hstored := txSend_of_fits (s := s.enterHandler h request) hidle hlen hcap
  rw [handlerInvoke, hb, runBehaviour_send_of_accepted (by rw [hstored]; rfl), hstored]
  rfl

/-- What the transport takes of the drain's offer goes to OUTBOUND (R152). -/
theorem transmitHalf_of_accepted {u : State} {w : Nat} (hi : u.e.Inv u.cfg) (hfl : u.e.txCur < u.e.txLen)
    (hans : u.nextWrite = .accepted w) (hw : w ≤ offerSize u) :
    ∃ t, transmitHalf u = .next t ∧ t.world.outbound = u.world.outbound ++ (undrained u.e).take w := by
  obtain ⟨-, -, haccepted⟩ := drainOffersFromTheCursor (u.withPhase .drain) (withPhase_inv hi .drain) rfl
  rw [transmitHalf_eq, drainAndClean, haccepted w _ rfl hfl hans hw]
  exact ⟨_, rfl, rfl⟩

/-- RX.STEP leaves the transmit side, its configuration and its surroundings for the reply as they were (R100). -/
theorem OnlyReceives.sends_eq {s t : State} (h : OnlyReceives s t) :
    t.cfg = s.cfg ∧ t.e.txLen = s.e.txLen ∧ t.e.txCur = s.e.txCur ∧ t.world.writes = s.world.writes ∧
      t.world.outbound = s.world.outbound := by
  rw [h]
  exact ⟨rfl, rfl, rfl, rfl, rfl⟩

/-- After the receive half the reply to its request is buffered, none of it taken (R151). -/
theorem receiveHalf_of_reply {s u : State} {h : Handler} {request payload : Bytes} {id : Byte} (hi : s.e.Inv s.cfg)
    (hidle : s.e.txLen ≤ s.e.txCur) (hnone : s.events = []) (hu : receiveHalf s = .next u)
    (hcall : Event.call h request ∈ u.events) (hb : s.nextBehaviour = .send id payload .done .done)
    (hlen : payload.length ≤ s.cfg.txPayloadMax) (hcap : (encodedFrameOf s.cfg id payload).length ≤ s.cfg.txBufCap) :
    u.e.txLen = (encodedFrameOf s.cfg id payload).length ∧ u.e.txCur = 0 ∧
      undrained u.e = encodedFrameOf s.cfg id payload ∧ u.nextWrite = s.nextWrite ∧
      u.world.outbound = s.world.outbound := by
  obtain ⟨r, g, request', v, hr, hv, rfl⟩ := receiveHalf_of_call hi hnone hu hcall
  have honly := rxStep_onlyReceives hr
  obtain ⟨-, htxLen, htxCur, hwrites, hout⟩ := honly.sends_eq
  have hcfg : r.cfg = s.cfg := rxStep_cfg (s := s.withPhase .rx) hr
  rw [← hcfg] at hlen hcap ⊢
  rw [handlerInvoke_of_send (s := r.withPhase .dispatch) g request' (honly.nextBehaviour_eq.trans hb)
    (htxLen.le.trans (hidle.trans htxCur.ge)) hlen hcap] at hv
  obtain rfl := Host.Outcome.next.inj hv
  exact ⟨rfl, rfl, bytesAt_memWrite_same _ 0 _, congrArg (·.headD (.accepted 0)) hwrites, hout⟩

/-- Settles O60: the handler's frame is all of TXFRAME's undrained part when the drain of its cycle makes the offer. -/
theorem replyLeavesInTheSameCycle : Obligations.ReplyLeavesInTheSameCycle := by
  rintro s u h request id payload _ w hs hidle hnone hu hcall hb hlen rfl hcap hans hw
  obtain ⟨htxLen, htxCur, hundrained, hwrite, hout⟩ :=
    receiveHalf_of_reply hs.engine hidle.ge hnone hu hcall hb hlen hcap
  have hpos := four_le_length_encodedFrameOf s.cfg id payload
  have hoffer : w ≤ offerSize u := by
    rw [offerSize, receiveHalf_cfg hu, htxLen, htxCur]
    exact hw
  obtain ⟨t, ht, htout⟩ :=
    transmitHalf_of_accepted (receiveHalf_inv hs.engine hu) (by omega) (hwrite.trans hans) hoffer
  rw [hundrained, hout] at htout
  exact ⟨t, execTaskCycle_of_halves hs.idle hu ht, htout⟩

/-! ## The end-to-end scenario (R177) -/

/-- Bytes without END and ESC stand for themselves (R61). -/
theorem slipDec_literals {c : Config} {src : Bytes} (h : ∀ b ∈ src, b ≠ c.endByte ∧ b ≠ c.escByte) :
    slipDec c false src = .ok src false := by
  induction src with
  | nil => rfl
  | cons b r ih =>
    obtain ⟨⟨hend, hesc⟩, hr⟩ := List.forall_mem_cons.1 h
    rw [slipDec_literal hend hesc, ih hr]
    rfl

/-- One read of an unescaped frame by a receive side with nothing pending: END, at least one byte, END. -/
structure ReadsWholeFrame (s : State) (body : Bytes) : Prop where
  frameStart : s.e.rxLen = 0 ∧ s.e.rxEsc = false
  consumed   : s.e.rxChunkPos = s.e.rxChunkLen
  read       : s.nextRead = s.cfg.endByte :: (body ++ [s.cfg.endByte])
  kept       : s.readKept
  nonempty   : body ≠ []
  literal    : ∀ b ∈ body, b ≠ s.cfg.endByte ∧ b ≠ s.cfg.escByte

section
variable {s : State} {body : Bytes}

theorem ReadsWholeFrame.nextRead_ne_nil (h : ReadsWholeFrame s body) : s.nextRead ≠ [] :=
  h.read ▸ List.cons_ne_nil _ _

theorem ReadsWholeFrame.hasWork (h : ReadsWholeFrame s body) : hasWork s := .inr ⟨h.consumed, h.nextRead_ne_nil, h.kept⟩

theorem ReadsWholeFrame.endByte_notMem (h : ReadsWholeFrame s body) : s.cfg.endByte ∉ body :=
  fun hm => (h.literal _ hm).1 rfl

/-- The END before the frame is skipped (R103). -/
theorem ReadsWholeFrame.workBytes_eq (h : ReadsWholeFrame s body) : workBytes s = body ++ [s.cfg.endByte] := by
  obtain ⟨-, hrem, -⟩ := transportReadIsStored s h.consumed h.nextRead_ne_nil
  obtain ⟨b, rest, rfl⟩ := List.exists_cons_of_ne_nil h.nonempty
  obtain ⟨hb, -⟩ := h.literal b List.mem_cons_self
  rw [workBytes, hrem, h.read, afterSkip, if_pos h.frameStart]
  simp [hb]

/-- The END after the frame ends the span (R104). -/
theorem ReadsWholeFrame.workSpan_eq (h : ReadsWholeFrame s body) : workSpan s = body ++ [s.cfg.endByte] :=
  workSpan_of_split h.workBytes_eq h.endByte_notMem

theorem ReadsWholeFrame.chunkLen_eq (h : ReadsWholeFrame s body) : (afterFetch s).e.rxChunkLen = body.length + 2 := by
  obtain ⟨he, -⟩ := transportReadIsStored s h.consumed h.nextRead_ne_nil
  rw [he, h.read]
  simp

theorem ReadsWholeFrame.posAfter_eq (h : ReadsWholeFrame s body) : posAfter s = body.length + 2 := by
  rw [posAfter, h.workBytes_eq, h.workSpan_eq, Nat.sub_self, h.chunkLen_eq, Nat.sub_zero]

/-- The report is FRAME_COMPLETE, and nothing is raised (R110). -/
theorem ReadsWholeFrame.report_eq (h : ReadsWholeFrame s body) :
    (afterAppend s body false).response = .rx .frameComplete ∧ (afterAppend s body false).events = s.events := by
  simp [afterAppend, h.workBytes_eq]

theorem ReadsWholeFrame.accumulated_eq (h : ReadsWholeFrame s body) :
    accumulated (afterAppend s body false).e = body := by
  obtain ⟨h0, -⟩ := h.frameStart
  rw [accumulated_afterAppend, accumulated, h0]
  rfl

/-- RX.STEP completes the frame: its bytes are appended, no escape is pending (R110). -/
theorem ReadsWholeFrame.rxStep_eq (h : ReadsWholeFrame s body) (hi : s.e.Inv s.cfg)
    (hfit : body.length ≤ s.cfg.rxFrameCap) : rxStep s = .next (afterAppend s body false) := by
  obtain ⟨h0, hesc⟩ := h.frameStart
  have hdec : slipDec s.cfg s.e.rxEsc (workSpan s) = .ok body false := by
    rw [hesc, h.workSpan_eq, slipDec_append_end_eq_ok hi.markers]
    exact ⟨slipDec_literals h.literal, rfl⟩
  rw [rxStep_of_hasWork hi h.hasWork]
  exact congrArg _ (rxDecode_afterSpan_of_fits hdec (by omega))

end

/-- VERIFY and DISPATCH of a frame routed to a handler that returns at once: a call or EV_BADSUM, by the checksum, and nothing
of E but the phase is changed (R122, R133). -/
theorem verifyAndDispatch_of_route_of_done {s : State} {id : Byte} {payload : Bytes} {checksum : Byte} {h : Handler}
    (hc : s.e.rxLen ≤ s.cfg.rxFrameCap) (hf : accumulated s.e = id :: payload ++ [checksum])
    (hroute : route s id = some h) (hb : s.nextBehaviour = .done) :
    ∃ v p, verifyAndDispatch s = .next v ∧ v.e = { s.e with phase := p } ∧ v.world.outbound = s.world.outbound ∧
      v.events = s.events ++ [if ck8 s.cfg (id :: payload) = checksum then .call h payload else .badSum] := by
  rw [verifyAndDispatch_of_le hc, hf, ck8Verify_decodedFrame]
  by_cases hck : ck8 s.cfg (id :: payload) = checksum
  · have hdispatch : muxDispatch (s.withPhase .dispatch) = handlerInvoke h payload (s.withPhase .dispatch) := by
      have hroute' : route (s.withPhase .dispatch) id = some h := hroute
      rw [muxDispatch_of_frame (s := s.withPhase .dispatch) hc hf, hroute']
    have hb' : (s.withPhase .dispatch).nextBehaviour = .done := hb
    rw [if_pos (decide_eq_true hck), if_pos hck, hdispatch, handlerInvoke, hb']
    exact ⟨_, .dispatch, rfl, rfl, rfl, rfl⟩
  · rw [if_neg (by simpa using hck), if_neg hck]
    exact ⟨_, .verify, rfl, rfl, rfl, rfl⟩

theorem receiveHalf_of_frameComplete {s r v : State} (hr : rxStep (s.withPhase .rx) = .next r)
    (hc : r.response = .rx .frameComplete) (hv : verifyAndDispatch r = .next v) :
    receiveHalf s = .next (v.respond (.rx .frameComplete)) := by
  rw [receiveHalf, hr, andThen_next_left, if_pos hc, hv]
  rfl

/-- With nothing in flight the transmit half only cleans up. -/
theorem transmitHalf_of_idle {u : State} (h : u.e.txLen ≤ u.e.txCur) :
    transmitHalf u = .next (cleanUp u.response u) := by
  rw [transmitHalf_eq, drainAndClean, exec_txDrain_withPhase, txDrain_of_idle (s := (u.withPhase .drain).respond .none) h]
  rfl

/-- Settles O47: the read completes the frame, its checksum decides between the call and EV_BADSUM, and the drain has nothing
to send. -/
theorem endToEndScenario : Obligations.EndToEndScenario := by
  intro s k h hs h0 hesc hconsumed hidle hmax hcap hliteral hread hb hid hslot
  have hfresh : ReadsWholeFrame (s.withPhase .rx) [0x41#8, 0x42#8, 0x43#8, k] :=
    ⟨⟨h0, hesc⟩, hconsumed, hread, by unfold State.readKept; exact hread ▸ hmax, List.cons_ne_nil _ _, hliteral⟩
  have hr := hfresh.rxStep_eq (withPhase_inv hs.engine .rx) hcap
  obtain ⟨hc, hevs⟩ := hfresh.report_eq
  have honly := rxStep_onlyReceives hr
  obtain ⟨hcfg, htxLen, htxCur, -, hout⟩ := honly.sends_eq
  have hroute : route (afterAppend (s.withPhase .rx) [0x41#8, 0x42#8, 0x43#8, k] false) 0x41#8 = some h := by
    rw [route_eq_some, hcfg, honly.reg_eq]
    exact ⟨hid, hslot⟩
  obtain ⟨v, p, hv, hve, hvout, hvevs⟩ := verifyAndDispatch_of_route_of_done (payload := [0x42#8, 0x43#8])
    (rxStep_rxLen_le hr hc) hfresh.accumulated_eq hroute (honly.nextBehaviour_eq.trans hb)
  have hzero : s.e.txLen = 0 := hs.engine.idle_is_zero hidle
  have hvLen : v.e.txLen = 0 := by rw [hve]; exact htxLen.trans hzero
  have hvCur : v.e.txCur = 0 := by rw [hve]; exact htxCur.trans (hidle.trans hzero)
  have hvChunkLen : v.e.rxChunkLen = 6 := by rw [hve]; exact hfresh.chunkLen_eq
  have hvChunkPos : v.e.rxChunkPos = 6 := by rw [hve]; exact hfresh.posAfter_eq
  have hvEsc : v.e.rxEsc = false := by rw [hve]; rfl
  rw [hevs, hcfg] at hvevs
  have hcycle := execTaskCycle_of_halves hs.idle (receiveHalf_of_frameComplete hr hc hv)
    (transmitHalf_of_idle (hvLen.trans_le (Nat.zero_le _)))
  exact ⟨_, hcycle, hvevs, hvChunkLen, hvChunkPos, rfl, hvEsc, hvLen, hvCur, hvout.trans hout⟩

end Sys2Proof.Machine

/-! PROOFS, exceptions (`60_exceptions.md`). What a step does when it has no instruction to run (R215, log entry 14). -/

namespace Sys2Proof.Machine

/-- With no request pending a step is idle (R215, log entry 14). -/
theorem step_of_requests_nil {s : State} (hr : s.world.requests = []) : step s = .next s := by
  simp only [step, hr]

/-- A request that does not decode is refused with the decoder's reason (log entry 14). -/
theorem step_of_decodeRequest_error {s : State} {r : Request} {rest : List Request} {e : DecodeError}
    (hr : s.world.requests = r :: rest) (hd : decodeRequest s r = .error e) : step s = .refused (.undecodable e) := by
  simp only [step, hr, hd]

/-- Settles O53: the two ways a step has no instruction; `decodeRequest` is the statement's decode. -/
theorem stepWithoutAnInstruction : Obligations.StepWithoutAnInstruction :=
  ⟨fun _ hr => step_of_requests_nil hr, fun _ _ _ _ hr hd => step_of_decodeRequest_error hr hd⟩

end Sys2Proof.Machine
